-- ==== Sys2Proof/Word.lean ====
section
/-! DEFINITION. The word types: a 64-bit beat, a byte, the two banks with their formats, a value of a format. -/

namespace Sys2Proof

/-- One transfer on the command or response stream (spec/00_scope.md R7: a beat is 64 bits). -/
abbrev Beat := BitVec 64

/-- One byte of a host's serialised beat (spec/20_memory.md R55). -/
abbrev Byte := BitVec 8

/-- The two banks, each named by its floating-point format: bank 0 is `f32` (binary32), bank 1 is `f64` (binary64)
(spec/00_scope.md R6, spec/10_state.md R20). -/
inductive Fmt where
  | f32
  | f64
deriving DecidableEq, Repr

/-- The width in bits of a value of the format (spec/20_memory.md R53). -/
abbrev Fmt.width : Fmt → Nat
  | .f32 => 32
  | .f64 => 64

/-- One value of a bank's format, as its encoding (spec/00_scope.md section 4: `bits(v)`). -/
abbrev Value (F : Fmt) := BitVec F.width

end Sys2Proof
end

