-- ==== Sys2Proof/Config.lean ====
section
/-! DEFINITION. What an implementation fixes (MAX_FILTERS) and the free values (nan_choice): opaque constants with no body. -/

namespace Sys2Proof

/-- `MAX_FILTERS - 1` of the implementation: an open parameter, nothing in Lean can evaluate it (spec/00_scope.md R4; log 1). -/
opaque Config.maxFiltersPred : Fin 65536

/-- `MAX_FILTERS`, the number of slots of each bank, with `1 ≤ MAX_FILTERS ≤ 65536` (spec/00_scope.md R4; log 1).
Only `State.reset` reads it; every step reads the copy held in the state. -/
def Config.maxFilters : Nat := Config.maxFiltersPred.val + 1

/-- The sign of the quiet NaN that draw `k` of `nan_choice` returns: a free value (spec/41_apply.md R134; log 2). -/
opaque Config.nanSign : Nat → Bool

/-- The payload of the quiet NaN that draw `k` of `nan_choice` returns: a free value (spec/41_apply.md R134; log 2).
Binary64 uses all 51 bits, binary32 the low 22. -/
opaque Config.nanPayload : Nat → BitVec 51

end Sys2Proof
end

