-- ==== Sys2Proof/Machine/Arith.lean ====
section
/-! DEFINITION. Datapath arithmetic (spec/41_apply.md section 1): fmul, fadd, fneg in binary32 and binary64, by exact integers
and one rounding. -/

namespace Sys2Proof.Machine

/-- `2 ^ n`. -/
def pow2 (n : Nat) : Nat := 1 <<< n

/-- Trailing-significand bits: 23 and 52 (R130). -/
def fracBits : Fmt → Nat
  | .f32 => 23
  | .f64 => 52

/-- Exponent bits: 8 and 11 (R130). -/
def expBits : Fmt → Nat
  | .f32 => 8
  | .f64 => 11

/-- The smallest positive value of the format is `2 ^ -unitExp`: `2^-149` and `2^-1074` (R130, R135). Every finite value is a
whole number of these units. -/
def unitExp : Fmt → Nat
  | .f32 => 149
  | .f64 => 1074

/-- The place value of the sign bit: `2^31` and `2^63` (R130, spec/20_memory.md R55). -/
def signWeight (F : Fmt) : Nat := pow2 (expBits F + fracBits F)

/-- The magnitude field (exponent and significand) of an infinity: exponent all ones, significand 0. -/
def infMag (F : Fmt) : Nat := (pow2 (expBits F) - 1) * pow2 (fracBits F)

/-- The sign bit: the most significant bit of the encoding (spec/20_memory.md R55). -/
def signOf {F : Fmt} (v : Value F) : Bool := v.msb

/-- Everything below the sign bit, as a number: biased exponent, then trailing significand. -/
def magOf {F : Fmt} (v : Value F) : Nat := v.toNat % signWeight F

/-- The encoding with the given sign and magnitude field. -/
def pack (F : Fmt) (sign : Bool) (mag : Nat) : Value F :=
  BitVec.ofNat F.width ((if sign then signWeight F else 0) + mag)

/-- The value is a NaN, quiet or signalling. -/
def isNaN {F : Fmt} (v : Value F) : Bool := infMag F < magOf v

/-- The value is `+Inf` or `-Inf`. -/
def isInf {F : Fmt} (v : Value F) : Bool := magOf v == infMag F

/-- The value is `+0.0` or `-0.0`. -/
def isZero {F : Fmt} (v : Value F) : Bool := magOf v == 0

/-- The value is finite: zero, subnormal or normal. -/
def isFinite {F : Fmt} (v : Value F) : Bool := magOf v < infMag F

/-- The value is a quiet NaN: a NaN whose leading significand bit is 1. -/
def isQuietNaN {F : Fmt} (v : Value F) : Bool := infMag F + pow2 (fracBits F - 1) ≤ magOf v

/-- The magnitude of a finite value in units of `2 ^ -unitExp`: subnormals have exponent field 0 and no leading 1 (R130, R135). -/
def unitsOf {F : Fmt} (v : Value F) : Nat :=
  let e := magOf v / pow2 (fracBits F)
  let frac := magOf v % pow2 (fracBits F)
  if e = 0 then frac else (pow2 (fracBits F) + frac) * pow2 (e - 1)

/-- A finite value as a whole number of units, with its sign; both zeros give 0. -/
def intOf {F : Fmt} (v : Value F) : Int := if signOf v then -(unitsOf v : Int) else (unitsOf v : Int)

/-- `m / 2^k` rounded to the nearest whole number, ties to even (roundTiesToEven, R131). -/
def roundTiesToEven (m k : Nat) : Nat :=
  let q := m / pow2 k
  let r := m % pow2 k
  if pow2 k < 2 * r ∨ (2 * r = pow2 k ∧ q % 2 = 1) then q + 1 else q

/-- The magnitude field of `m * 2^-k` units rounded once to the format (R131, R132, R135, R136). `cut` low bits are rounded
away: those past the precision, and at least the `k` bits below the unit, so that small results round on the subnormal grid.
A magnitude that rounds past the largest finite value gives the infinity. -/
def roundMag (F : Fmt) (m k : Nat) : Nat :=
  if m = 0 then 0
  else
    let cut := max (m.log2 + 1 - (fracBits F + 1)) k
    min (infMag F) ((cut - k) * pow2 (fracBits F) + roundTiesToEven m cut)

/-- The quiet NaN of draw `d` of `nan_choice`: its sign and payload are free (R134; log 2). -/
def quietNaN (F : Fmt) (d : Nat) : Value F :=
  pack F (Config.nanSign d)
    (infMag F + pow2 (fracBits F - 1) + (Config.nanPayload d).toNat % pow2 (fracBits F - 1))

/-- `fmul_F(a, b)` (R131, R133-R136); `d` is the draw a NaN result takes. -/
def fmul (F : Fmt) (d : Nat) (a b : Value F) : Value F :=
  let sign := signOf a != signOf b
  if isNaN a || isNaN b then quietNaN F d
  else if isInf a || isInf b then
    if isZero a || isZero b then quietNaN F d else pack F sign (infMag F)
  else pack F sign (roundMag F (unitsOf a * unitsOf b) (unitExp F))

/-- The finite case of `fadd_F`: the exact sum, rounded once; an exact zero is `-0.0` only when both operands are negative,
that is both `-0.0` (R132, R133). -/
def faddFinite (F : Fmt) (a b : Value F) : Value F :=
  let sum := intOf a + intOf b
  if sum = 0 then pack F (signOf a && signOf b) 0
  else pack F (sum < 0) (roundMag F sum.natAbs 0)

/-- `fadd_F(a, b)` (R132-R136); `d` is the draw a NaN result takes. -/
def fadd (F : Fmt) (d : Nat) (a b : Value F) : Value F :=
  if isNaN a || isNaN b then quietNaN F d
  else if isInf a then
    if isInf b && signOf a != signOf b then quietNaN F d else pack F (signOf a) (infMag F)
  else if isInf b then pack F (signOf b) (infMag F)
  else faddFinite F a b

/-- `fneg_F(a)`: the sign bit inverted, every other bit unchanged, NaNs too (R138). -/
def fneg (F : Fmt) (a : Value F) : Value F := a ^^^ BitVec.ofNat F.width (signWeight F)

end Sys2Proof.Machine
end

