-- ==== Sys2Proof/Machine/State.lean ====
section
/-! DEFINITION. State, Fault, Refusal and State.reset: plain data holding all the spec gives the block. -/

namespace Sys2Proof.Machine

/-- One slot of a bank's Filter-State Register File (spec/10_state.md R21). -/
structure Slot (F : Fmt) where
  /-- `NUM_STAGES`, `0 .. 16`; 0 marks a slot never initialised (R23). -/
  numStages : Nat
  /-- `COEF[0..79]`: stage `s` owns `5s .. 5s+4` = `b0, b1, b2, a1', a2'` (R24). -/
  coef : Vector (Value F) 80
  /-- `STATE[0..31]`: stage `s` owns `2s` (d1) and `2s+1` (d2) (R25). -/
  delay : Vector (Value F) 32
deriving DecidableEq, Repr

/-- The slot at reset: never initialised, every entry `+0.0`, all bits zero (spec/70_reset_and_hazards.md R200). -/
def Slot.zero (F : Fmt) : Slot F :=
  { numStages := 0, coef := Vector.replicate 80 0#F.width, delay := Vector.replicate 32 0#F.width }

/-- One bank (spec/10_state.md R21): its registry cursor and its slots. -/
structure Bank (F : Fmt) where
  /-- `COUNT[p]` (R22). -/
  count : Nat
  /-- The slots that differ from `Slot.zero`, as (handle, slot) pairs with strictly rising handles. -/
  slots : List (Nat × Slot F)
deriving DecidableEq, Repr

/-- A bank at reset: no handle allocated, every slot zero (spec/70_reset_and_hazards.md R200). -/
def Bank.zero (F : Fmt) : Bank F := { count := 0, slots := [] }

/-- `PHASE` of the command sequencer (spec/10_state.md R29). -/
inductive Phase where
  /-- Awaiting a header beat. -/
  | header
  /-- Consuming the payload of the current packet. -/
  | payload
  /-- Sending response beats. -/
  | respond
deriving DecidableEq, Repr

/-- The host's `rsp_ready`, as far as the model's environment needs it (log 5). -/
inductive Ready where
  /-- The host accepts every response beat the block offers, as spec/70_reset_and_hazards.md R206 asks of it. -/
  | always
  /-- The host accepts `k` more response beats and then none. -/
  | atMost (k : Nat)
deriving DecidableEq, Repr

/-- The machine's state. -/
structure State where
  /-- `MAX_FILTERS`, the parameter of the implementation; no step changes it (spec/00_scope.md R4; log 1). -/
  maxFilters : Nat
  /-- Bank 0, binary32 (spec/10_state.md R20). -/
  f32 : Bank .f32
  /-- Bank 1, binary64 (spec/10_state.md R20). -/
  f64 : Bank .f64
  /-- `PHASE` (spec/10_state.md R29). -/
  phase : Phase
  /-- `HDR`, the current header beat (R29). -/
  hdr : Beat
  /-- `LEFT`, payload beats of the current packet not yet consumed (R29). -/
  left : Nat
  /-- `n`, the index of the next APPLY sample (R29). -/
  n : Nat
  /-- `rsp_valid` and `rsp_data`: the response beat offered and not yet accepted (spec/70_reset_and_hazards.md section 1). -/
  offer : Option Beat
  /-- The model's own: payload beats of the current accepted INIT consumed so far, oldest first (log 7). -/
  got : List Beat
  /-- The model's own: the index of the next `nan_choice` draw (log 2). -/
  draws : Nat
  /-- Environment: the `rst` input at the next clock edge (spec/70_reset_and_hazards.md R200; log 5). -/
  rst : Bool
  /-- Environment: the command beats the host offers and the block has not accepted, in order (log 5). -/
  cmd : List Beat
  /-- Environment: the host's readiness for response beats (log 5). -/
  ready : Ready
  /-- Environment: the response beats the host has accepted, oldest first (log 5). -/
  rsp : List Beat
deriving DecidableEq, Repr

/-- Why a step could stop with a fault: nothing does. The block has no traps (spec/60_exceptions.md R170), its errors are
status beats, and a block that waits stays as it is (spec/70_reset_and_hazards.md R206, R207). -/
inductive Fault where
deriving DecidableEq, Repr

/-- Why a step could be refused. -/
inductive Refusal where
  /-- Raised by an arm of `exec` whose instruction has no meaning yet: no arm does so now. Safe. -/
  | notModelled (mnemonic : String)
deriving DecidableEq, Repr

/-- The block right after reset, as built with `maxFilters` slots a bank (spec/70_reset_and_hazards.md R200, spec/10_state.md
section 8). HDR, which the spec leaves unspecified, is 0 (log 3); the host offers nothing yet and will accept responses (log 12). -/
def State.resetOf (maxFilters : Nat) : State :=
  { maxFilters := maxFilters
    f32 := Bank.zero .f32
    f64 := Bank.zero .f64
    phase := .header
    hdr := 0#64
    left := 0
    n := 0
    offer := none
    got := []
    draws := 0
    rst := false
    cmd := []
    ready := .always
    rsp := [] }

/-- The machine right after reset, for the implementation's own MAX_FILTERS, which is not known in Lean (log 1). -/
def State.reset : State := State.resetOf Config.maxFilters

end Sys2Proof.Machine
end

