-- ==== Sys2Proof/Machine/Flags.lean ====
section
/-! DEFINITION. The only status the block has: the ECODE and the status beat (spec/30_encoding.md R82, R83). It keeps no flags. -/

namespace Sys2Proof.Machine

/-- The outcome of a command (spec/30_encoding.md R83); codes 5 to 15 are never produced. -/
inductive Ecode where
  | ok
  | shapeError
  | capacityExceeded
  | invalidHandle
  | illegalCommand
deriving DecidableEq, Repr

/-- ECODE values (R83). -/
def ecodeBits : Ecode → BitVec 4
  | .ok => 0#4
  | .shapeError => 1#4
  | .capacityExceeded => 2#4
  | .invalidHandle => 3#4
  | .illegalCommand => 4#4

/-- The P bit of a bank (spec/30_encoding.md R74). -/
def bankBit : Fmt → BitVec 1
  | .f32 => 0#1
  | .f64 => 1#1

/-- A status beat: OPE, HANDLE, NOUT, PE, ECODE with zeros between (R82). -/
def statusBeat (e : Ecode) (pe : BitVec 1) (nout handle : Nat) (ope : BitVec 4) : Beat :=
  0#12 ++ ope ++ BitVec.ofNat 16 handle ++ BitVec.ofNat 24 nout ++ 0#3 ++ pe ++ ecodeBits e

/-- The status of a rejected command: NOUT and HANDLE are 0 (spec/60_exceptions.md R177, R178). -/
def errorStatus (e : Ecode) (pe : BitVec 1) (ope : BitVec 4) : Beat := statusBeat e pe 0 0 ope

end Sys2Proof.Machine
end

