-- ==== Sys2Proof/Machine/Operands.lean ====
section
/-! DEFINITION. Operand forms: values in beats and matrix elements in the payload (spec/20_memory.md R54, spec/30_encoding.md R79). -/

namespace Sys2Proof.Machine

/-- The value in a payload beat: `beat[31:0]` in bank 0, the upper half ignored; the whole beat in bank 1 (R54). -/
def valueOfBeat (F : Fmt) (b : Beat) : Value F := b.setWidth F.width

/-- The output beat of a value: the upper half 0 in bank 0 (R54). -/
def beatOfValue {F : Fmt} (v : Value F) : Beat := v.setWidth 64

/-- Element `k` of a row-major matrix payload: `(i, j)` is element `i * COLS + j` (spec/30_encoding.md R79). -/
def elem (F : Fmt) (m : List Beat) (k : Nat) : Value F := valueOfBeat F (m.getD k 0#64)

end Sys2Proof.Machine
end

