-- ==== Sys2Proof/Syntax.lean ====
section
/-! DEFINITION. The six commands of spec/opcode_table.json, one constructor a row. -/

namespace Sys2Proof

/-- A command, its operands decoded as unsigned integers (spec/30_encoding.md R77). The payload is no part of it: it
follows the header on the command stream (R70). -/
inductive Instr where
  /-- `INIT.F32 rows, cols` (spec/40_init.md R104). -/
  | initF32 (rows cols : Nat)
  /-- `INIT.F64 rows, cols` (spec/40_init.md R104). -/
  | initF64 (rows cols : Nat)
  /-- `INIT.F32.R handle, rows, cols` (spec/40_init.md R105). -/
  | initF32R (handle rows cols : Nat)
  /-- `INIT.F64.R handle, rows, cols` (spec/40_init.md R105). -/
  | initF64R (handle rows cols : Nat)
  /-- `APPLY.F32 handle, nsamp` (spec/41_apply.md R143). -/
  | applyF32 (handle nsamp : Nat)
  /-- `APPLY.F64 handle, nsamp` (spec/41_apply.md R143). -/
  | applyF64 (handle nsamp : Nat)
deriving DecidableEq, Repr

/-- How many payload beats follow the command's header: `ROWS * COLS` or `NSAMP` (spec/30_encoding.md R71, R79, R80). -/
def Instr.payloadBeats : Instr → Nat
  | .initF32 rows cols => rows * cols
  | .initF64 rows cols => rows * cols
  | .initF32R _ rows cols => rows * cols
  | .initF64R _ rows cols => rows * cols
  | .applyF32 _ nsamp => nsamp
  | .applyF64 _ nsamp => nsamp

/-- The bank the command reads and writes (spec/30_encoding.md R74). -/
def Instr.bank : Instr → Fmt
  | .initF32 _ _ => .f32
  | .initF64 _ _ => .f64
  | .initF32R _ _ _ => .f32
  | .initF64R _ _ _ => .f64
  | .applyF32 _ _ => .f32
  | .applyF64 _ _ => .f64

end Sys2Proof
end

