-- ==== Sys2Proof/WellFormed.lean ====
section
/-! DEFINITION. A well-formed command: every operand fits the field that holds it (spec/00_scope.md R7, spec/30_encoding.md R77). -/

namespace Sys2Proof

/-- ROWS and COLS are 8-bit fields, so `0 .. 255`; the illegal shapes among them are the block's to reject (R77). -/
def shapeFits (rows cols : Nat) : Bool := rows < 2 ^ 8 && cols < 2 ^ 8

/-- HANDLE is a 16-bit field, so `0 .. 65535` (R77). -/
def handleFits (handle : Nat) : Bool := handle < 2 ^ 16

/-- NSAMP is a 24-bit field, so `0 .. NSAMP_MAX = 16,777,215` (spec/00_scope.md R7). -/
def nsampFits (nsamp : Nat) : Bool := nsamp < 2 ^ 24

/-- Every operand of the command fits its field. -/
def Instr.wellFormed : Instr → Bool
  | .initF32 rows cols => shapeFits rows cols
  | .initF64 rows cols => shapeFits rows cols
  | .initF32R handle rows cols => handleFits handle && shapeFits rows cols
  | .initF64R handle rows cols => handleFits handle && shapeFits rows cols
  | .applyF32 handle nsamp => handleFits handle && nsampFits nsamp
  | .applyF64 handle nsamp => handleFits handle && nsampFits nsamp

end Sys2Proof
end

