-- ==== Sys2Proof/Decode.lean ====
section
/-! DEFINITION. Header beats: their fields, PayloadLen, the decoder with its named rejections, the byte view, the encoder. -/

namespace Sys2Proof

/-! ### Fields of a header beat (spec/30_encoding.md R72, R77) -/

/-- OP, bits `[3:0]`. -/
def opField (w : Beat) : BitVec 4 := w.extractLsb' 0 4

/-- P, bit `[4]`. -/
def pField (w : Beat) : BitVec 1 := w.extractLsb' 4 1

/-- RU, bit `[5]`. -/
def ruField (w : Beat) : BitVec 1 := w.extractLsb' 5 1

/-- Z0, bits `[7:6]`, reserved in both formats. -/
def z0Field (w : Beat) : BitVec 2 := w.extractLsb' 6 2

/-- ROWS, bits `[15:8]` of format I. -/
def rowsField (w : Beat) : Nat := (w.extractLsb' 8 8).toNat

/-- COLS, bits `[23:16]` of format I. -/
def colsField (w : Beat) : Nat := (w.extractLsb' 16 8).toNat

/-- Z1, bits `[31:24]` of format I, reserved. -/
def z1Field (w : Beat) : BitVec 8 := w.extractLsb' 24 8

/-- NSAMP, bits `[31:8]` of format A. -/
def nsampField (w : Beat) : Nat := (w.extractLsb' 8 24).toNat

/-- HANDLE, bits `[47:32]`. -/
def handleField (w : Beat) : Nat := (w.extractLsb' 32 16).toNat

/-- Z2, bits `[63:48]`, reserved in both formats. -/
def z2Field (w : Beat) : BitVec 16 := w.extractLsb' 48 16

/-- The number of payload beats that follow header `w`, legal or not (spec/30_encoding.md R71). -/
def payloadLen (w : Beat) : Nat :=
  if opField w = 0x1#4 then rowsField w * colsField w
  else if opField w = 0x2#4 then nsampField w
  else 0

/-! ### Decoding -/

/-- Why a header beat spells no command; each is the ILLEGAL_COMMAND of spec/60_exceptions.md R172. -/
inductive Reject where
  /-- OP `0x0` or `0x3 .. 0xF` (spec/30_encoding.md R73). -/
  | reservedOp
  /-- Z0 nonzero (R76). -/
  | reservedZ0
  /-- Z1 nonzero in format I (R76). -/
  | reservedZ1
  /-- Z2 nonzero (R76). -/
  | reservedZ2
  /-- RU nonzero in format A (R75, R76). -/
  | reservedRU
  /-- HANDLE nonzero in a fresh INIT (R76). -/
  | freshHandle
  /-- Fewer than the 8 bytes of a beat: only for the byte view, no header beat gives it. -/
  | shortBeat
deriving DecidableEq, Repr

/-- One row of the decode table (spec/30_encoding.md R78). -/
structure OpRow where
  mnemonic : String
  pattern : Beat
  mask : Beat
  build : Beat → Instr

/-- The row matches the beat: `w & mask == match` (R78). -/
def OpRow.hits (r : OpRow) (w : Beat) : Bool := w &&& r.mask == r.pattern

/-- The decode table, in the spec's order (R78). -/
def opTable : List OpRow := [
  ⟨"INIT.F32", 0x0000000000000001#64, 0xFFFFFFFFFF0000FF#64, fun w => .initF32 (rowsField w) (colsField w)⟩,
  ⟨"INIT.F64", 0x0000000000000011#64, 0xFFFFFFFFFF0000FF#64, fun w => .initF64 (rowsField w) (colsField w)⟩,
  ⟨"INIT.F32.R", 0x0000000000000021#64, 0xFFFF0000FF0000FF#64,
    fun w => .initF32R (handleField w) (rowsField w) (colsField w)⟩,
  ⟨"INIT.F64.R", 0x0000000000000031#64, 0xFFFF0000FF0000FF#64,
    fun w => .initF64R (handleField w) (rowsField w) (colsField w)⟩,
  ⟨"APPLY.F32", 0x0000000000000002#64, 0xFFFF0000000000FF#64, fun w => .applyF32 (handleField w) (nsampField w)⟩,
  ⟨"APPLY.F64", 0x0000000000000012#64, 0xFFFF0000000000FF#64, fun w => .applyF64 (handleField w) (nsampField w)⟩]

/-- The name of what is wrong with a header that matches no row (spec/60_exceptions.md R172). -/
def rejectReason (w : Beat) : Reject :=
  if opField w ≠ 0x1#4 ∧ opField w ≠ 0x2#4 then .reservedOp
  else if z0Field w ≠ 0#2 then .reservedZ0
  else if z2Field w ≠ 0#16 then .reservedZ2
  else if opField w = 0x2#4 then .reservedRU
  else if z1Field w ≠ 0#8 then .reservedZ1
  else .freshHandle

/-- Decodes a header beat by the first matching row; every other beat is rejected by name (R78). -/
def decode (w : Beat) : Except Reject Instr :=
  match opTable.find? (fun r => r.hits w) with
  | some r => .ok (r.build w)
  | none => .error (rejectReason w)

/-! ### The byte view (spec/20_memory.md R55): byte k of a serialised beat is bits `[8k+7:8k]` -/

/-- The 8 bytes of a beat, lowest address or first transmitted first. -/
def bytesOfBeat (w : Beat) : List Byte := (List.range 8).map fun k => w.extractLsb' (8 * k) 8

/-- The beat of 8 bytes, byte 0 in the low bits. -/
def beatOfBytes (b0 b1 b2 b3 b4 b5 b6 b7 : Byte) : Beat := b7 ++ b6 ++ b5 ++ b4 ++ b3 ++ b2 ++ b1 ++ b0

/-- Decodes the header beat at the front of a byte sequence and returns the bytes after it. -/
def decodeBytes : List Byte → Except Reject (Instr × List Byte)
  | b0 :: b1 :: b2 :: b3 :: b4 :: b5 :: b6 :: b7 :: rest =>
    match decode (beatOfBytes b0 b1 b2 b3 b4 b5 b6 b7) with
    | .ok i => .ok (i, rest)
    | .error e => .error e
  | _ => .error .shortBeat

/-- The header beat of an instruction whose `nbits` bits are `w`, numbered as the opcode table numbers them: bits above
`nbits` are 0 (a row of the table is the header beat, 64 bits; the payload has no bits there). -/
def tableBeat (nbits w : Nat) : Beat := BitVec.ofNat 64 (w % 2 ^ nbits)

/-- What the decoder reads from an instruction whose `nbits` bits are `w`, laid out as 8 bytes in the order of R55. -/
def decodeTableWord (nbits w : Nat) : Option Instr :=
  match decodeBytes (bytesOfBeat (tableBeat nbits w)) with
  | .ok (i, _) => some i
  | .error _ => none

/-! ### Encoding -/

/-- A format I header (spec/30_encoding.md R72): Z2, HANDLE, Z1, COLS, ROWS, Z0, RU, P, OP. -/
def initHeader (p ru : BitVec 1) (handle rows cols : Nat) : Beat :=
  0#16 ++ BitVec.ofNat 16 handle ++ 0#8 ++ BitVec.ofNat 8 cols ++ BitVec.ofNat 8 rows ++ 0#2 ++ ru ++ p ++ 0x1#4

/-- A format A header (spec/30_encoding.md R72): Z2, HANDLE, NSAMP, Z0, RU, P, OP. -/
def applyHeader (p : BitVec 1) (handle nsamp : Nat) : Beat :=
  0#16 ++ BitVec.ofNat 16 handle ++ BitVec.ofNat 24 nsamp ++ 0#2 ++ 0#1 ++ p ++ 0x2#4

/-- The header beat of a command (spec/30_encoding.md R72, R85). -/
def encode : Instr → Beat
  | .initF32 rows cols => initHeader 0#1 0#1 0 rows cols
  | .initF64 rows cols => initHeader 1#1 0#1 0 rows cols
  | .initF32R handle rows cols => initHeader 0#1 1#1 handle rows cols
  | .initF64R handle rows cols => initHeader 1#1 1#1 handle rows cols
  | .applyF32 handle nsamp => applyHeader 0#1 handle nsamp
  | .applyF64 handle nsamp => applyHeader 1#1 handle nsamp

end Sys2Proof
end

