-- ==== Sys2Proof/Machine/Ops.lean ====
section
/-! DEFINITION. Named operations: the slot file, the banks, the reset edge, the command sequencer's moves and settling. -/

namespace Sys2Proof.Machine

/-! ### The slot file of a bank: (handle, slot) pairs, handles strictly rising, no slot equal to the reset slot -/

/-- Slot `h`; a slot not listed is the reset slot (spec/70_reset_and_hazards.md R200). -/
def slotRead {F : Fmt} : List (Nat × Slot F) → Nat → Slot F
  | [], _ => Slot.zero F
  | (k, v) :: rest, h => if h = k then v else slotRead rest h

/-- The slot in front of a list, unless it is the reset slot, which is not listed. -/
def slotCons {F : Fmt} (h : Nat) (v : Slot F) (rest : List (Nat × Slot F)) : List (Nat × Slot F) :=
  if v = Slot.zero F then rest else (h, v) :: rest

/-- Slot `h` replaced by `v`, in canonical form. -/
def slotWrite {F : Fmt} : List (Nat × Slot F) → Nat → Slot F → List (Nat × Slot F)
  | [], h, v => slotCons h v []
  | (k, u) :: rest, h, v =>
    if h < k then slotCons h v ((k, u) :: rest)
    else if h = k then slotCons h v rest
    else (k, u) :: slotWrite rest h v

/-- The canonical form of a slot file: handles strictly rising, no listed slot equal to the reset slot. -/
def slotsWf {F : Fmt} : List (Nat × Slot F) → Bool
  | [] => true
  | [(_, v)] => v != Slot.zero F
  | (k, v) :: (k', v') :: rest => v != Slot.zero F && k < k' && slotsWf ((k', v') :: rest)

/-! ### Banks -/

/-- The bank a command's P bit selects (spec/30_encoding.md R74). -/
def State.bank (s : State) : (F : Fmt) → Bank F
  | .f32 => s.f32
  | .f64 => s.f64

/-- The state with one bank replaced; the other is not touched (spec/10_state.md R20). -/
def State.setBank (s : State) : (F : Fmt) → Bank F → State
  | .f32, b => { s with f32 := b }
  | .f64, b => { s with f64 := b }

/-- Slot `h` of a bank. -/
def State.slot (s : State) (F : Fmt) (h : Nat) : Slot F := slotRead (s.bank F).slots h

/-- The state with slot `h` of a bank replaced (spec/20_memory.md R61: a command writes one slot). -/
def State.setSlot (s : State) (F : Fmt) (h : Nat) (v : Slot F) : State :=
  s.setBank F { s.bank F with slots := slotWrite (s.bank F).slots h v }

/-- The state with `COUNT[p]` replaced (spec/10_state.md R22). -/
def State.setCount (s : State) (F : Fmt) (c : Nat) : State := s.setBank F { s.bank F with count := c }

/-- Handle `h` is valid in the bank (spec/10_state.md R26). -/
def State.validHandle (s : State) (F : Fmt) (h : Nat) : Bool := h < (s.bank F).count

/-! ### Ports (spec/70_reset_and_hazards.md section 1) -/

/-- `cmd_ready`: the block would accept a command beat; 0 in a reset cycle (R200) and while a response is pending (R59, R206). -/
def State.cmdReady (s : State) : Bool := !s.rst && s.phase != .respond

/-- `rsp_valid`: the block offers a response beat; 0 in a reset cycle (R200). -/
def State.rspValid (s : State) : Bool := !s.rst && s.offer.isSome

/-- The clock edge with `rst` at 1: every element of the block takes its reset value, whatever it was doing; no beat is
transferred and the host's streams are as they were, its accepted responses too (R200, R201). `rst` is then low (log 5); the
draw counter goes on, as no draw repeats (log 4). -/
def State.resetEdge (s : State) : State :=
  { State.resetOf s.maxFilters with draws := s.draws, cmd := s.cmd, ready := s.ready, rsp := s.rsp }

/-! ### Moves of the command sequencer (spec/10_state.md R29) -/

/-- A header beat has been accepted: `HDR` holds it, `LEFT` is the payload length, the sample index starts at 0. -/
def State.beginCommand (s : State) (w : Beat) (len : Nat) : State :=
  { s with hdr := w, left := len, n := 0, got := [], offer := none, phase := .payload }

/-- The block offers response beat `b` (`SendBeat` of spec/00_scope.md section 4, up to the wait). -/
def State.offerBeat (s : State) (b : Beat) : State := { s with offer := some b, phase := .respond }

/-- The phase between two transfers of a command with `left` payload beats to come; none: the next header (R59, R70). -/
def phaseAfter (left : Nat) : Phase := if left = 0 then .header else .payload

/-- What is left of the host's readiness once it accepts one beat; none: it does not accept. -/
def Ready.accept : Ready → Option Ready
  | .always => some .always
  | .atMost 0 => none
  | .atMost (k + 1) => some (.atMost k)

/-- Response beat `b` has been accepted by the host, whose readiness is now `r`; the command goes on or ends. -/
def State.responseTaken (s : State) (b : Beat) (r : Ready) : State :=
  { s with offer := none, ready := r, rsp := s.rsp ++ [b], phase := phaseAfter s.left }

/-- The host accepts the offered response beat, if it is ready for one; otherwise the block waits (R206). -/
def State.acceptResponse (s : State) : State :=
  match s.offer, s.ready.accept with
  | some b, some r => s.responseTaken b r
  | _, _ => s

/-- One payload beat consumed (`RecvBeat` of spec/00_scope.md section 4): the stream moves on and `LEFT` counts down. -/
def State.dropBeat (s : State) : State := { s with cmd := s.cmd.tail, left := s.left - 1 }

/-- Payload beat `b` consumed and kept, when the command is accepted, or discarded (log 7). -/
def State.takeBeat (s : State) (accepted : Bool) (b : Beat) : State :=
  { s.dropBeat with got := if accepted then s.got ++ [b] else s.got }

/-- The kept payload has been used. -/
def State.clearGot (s : State) : State := { s with got := [] }

/-- One sample done: the index moves on, and `ops` draw indices have been given to its operations (log 2). -/
def State.sampleDone (s : State) (ops : Nat) : State := { s with n := s.n + 1, draws := s.draws + ops }

/-- The current command cannot move: it is complete, or waits for a payload beat (R207) or for the host to accept (R206). -/
def State.blocked (s : State) : Bool :=
  match s.phase with
  | .header => true
  | .payload => s.cmd.isEmpty
  | .respond => s.offer.isNone || s.ready.accept.isNone

/-- The moves of the current command, one beat each by `move`, until it is complete or waits for the host; at most `fuel`. -/
def settleFor (move : State → State) : Nat → State → State
  | 0, s => s
  | fuel + 1, s => if s.blocked then s else settleFor move fuel (move s)

/-- Runs the current command as far as the host lets it: each of the `LEFT` payload beats takes at most two transfers (itself
and one response), and one response may be pending before them (R81, R146). -/
def settle (move : State → State) (s : State) : State := settleFor move (2 * s.left + 1) s

/-- One move of an INIT (or of a header whose status follows its payload, R81, R111): the payload beat is consumed, kept when
the command is accepted and discarded when it is not (spec/60_exceptions.md R177); after the last one `finish` answers. -/
def State.payloadFirst (s : State) (accepted : Bool) (finish : State → State) : State :=
  match s.phase with
  | .header => s
  | .respond => s.acceptResponse
  | .payload =>
    match s.cmd with
    | [] => s
    | b :: _ =>
      let t := s.takeBeat accepted b
      if t.left = 0 then finish t else t

/-- One move of a command whose status came first (R81): the response is accepted, or a payload beat is consumed and `consume`
says what it does. -/
def State.statusFirst (s : State) (consume : Beat → State → State) : State :=
  match s.phase with
  | .header => s
  | .respond => s.acceptResponse
  | .payload =>
    match s.cmd with
    | [] => s
    | b :: _ => consume b s.dropBeat

/-- A payload beat of a rejected command is discarded (spec/60_exceptions.md R177). -/
def State.discardBeat (s : State) : State := { s with phase := phaseAfter s.left }

end Sys2Proof.Machine
end

