-- ==== Sys2Proof/Machine/Apply.lean ====
section
/-! DEFINITION. APPLY: the DF2T stage, the cascade and the two APPLY commands (spec/41_apply.md). -/

namespace Sys2Proof.Machine

/-! ### The stage and the cascade -/

/-- `COEF[i]` of a slot; every index the block forms is below 80 (spec/20_memory.md R52). -/
def Slot.coefAt {F : Fmt} (v : Slot F) (i : Nat) : Value F := v.coef.getD i 0#F.width

/-- `STATE[i]` of a slot; every index the block forms is below 32 (spec/20_memory.md R52). -/
def Slot.delayAt {F : Fmt} (v : Slot F) (i : Nat) : Value F := v.delay.getD i 0#F.width

/-- How many arithmetic operations one stage evaluation performs: five `fmul`, four `fadd` (R139); each has its own draw. -/
def stageOps : Nat := 9

/-- One evaluation of stage `s` on input `x`: both delay registers are read before either is written, and the three-term sum
is grouped `(b1*x + a1'*y) + d2` (R139, R140). `d` is the draw index of its first operation. -/
def stage (F : Fmt) (d s : Nat) (v : Slot F) (x : Value F) : Slot F × Value F :=
  let b0 := v.coefAt (5 * s)
  let b1 := v.coefAt (5 * s + 1)
  let b2 := v.coefAt (5 * s + 2)
  let a1n := v.coefAt (5 * s + 3)
  let a2n := v.coefAt (5 * s + 4)
  let d1 := v.delayAt (2 * s)
  let d2 := v.delayAt (2 * s + 1)
  let y := fadd F (d + 1) (fmul F d b0 x) d1
  let d1New := fadd F (d + 5) (fadd F (d + 4) (fmul F (d + 2) b1 x) (fmul F (d + 3) a1n y)) d2
  let d2New := fadd F (d + 8) (fmul F (d + 6) b2 x) (fmul F (d + 7) a2n y)
  ({ v with delay := (v.delay.setIfInBounds (2 * s) d1New).setIfInBounds (2 * s + 1) d2New }, y)

/-- Stages `s, s+1, …`, `k` of them, each fed the output of the one before (R141). -/
def stagesFrom (F : Fmt) : (k d s : Nat) → Slot F → Value F → Slot F × Value F
  | 0, _, _, v, x => (v, x)
  | k + 1, d, s, v, x =>
    let r := stage F d s v x
    stagesFrom F k (d + stageOps) (s + 1) r.1 r.2

/-- One sample through the slot's whole cascade (R141). -/
def cascade (F : Fmt) (d : Nat) (v : Slot F) (x : Value F) : Slot F × Value F := stagesFrom F v.numStages d 0 v x

/-! ### The commands -/

/-- What an APPLY is answered (R143, R144: the handle is checked for `N = 0` too). -/
def applyVerdict (F : Fmt) (handle : Nat) (s : State) : Ecode :=
  if s.validHandle F handle then .ok else .invalidHandle

/-- The status beat of an APPLY (R143, spec/30_encoding.md R82). -/
def applyStatus (F : Fmt) (handle nsamp : Nat) (s : State) : Beat :=
  match applyVerdict F handle s with
  | .ok => statusBeat .ok (bankBit F) nsamp handle 0x2#4
  | e => errorStatus e (bankBit F) 0x2#4

/-- A payload beat of a successful APPLY: the sample runs through the cascade, its output is offered (R143, R146). -/
def applySample (F : Fmt) (handle : Nat) (b : Beat) (s : State) : State :=
  let v := s.slot F handle
  let r := cascade F s.draws v (valueOfBeat F b)
  ((s.setSlot F handle r.1).sampleDone (stageOps * v.numStages)).offerBeat (beatOfValue r.2)

/-- A payload beat of an APPLY: a sample, or a discarded beat when the handle is invalid (R143, spec/60_exceptions.md R177). -/
def applyConsume (F : Fmt) (handle : Nat) (b : Beat) (s : State) : State :=
  match applyVerdict F handle s with
  | .ok => applySample F handle b s
  | _ => s.discardBeat

/-- An APPLY's header has been accepted: the status is offered before any payload beat is consumed (R81, R146). -/
def State.beginApply (s : State) (F : Fmt) (w : Beat) (handle nsamp : Nat) : State :=
  (s.beginCommand w nsamp).offerBeat (applyStatus F handle nsamp s)

/-- `APPLY.F32` once its header is accepted. -/
def startApplyF32 (handle nsamp : Nat) (s : State) : State :=
  s.beginApply .f32 (encode (.applyF32 handle nsamp)) handle nsamp

/-- One move of `APPLY.F32`. -/
def moveApplyF32 (handle : Nat) (s : State) : State := s.statusFirst (applyConsume .f32 handle)

/-- `APPLY.F32` (R143). -/
def execApplyF32 (handle nsamp : Nat) (s : State) : Host.Outcome State Fault Refusal :=
  .next (settle (moveApplyF32 handle) (startApplyF32 handle nsamp s))

/-- `APPLY.F64` once its header is accepted. -/
def startApplyF64 (handle nsamp : Nat) (s : State) : State :=
  s.beginApply .f64 (encode (.applyF64 handle nsamp)) handle nsamp

/-- One move of `APPLY.F64`. -/
def moveApplyF64 (handle : Nat) (s : State) : State := s.statusFirst (applyConsume .f64 handle)

/-- `APPLY.F64` (R143). -/
def execApplyF64 (handle nsamp : Nat) (s : State) : Host.Outcome State Fault Refusal :=
  .next (settle (moveApplyF64 handle) (startApplyF64 handle nsamp s))

end Sys2Proof.Machine
end

