-- ==== Sys2Proof/Machine/Init.lean ====
section
/-! DEFINITION. INIT and INIT.R: the Filter Registry and the Coefficient Loader (spec/40_init.md). -/

namespace Sys2Proof.Machine

/-! ### The Coefficient Loader -/

/-- Stage `i`'s five coefficients from matrix row `i`: `b0, b1, b2` verbatim, `a0` (element `6i+3`) dropped, `a1` and `a2`
negated (R101, R102). -/
def loadRow (F : Fmt) (m : List Beat) (coef : Vector (Value F) 80) (i : Nat) : Vector (Value F) 80 :=
  ((((coef.setIfInBounds (5 * i) (elem F m (6 * i))).setIfInBounds (5 * i + 1) (elem F m (6 * i + 1))).setIfInBounds
    (5 * i + 2) (elem F m (6 * i + 2))).setIfInBounds (5 * i + 3) (fneg F (elem F m (6 * i + 4)))).setIfInBounds
    (5 * i + 4) (fneg F (elem F m (6 * i + 5)))

/-- Rows `0 .. rows-1` loaded in order; entries `5*rows .. 79` keep what they held (R101, R109). -/
def loadRows (F : Fmt) (m : List Beat) : Nat → Vector (Value F) 80 → Vector (Value F) 80
  | 0, coef => coef
  | rows + 1, coef => loadRow F m (loadRows F m rows coef) rows

/-- `LoadSlot`: coefficients transcoded, all 32 delay entries `+0.0`, the stage count set (R101, R109). -/
def loadSlot (F : Fmt) (rows : Nat) (m : List Beat) (old : Slot F) : Slot F :=
  { numStages := rows, coef := loadRows F m rows old.coef, delay := Vector.replicate 32 0#F.width }

/-! ### Validation -/

/-- The shape the block accepts: 6 columns, 1 to 16 rows (spec/60_exceptions.md R173). -/
def shapeOk (rows cols : Nat) : Bool := cols == 6 && 1 ≤ rows && rows ≤ 16

/-- What a fresh INIT is answered: shape before capacity (R104, spec/60_exceptions.md R176). -/
def initFreshVerdict (F : Fmt) (rows cols : Nat) (s : State) : Ecode :=
  if shapeOk rows cols = false then .shapeError
  else if (s.bank F).count = s.maxFilters then .capacityExceeded
  else .ok

/-- What an INIT.R is answered: shape before handle (R105, spec/60_exceptions.md R176). -/
def initReuseVerdict (F : Fmt) (handle rows cols : Nat) (s : State) : Ecode :=
  if shapeOk rows cols = false then .shapeError
  else if s.validHandle F handle = false then .invalidHandle
  else .ok

/-! ### Completion, once the payload has been consumed -/

/-- The fresh INIT's end: the slot of handle `COUNT` loaded, `COUNT` advanced, the handle in the status; or the error (R104, R111). -/
def initFreshFinish (F : Fmt) (rows cols : Nat) (s : State) : State :=
  match initFreshVerdict F rows cols s with
  | .ok =>
    let h := (s.bank F).count
    let t := (s.setSlot F h (loadSlot F rows s.got (s.slot F h))).setCount F (h + 1)
    t.clearGot.offerBeat (statusBeat .ok (bankBit F) 0 h 0x1#4)
  | e => s.offerBeat (errorStatus e (bankBit F) 0x1#4)

/-- The INIT.R's end: the named slot loaded, `COUNT` unchanged; or the error (R105, R111). -/
def initReuseFinish (F : Fmt) (handle rows cols : Nat) (s : State) : State :=
  match initReuseVerdict F handle rows cols s with
  | .ok =>
    let t := s.setSlot F handle (loadSlot F rows s.got (s.slot F handle))
    t.clearGot.offerBeat (statusBeat .ok (bankBit F) 0 handle 0x1#4)
  | e => s.offerBeat (errorStatus e (bankBit F) 0x1#4)

/-- An INIT's header has been accepted; with an empty payload it ends at once (R81, R111). -/
def State.beginInit (s : State) (w : Beat) (len : Nat) (finish : State → State) : State :=
  if len = 0 then finish (s.beginCommand w len) else s.beginCommand w len

/-! ### The four instructions: the start, one move, the meaning -/

/-- `INIT.F32` once its header is accepted. -/
def startInitF32 (rows cols : Nat) (s : State) : State :=
  s.beginInit (encode (.initF32 rows cols)) (rows * cols) (initFreshFinish .f32 rows cols)

/-- One move of `INIT.F32`. -/
def moveInitF32 (rows cols : Nat) (s : State) : State :=
  s.payloadFirst (initFreshVerdict .f32 rows cols s == .ok) (initFreshFinish .f32 rows cols)

/-- `INIT.F32` (R104). -/
def execInitF32 (rows cols : Nat) (s : State) : Host.Outcome State Fault Refusal :=
  .next (settle (moveInitF32 rows cols) (startInitF32 rows cols s))

/-- `INIT.F64` once its header is accepted. -/
def startInitF64 (rows cols : Nat) (s : State) : State :=
  s.beginInit (encode (.initF64 rows cols)) (rows * cols) (initFreshFinish .f64 rows cols)

/-- One move of `INIT.F64`. -/
def moveInitF64 (rows cols : Nat) (s : State) : State :=
  s.payloadFirst (initFreshVerdict .f64 rows cols s == .ok) (initFreshFinish .f64 rows cols)

/-- `INIT.F64` (R104). -/
def execInitF64 (rows cols : Nat) (s : State) : Host.Outcome State Fault Refusal :=
  .next (settle (moveInitF64 rows cols) (startInitF64 rows cols s))

/-- `INIT.F32.R` once its header is accepted. -/
def startInitF32R (handle rows cols : Nat) (s : State) : State :=
  s.beginInit (encode (.initF32R handle rows cols)) (rows * cols) (initReuseFinish .f32 handle rows cols)

/-- One move of `INIT.F32.R`. -/
def moveInitF32R (handle rows cols : Nat) (s : State) : State :=
  s.payloadFirst (initReuseVerdict .f32 handle rows cols s == .ok) (initReuseFinish .f32 handle rows cols)

/-- `INIT.F32.R` (R105). -/
def execInitF32R (handle rows cols : Nat) (s : State) : Host.Outcome State Fault Refusal :=
  .next (settle (moveInitF32R handle rows cols) (startInitF32R handle rows cols s))

/-- `INIT.F64.R` once its header is accepted. -/
def startInitF64R (handle rows cols : Nat) (s : State) : State :=
  s.beginInit (encode (.initF64R handle rows cols)) (rows * cols) (initReuseFinish .f64 handle rows cols)

/-- One move of `INIT.F64.R`. -/
def moveInitF64R (handle rows cols : Nat) (s : State) : State :=
  s.payloadFirst (initReuseVerdict .f64 handle rows cols s == .ok) (initReuseFinish .f64 handle rows cols)

/-- `INIT.F64.R` (R105). -/
def execInitF64R (handle rows cols : Nat) (s : State) : Host.Outcome State Fault Refusal :=
  .next (settle (moveInitF64R handle rows cols) (startInitF64R handle rows cols s))

end Sys2Proof.Machine
end

