-- ==== Sys2Proof/Machine/Dispatch.lean ====
section
/-! DEFINITION. exec: one arm for each command of spec/opcode_table.json. -/

namespace Sys2Proof.Machine

/-- The command `i`, its header already accepted, run as far as the host lets it. -/
def exec (i : Instr) (s : State) : Host.Outcome State Fault Refusal :=
  match i with
  | .initF32 rows cols => Sys2Proof.Machine.execInitF32 rows cols s
  | .initF64 rows cols => Sys2Proof.Machine.execInitF64 rows cols s
  | .initF32R handle rows cols => Sys2Proof.Machine.execInitF32R handle rows cols s
  | .initF64R handle rows cols => Sys2Proof.Machine.execInitF64R handle rows cols s
  | .applyF32 handle nsamp => Sys2Proof.Machine.execApplyF32 handle nsamp s
  | .applyF64 handle nsamp => Sys2Proof.Machine.execApplyF64 handle nsamp s

end Sys2Proof.Machine
end

