-- ==== Sys2Proof/Machine/Illegal.lean ====
section
/-! DEFINITION. A header beat that spells no command: ILLEGAL_COMMAND, its payload discarded (spec/60_exceptions.md R172, R177). -/

namespace Sys2Proof.Machine

/-- The status of an illegal header: it echoes OP and P (R172, R178, spec/30_encoding.md R82). -/
def illegalStatus (w : Beat) : Beat := errorStatus .illegalCommand (pField w) (opField w)

/-- An illegal header has been accepted: with OP `0x2` the status comes first, otherwise after the payload (R81). -/
def startIllegal (w : Beat) (s : State) : State :=
  let t := s.beginCommand w (payloadLen w)
  if opField w = 0x2#4 ∨ payloadLen w = 0 then t.offerBeat (illegalStatus w) else t

/-- One move of an illegal packet: the response is accepted, or a payload beat is discarded (R177). -/
def moveIllegal (w : Beat) (s : State) : State :=
  if opField w = 0x2#4 then s.statusFirst (fun _ t => t.discardBeat)
  else s.payloadFirst false (fun t => t.offerBeat (illegalStatus w))

/-- An illegal packet, run as far as the host lets it. -/
def execIllegal (w : Beat) (s : State) : Host.Outcome State Fault Refusal :=
  .next (settle (moveIllegal w) (startIllegal w s))

end Sys2Proof.Machine
end

