-- ==== Sys2Proof/Machine/Sequencer.lean ====
section
/-! DEFINITION. The command sequencer beat by beat (spec/10_state.md R29, R30): which command is current, and one transfer of it. -/

namespace Sys2Proof.Machine

/-- The state once the header of `i` is accepted. -/
def startCommand (i : Instr) (s : State) : State :=
  match i with
  | .initF32 rows cols => startInitF32 rows cols s
  | .initF64 rows cols => startInitF64 rows cols s
  | .initF32R handle rows cols => startInitF32R handle rows cols s
  | .initF64R handle rows cols => startInitF64R handle rows cols s
  | .applyF32 handle nsamp => startApplyF32 handle nsamp s
  | .applyF64 handle nsamp => startApplyF64 handle nsamp s

/-- One move of the command `i`. -/
def moveCommand (i : Instr) (s : State) : State :=
  match i with
  | .initF32 rows cols => moveInitF32 rows cols s
  | .initF64 rows cols => moveInitF64 rows cols s
  | .initF32R handle rows cols => moveInitF32R handle rows cols s
  | .initF64R handle rows cols => moveInitF64R handle rows cols s
  | .applyF32 handle _ => moveApplyF32 handle s
  | .applyF64 handle _ => moveApplyF64 handle s

/-- The state once header beat `w` is accepted, legal or not. -/
def startHeader (w : Beat) (s : State) : State :=
  match decode w with
  | .ok i => startCommand i s
  | .error _ => startIllegal w s

/-- One move of the packet whose header is in `HDR`. -/
def moveCurrent (s : State) : State :=
  match decode s.hdr with
  | .ok i => moveCommand i s
  | .error _ => moveIllegal s.hdr s

/-- The current packet, run as far as the host lets it. -/
def resumeCurrent (s : State) : State := settle moveCurrent s

/-- The block's finest move: a reset edge, or the transfer of one beat, or, where it waits for the host, nothing. -/
def beat (s : State) : State :=
  if s.rst then s.resetEdge
  else
    match s.phase with
    | .header =>
      match s.cmd with
      | [] => s
      | w :: rest => startHeader w { s with cmd := rest }
    | _ => moveCurrent s

end Sys2Proof.Machine
end

