-- ==== Sys2Proof/Machine/Step.lean ====
section
/-! DEFINITION. step: one command, run as far as the host lets it; and State.withFetchWord. -/

namespace Sys2Proof.Machine

/-- One step. With `rst` high: a reset edge (spec/70_reset_and_hazards.md R200, R201). Between commands: the next header beat
is accepted and its command runs, an illegal one is answered (spec/30_encoding.md R70, R78), and without a beat the block waits
(R202). Inside a command that waited for the host: it goes on. A block that still waits keeps its state (log 6). -/
def step (s : State) : Host.Outcome State Fault Refusal :=
  if s.rst then .next s.resetEdge
  else
    match s.phase with
    | .header =>
      match s.cmd with
      | [] => .next s
      | w :: rest =>
        match decode w with
        | .ok i => exec i { s with cmd := rest }
        | .error _ => execIllegal w { s with cmd := rest }
    | .payload => .next (resumeCurrent s)
    | .respond => .next (resumeCurrent s)

/-- `s` with the host about to send the packet whose header is the table word `w`: the header beat and its payload, all zeros,
at the front of the command stream, the block awaiting a header and `rst` low (log 8). -/
def State.withFetchWord (s : State) (nbits w : Nat) : State :=
  { s with
    rst := false
    phase := .header
    cmd := tableBeat nbits w :: (List.replicate (payloadLen (tableBeat nbits w)) 0#64 ++ s.cmd) }

end Sys2Proof.Machine
end

