-- ==== Sys2Proof/Safety.lean ====
section
/-! DEFINITION. What statements speak of: the commands by bank, verdicts, packet-level filtering, the overflow bound, equality up
to NaN bits, the state a completed command leaves, the invariant. No instruction's meaning uses this file. -/

namespace Sys2Proof.Machine

/-! ### The commands, by bank -/

/-- The fresh INIT of a bank. -/
def freshInit : Fmt → (rows cols : Nat) → Instr
  | .f32, rows, cols => .initF32 rows cols
  | .f64, rows, cols => .initF64 rows cols

/-- The INIT.R of a bank. -/
def reuseInit : Fmt → (handle rows cols : Nat) → Instr
  | .f32, handle, rows, cols => .initF32R handle rows cols
  | .f64, handle, rows, cols => .initF64R handle rows cols

/-- The APPLY of a bank. -/
def applyCmd : Fmt → (handle nsamp : Nat) → Instr
  | .f32, handle, nsamp => .applyF32 handle nsamp
  | .f64, handle, nsamp => .applyF64 handle nsamp

/-- The command is an INIT or an INIT.R. -/
def isInit : Instr → Bool
  | .initF32 _ _ => true
  | .initF64 _ _ => true
  | .initF32R _ _ _ => true
  | .initF64R _ _ _ => true
  | .applyF32 _ _ => false
  | .applyF64 _ _ => false

/-- What the block answers the command in a state (spec/60_exceptions.md R171, R176). -/
def verdict (i : Instr) (s : State) : Ecode :=
  match i with
  | .initF32 rows cols => initFreshVerdict .f32 rows cols s
  | .initF64 rows cols => initFreshVerdict .f64 rows cols s
  | .initF32R handle rows cols => initReuseVerdict .f32 handle rows cols s
  | .initF64R handle rows cols => initReuseVerdict .f64 handle rows cols s
  | .applyF32 handle _ => applyVerdict .f32 handle s
  | .applyF64 handle _ => applyVerdict .f64 handle s

/-! ### Filtering at the packet level -/

/-- A sequence of samples through a slot, in order (spec/41_apply.md R142): the slot afterwards and the outputs. -/
def filterSamples (F : Fmt) : (d : Nat) → Slot F → List (Value F) → Slot F × List (Value F)
  | _, v, [] => (v, [])
  | d, v, x :: xs =>
    let r := cascade F d v x
    let rest := filterSamples F (d + stageOps * v.numStages) r.1 xs
    (rest.1, r.2 :: rest.2)

/-! ### Rounding -/

/-- Half a unit in the last place past the largest finite value, in units of the smallest subnormal: an exact result of this
magnitude or more rounds to an infinity (roundTiesToEven; spec/41_apply.md R131, R136). -/
def overflowUnits (F : Fmt) : Nat := (2 ^ (fracBits F + 2) - 1) * 2 ^ (2 ^ expBits F - 4)

/-! ### Equality up to which NaN (spec/41_apply.md R134, R150) -/

/-- The same value, or both NaN. -/
def sameValue {F : Fmt} (a b : Value F) : Prop := a = b ∨ (isNaN a = true ∧ isNaN b = true)

/-- Two sequences of the same length, value by value the same up to which NaN. -/
def sameValues {F : Fmt} : List (Value F) → List (Value F) → Prop := List.Forall₂ sameValue

/-- Two slots with the same stage count and coefficients, and the same delay values up to which NaN. -/
def sameSlot {F : Fmt} (v w : Slot F) : Prop :=
  v.numStages = w.numStages ∧ v.coef = w.coef ∧ ∀ i, i < 32 → sameValue (v.delayAt i) (w.delayAt i)

/-! ### A completed command -/

/-- `s` once the command with header `w` has completed in it: the sequencer awaits a header, `n` stands at `n`, the stream goes on
with `rest`, and the host has the responses `out` as well. -/
def State.completed (s : State) (w : Beat) (n : Nat) (rest out : List Beat) : State :=
  { s with
    hdr := w, left := 0, n := n, got := [], offer := none, phase := .header, cmd := rest, rsp := s.rsp ++ out }

/-! ### The invariant -/

/-- What holds of a bank in every reachable state (spec/10_state.md R22, R27). -/
structure BankInv {F : Fmt} (maxFilters : Nat) (b : Bank F) : Prop where
  /-- `COUNT[p] ≤ MAX_FILTERS` (R22). -/
  count_le : b.count ≤ maxFilters
  /-- The slot file is in its canonical form. -/
  wf : slotsWf b.slots = true
  /-- R27, 1: an allocated slot has 1 to 16 stages. -/
  allocated : ∀ h, h < b.count → 1 ≤ (slotRead b.slots h).numStages ∧ (slotRead b.slots h).numStages ≤ 16
  /-- R27, 2: a slot not allocated holds its reset values. -/
  unallocated : ∀ h, b.count ≤ h → slotRead b.slots h = Slot.zero F
  /-- R27, 3: delay entries past the live ones are `+0.0`. -/
  unused_delay : ∀ h i, 2 * (slotRead b.slots h).numStages ≤ i → (slotRead b.slots h).delayAt i = 0#F.width

/-- What holds of the machine in every reachable state: both banks, the parameter's range (spec/00_scope.md R4), and the sequencer
(spec/10_state.md R29). -/
structure State.Inv (s : State) : Prop where
  max_pos : 1 ≤ s.maxFilters
  max_le : s.maxFilters ≤ 65536
  f32 : BankInv s.maxFilters s.f32
  f64 : BankInv s.maxFilters s.f64
  /-- Between commands nothing is left to consume or to send (spec/20_memory.md R59). -/
  header : s.phase = .header → s.left = 0 ∧ s.offer = none
  /-- A payload beat is awaited only while some are left and no response is pending (spec/41_apply.md R146). -/
  payload : s.phase = .payload → 0 < s.left ∧ s.offer = none
  /-- In RESPOND a response beat is offered. -/
  respond : s.phase = .respond → s.offer.isSome = true
  /-- `n` and `LEFT` stay in the ranges of R29. -/
  window : s.n + s.left ≤ 2 ^ 24 - 1
  /-- Only an APPLY sends before its payload is consumed (spec/30_encoding.md R81). -/
  status_last : s.phase = .respond → opField s.hdr ≠ 0x2#4 → s.left = 0
  /-- While an accepted INIT streams in, what has been consumed and what is left make up its payload. -/
  kept : s.phase = .payload → ∀ i, decode s.hdr = .ok i → isInit i = true → verdict i s = .ok →
    s.got.length + s.left = i.payloadBeats
  /-- While an accepted APPLY runs, `n` samples have been consumed and `LEFT` are to come. -/
  position : s.phase ≠ .header → ∀ i, decode s.hdr = .ok i → isInit i = false → verdict i s = .ok →
    s.n + s.left = i.payloadBeats

end Sys2Proof.Machine
end

