-- ==== Sys2Proof/Certificates/Slice0/Obligations.lean ====
section
/-! DEFINITION. The statements for the provers, one `def Obligations.<Name> : Prop` each; OBLIGATIONS.json lists them. A statement
about a bank's command says it for both banks: `freshInit F`, `reuseInit F` and `applyCmd F` are the constructors of bank `F`. -/

open Sys2Proof Sys2Proof.Machine

/-! ## Encoding -/

/-- Decoding the header beat of a well-formed command gives the command back, whatever its operands
(spec/30_encoding.md R72, R77, R78). -/
def Obligations.DecodeOfEncode : Prop :=
  ∀ i : Instr, i.wellFormed = true → decode (encode i) = .ok i

/-- A header beat that decodes has one reading: the command it gives is well-formed, its header is that beat, and its payload is
what R71 says of the beat (spec/30_encoding.md R71, R77, R78). -/
def Obligations.EncodeOfDecode : Prop :=
  ∀ (w : Beat) (i : Instr), decode w = .ok i →
    i.wellFormed = true ∧ encode i = w ∧ payloadLen w = i.payloadBeats

/-- No two rows of the decode table match the same beat (spec/30_encoding.md R78). -/
def Obligations.DecodeRowsDisjoint : Prop :=
  opTable.Pairwise fun a b => ∀ w : Beat, ¬(a.hits w = true ∧ b.hits w = true)

/-- The header beats of spec/30_encoding.md section 8 and spec/95_test_vectors.md section 2.1 decode to the commands they spell. -/
def Obligations.WorkedHeadersDecode : Prop :=
  decode 0x0000000000060101#64 = .ok (.initF32 1 6) ∧
  decode 0x0000000000060111#64 = .ok (.initF64 1 6) ∧
  decode 0x0000000000060121#64 = .ok (.initF32R 0 1 6) ∧
  decode 0x0000000500060231#64 = .ok (.initF64R 5 2 6) ∧
  decode 0x0000000100000402#64 = .ok (.applyF32 1 4) ∧
  decode 0x0000000000000312#64 = .ok (.applyF64 0 3)

/-- The headers that spell no command are exactly those R172 lists (spec/60_exceptions.md R172, spec/30_encoding.md R73, R76). -/
def Obligations.IllegalHeadersExactly : Prop :=
  ∀ w : Beat, (∃ e, decode w = .error e) ↔
    (opField w ≠ 0x1#4 ∧ opField w ≠ 0x2#4) ∨
    (opField w = 0x1#4 ∧ (z0Field w ≠ 0#2 ∨ z1Field w ≠ 0#8 ∨ z2Field w ≠ 0#16 ∨
      (ruField w = 0#1 ∧ handleField w ≠ 0))) ∨
    (opField w = 0x2#4 ∧ (ruField w ≠ 0#1 ∨ z0Field w ≠ 0#2 ∨ z2Field w ≠ 0#16))

/-- A status beat's fields read back (spec/30_encoding.md R82, R83). -/
def Obligations.StatusBeatFields : Prop :=
  ∀ (e : Ecode) (pe : BitVec 1) (nout handle : Nat) (ope : BitVec 4), nout < 2 ^ 24 → handle < 2 ^ 16 →
    let b := statusBeat e pe nout handle ope
    b.extractLsb' 0 4 = ecodeBits e ∧ b.extractLsb' 4 1 = pe ∧ b.extractLsb' 5 3 = 0#3 ∧
    (b.extractLsb' 8 24).toNat = nout ∧ (b.extractLsb' 32 16).toNat = handle ∧
    b.extractLsb' 48 4 = ope ∧ b.extractLsb' 52 12 = 0#12

/-- Where a beat is 8 bytes, byte `k` holds bits `[8k+7:8k]`, and the 8 bytes give the beat back (spec/20_memory.md R55). -/
def Obligations.BytesLittleEndian : Prop :=
  (∀ w : Beat, (bytesOfBeat w).length = 8 ∧
    ∀ k i, k < 8 → i < 8 → ((bytesOfBeat w).getD k 0#8).getLsbD i = w.getLsbD (8 * k + i)) ∧
  ∀ b0 b1 b2 b3 b4 b5 b6 b7 : Byte,
    bytesOfBeat (beatOfBytes b0 b1 b2 b3 b4 b5 b6 b7) = [b0, b1, b2, b3, b4, b5, b6, b7]

/-- A binary32 value is `beat[31:0]`, the upper half ignored on input and 0 on output; a binary64 value is the whole beat
(spec/20_memory.md R54). -/
def Obligations.ValuesInBeats : Prop :=
  (∀ (b : Beat) (i : Nat), i < 32 → (valueOfBeat .f32 b).getLsbD i = b.getLsbD i) ∧
  (∀ v : Value .f32, valueOfBeat .f32 (beatOfValue v) = v ∧ (beatOfValue v).extractLsb' 32 32 = 0#32) ∧
  (∀ b : Beat, valueOfBeat .f64 b = b) ∧ (∀ v : Value .f64, beatOfValue v = v)

/-! ## Stepping and reset -/

/-- Awaiting a header, `step` runs the decoded command: it takes the header beat off the command stream and is `exec` from there
(spec/10_state.md R30, spec/30_encoding.md R70, R78). That one step runs a command as far as the host lets it is the model's choice
(log 6); `exec` starts once the header beat is accepted. -/
def Obligations.StepRunsDecodedCommand : Prop :=
  ∀ (s : State) (w : Beat) (rest : List Beat) (i : Instr), s.rst = false → s.phase = .header → s.cmd = w :: rest →
    decode w = .ok i → step s = exec i { s with cmd := rest }

/-- After reset the block waits for a header beat: nothing happens until the host offers one (spec/70_reset_and_hazards.md R202).
That the host offers nothing yet is the model's choice (log 12), and so is that a waiting block's step changes nothing (log 6). -/
def Obligations.ResetWaitsForHeader : Prop :=
  step State.reset = .next State.reset ∧ State.reset.cmdReady = true ∧ State.reset.rspValid = false

/-- What reset leaves (spec/70_reset_and_hazards.md R200): in both banks COUNT 0 and in every slot no stages and `+0.0` in every
COEF and STATE entry; PHASE, LEFT and n are HEADER, 0 and 0. -/
def Obligations.ResetValues : Prop :=
  ∀ F : Fmt, (State.reset.bank F).count = 0 ∧
    (∀ h, (State.reset.slot F h).numStages = 0 ∧ (∀ i, (State.reset.slot F h).coefAt i = 0#F.width) ∧
      ∀ i, (State.reset.slot F h).delayAt i = 0#F.width) ∧
    State.reset.phase = .header ∧ State.reset.left = 0 ∧ State.reset.n = 0

/-- A clock edge with `rst` high, at any moment, also inside a command: every element takes its reset value, ready and valid are
low, no beat is transferred in either direction, the beat it was offering is gone, and the block is then ready for a header
(spec/70_reset_and_hazards.md R200, R201); MAX_FILTERS, a parameter, keeps its value (spec/00_scope.md R4). The model's choice: that
`rst` is low again after one edge (log 5), and that MAX_FILTERS is a field of the state (log 1). -/
def Obligations.ResetEdgeAbandonsCommand : Prop :=
  ∀ s : State, s.rst = true → s.cmdReady = false ∧ s.rspValid = false ∧
    ∃ t, step s = .next t ∧
      (∀ F : Fmt, (t.bank F).count = 0 ∧ ∀ h, t.slot F h = Slot.zero F) ∧
      t.phase = .header ∧ t.left = 0 ∧ t.n = 0 ∧ t.offer = none ∧ t.maxFilters = s.maxFilters ∧
      t.cmd = s.cmd ∧ t.rsp = s.rsp ∧ t.rst = false ∧ t.cmdReady = true ∧ t.rspValid = false

/-- An illegal header, its payload offered whole and the host accepting: the payload is discarded, one status beat with
ILLEGAL_COMMAND, NOUT and HANDLE 0 and the echoed OP and P is sent, and neither bank changes; of the sequencer, HDR holds the
illegal header, LEFT and `n` are 0 and it awaits the next header (spec/60_exceptions.md R172, R177, R178, spec/10_state.md R29).
That an illegal header sets HDR and LEFT as a legal one does is read from R29 and R71 by inference (log 17). The model's choice: the
host's side of the streams (log 5), that one step runs the whole packet (log 6), `got` empty (log 7), `n` 0 after it (log 13). -/
def Obligations.IllegalPacketRejected : Prop :=
  ∀ (s : State) (w : Beat) (pay rest : List Beat) (e : Reject), s.rst = false → s.phase = .header → s.ready = .always →
    s.cmd = w :: (pay ++ rest) → decode w = .error e → pay.length = payloadLen w →
    step s = .next (s.completed w 0 rest [statusBeat .illegalCommand (pField w) 0 0 (opField w)])

/-- A rejected packet leaves no trace: after an illegal packet the next command runs exactly as if the illegal one had not been
sent, but for the response it got (spec/60_exceptions.md R179). The host's side of the streams is the model's choice (log 5). -/
def Obligations.NextCommandUnaffected : Prop :=
  ∀ (s t : State) (w w' : Beat) (pay rest : List Beat) (e : Reject) (i : Instr), s.rst = false → s.phase = .header →
    s.ready = .always → s.cmd = w :: (pay ++ w' :: rest) → decode w = .error e → pay.length = payloadLen w →
    decode w' = .ok i → step s = .next t →
    step t = exec i { s with cmd := rest, rsp := s.rsp ++ [statusBeat .illegalCommand (pField w) 0 0 (opField w)] }

/-! ## INIT -/

/-- A fresh INIT whose payload is offered whole, to a host that accepts: SHAPE_ERROR unless the matrix is `1..16` by 6;
CAPACITY_EXCEEDED when no handle is left; otherwise the slot of handle COUNT is loaded, COUNT advances by 1 and the status
carries the handle. On an error nothing is written and the payload is discarded (spec/40_init.md R104, R111). The model's choice:
the host's side of the streams (log 5), `got` empty (log 7), `n` 0 after it (log 13). -/
def Obligations.FreshInitEffect : Prop :=
  ∀ (F : Fmt) (rows cols : Nat) (s : State) (pay rest : List Beat), s.ready = .always → s.cmd = pay ++ rest →
    pay.length = rows * cols →
    exec (freshInit F rows cols) s = .next
      (let w := encode (freshInit F rows cols)
       let h := (s.bank F).count
       if cols ≠ 6 ∨ rows < 1 ∨ 16 < rows then
         s.completed w 0 rest [statusBeat .shapeError (bankBit F) 0 0 0x1#4]
       else if h = s.maxFilters then
         s.completed w 0 rest [statusBeat .capacityExceeded (bankBit F) 0 0 0x1#4]
       else
         ((s.setSlot F h (loadSlot F rows pay (s.slot F h))).setCount F (h + 1)).completed w 0 rest
           [statusBeat .ok (bankBit F) 0 h 0x1#4])

/-- An INIT.R whose payload is offered whole, to a host that accepts: SHAPE_ERROR unless the matrix is `1..16` by 6;
INVALID_HANDLE when the handle is not below COUNT; otherwise the named slot is loaded, COUNT stays and the status carries the
handle. On an error nothing is written and the payload is discarded (spec/40_init.md R105, R111). The model's choice: the host's
side of the streams (log 5), `got` empty (log 7), `n` 0 after it (log 13). -/
def Obligations.ReuseInitEffect : Prop :=
  ∀ (F : Fmt) (h rows cols : Nat) (s : State) (pay rest : List Beat), s.ready = .always → s.cmd = pay ++ rest →
    pay.length = rows * cols →
    exec (reuseInit F h rows cols) s = .next
      (let w := encode (reuseInit F h rows cols)
       if cols ≠ 6 ∨ rows < 1 ∨ 16 < rows then
         s.completed w 0 rest [statusBeat .shapeError (bankBit F) 0 0 0x1#4]
       else if (s.bank F).count ≤ h then
         s.completed w 0 rest [statusBeat .invalidHandle (bankBit F) 0 0 0x1#4]
       else
         (s.setSlot F h (loadSlot F rows pay (s.slot F h))).completed w 0 rest
           [statusBeat .ok (bankBit F) 0 h 0x1#4])

/-- What the Coefficient Loader writes: row `i`'s `b0, b1, b2` verbatim and `a1, a2` negated into entries `5i .. 5i+4`; entries
past the last row keep their values; every delay entry is `+0.0`; NUM_STAGES is the row count (spec/40_init.md R101, R109). -/
def Obligations.LoadSlotContents : Prop :=
  ∀ (F : Fmt) (rows : Nat) (m : List Beat) (old : Slot F), rows ≤ 16 →
    let v := loadSlot F rows m old
    (∀ i, i < rows →
      v.coefAt (5 * i) = elem F m (6 * i) ∧ v.coefAt (5 * i + 1) = elem F m (6 * i + 1) ∧
      v.coefAt (5 * i + 2) = elem F m (6 * i + 2) ∧ v.coefAt (5 * i + 3) = fneg F (elem F m (6 * i + 4)) ∧
      v.coefAt (5 * i + 4) = fneg F (elem F m (6 * i + 5))) ∧
    (∀ j, 5 * rows ≤ j → v.coefAt j = old.coefAt j) ∧
    (∀ j, v.delayAt j = 0#F.width) ∧ v.numStages = rows

/-- Column 3, `a0`, has no effect: two matrices that differ only there load the same slot (spec/40_init.md R102). -/
def Obligations.LeadingCoefficientIgnored : Prop :=
  ∀ (F : Fmt) (rows : Nat) (m m' : List Beat) (old : Slot F),
    (∀ k, k % 6 ≠ 3 → elem F m k = elem F m' k) → loadSlot F rows m old = loadSlot F rows m' old

/-- Fresh handles are handed out in increasing order with no gaps: `k` fresh INITs of one bank in a row, of any accepted shapes,
while handles last, are answered OK with the handles COUNT, COUNT+1, … and leave COUNT advanced by `k` (spec/40_init.md R106). -/
def Obligations.FreshHandlesInOrder : Prop :=
  ∀ (F : Fmt) (packets : List (Nat × List Beat)) (s : State) (rest : List Beat), s.rst = false → s.phase = .header →
    s.ready = .always →
    (∀ p ∈ packets, 1 ≤ p.1 ∧ p.1 ≤ 16 ∧ p.2.length = 6 * p.1) →
    s.cmd = packets.flatMap (fun p => encode (freshInit F p.1 6) :: p.2) ++ rest →
    (s.bank F).count + packets.length ≤ s.maxFilters →
    ∃ t, Host.Core.run Sys2Proof.core packets.length s = .next t ∧
      (State.bank t F).count = (s.bank F).count + packets.length ∧ State.cmd t = rest ∧
      State.rsp t = s.rsp ++
        (List.range packets.length).map fun j => statusBeat .ok (bankBit F) 0 ((s.bank F).count + j) 0x1#4

/-- Repeating an INIT.R packet ends in the same slots: the second of two identical ones changes nothing in the banks
(spec/20_memory.md R58). -/
def Obligations.ReuseInitIdempotent : Prop :=
  ∀ (F : Fmt) (h rows cols : Nat) (s t u : State) (pay rest : List Beat), s.Inv → s.ready = .always →
    s.cmd = pay ++ rest → pay.length = rows * cols →
    exec (reuseInit F h rows cols) s = .next t →
    exec (reuseInit F h rows cols) { t with cmd := pay ++ rest } = .next u →
    u.f32 = t.f32 ∧ u.f64 = t.f64

/-- The frame of a fresh INIT, whatever the host offers and accepts: the other bank, every slot but the one of handle COUNT, the
capacity, the draw counter and `rst` are unchanged; COUNT is unchanged or advanced by 1; COEF entries past the matrix keep their
values; accepted responses are only added to and the command stream only consumed from the front
(spec/40_init.md R109, spec/20_memory.md R61). -/
def Obligations.FreshInitFrame : Prop :=
  ∀ (F : Fmt) (rows cols : Nat) (s t : State), s.Inv → exec (freshInit F rows cols) s = .next t →
    (∀ G, G ≠ F → t.bank G = s.bank G) ∧
    (∀ h, h ≠ (s.bank F).count → t.slot F h = s.slot F h) ∧
    (∀ j, 5 * rows ≤ j → (t.slot F (s.bank F).count).coefAt j = (s.slot F (s.bank F).count).coefAt j) ∧
    ((t.bank F).count = (s.bank F).count ∨ (t.bank F).count = (s.bank F).count + 1) ∧
    t.maxFilters = s.maxFilters ∧ t.draws = s.draws ∧ t.rst = s.rst ∧ s.rsp <+: t.rsp ∧ t.cmd <:+ s.cmd

/-- The frame of an INIT.R, whatever the host offers and accepts: as for a fresh INIT, but the slot it may write is the named one
and COUNT never changes (spec/40_init.md R109, spec/20_memory.md R61). -/
def Obligations.ReuseInitFrame : Prop :=
  ∀ (F : Fmt) (h rows cols : Nat) (s t : State), s.Inv → exec (reuseInit F h rows cols) s = .next t →
    (∀ G, G ≠ F → t.bank G = s.bank G) ∧
    (∀ k, k ≠ h → t.slot F k = s.slot F k) ∧
    (∀ j, 5 * rows ≤ j → (t.slot F h).coefAt j = (s.slot F h).coefAt j) ∧
    (t.bank F).count = (s.bank F).count ∧
    t.maxFilters = s.maxFilters ∧ t.draws = s.draws ∧ t.rst = s.rst ∧ s.rsp <+: t.rsp ∧ t.cmd <:+ s.cmd

/-! ## APPLY -/

/-- An APPLY whose payload is offered whole, to a host that accepts: INVALID_HANDLE with nothing written and the payload
discarded when the handle is not below COUNT; otherwise one status beat with NOUT = NSAMP and then one output beat a sample, the
slot left as filtering the samples in order leaves it (spec/41_apply.md R143). The model's choice: the draw indices of NaN results
(log 2), the host's side of the streams (log 5), `got` empty (log 7), `n` after it (log 13). -/
def Obligations.ApplyEffect : Prop :=
  ∀ (F : Fmt) (h nsamp : Nat) (s : State) (pay rest : List Beat), slotsWf (s.bank F).slots = true → s.ready = .always →
    s.cmd = pay ++ rest → pay.length = nsamp →
    exec (applyCmd F h nsamp) s = .next
      (let w := encode (applyCmd F h nsamp)
       if (s.bank F).count ≤ h then
         s.completed w 0 rest [statusBeat .invalidHandle (bankBit F) 0 0 0x2#4]
       else
         let r := filterSamples F s.draws (s.slot F h) (pay.map (valueOfBeat F))
         { s.setSlot F h r.1 with draws := s.draws + stageOps * (s.slot F h).numStages * nsamp }.completed w nsamp rest
           (statusBeat .ok (bankBit F) nsamp h 0x2#4 :: r.2.map beatOfValue))

/-- An APPLY of no samples, to a host that accepts: OK with NOUT = 0 on a valid handle, INVALID_HANDLE on an invalid one; no
output beat, nothing consumed from the stream, and neither bank changes (spec/41_apply.md R144). -/
def Obligations.EmptyApply : Prop :=
  ∀ (F : Fmt) (h : Nat) (s : State), s.ready = .always →
    ∃ t, exec (applyCmd F h 0) s = .next t ∧ t.f32 = s.f32 ∧ t.f64 = s.f64 ∧ t.phase = .header ∧ t.cmd = s.cmd ∧
      t.rsp = s.rsp ++ [if h < (s.bank F).count then statusBeat .ok (bankBit F) 0 h 0x2#4
        else statusBeat .invalidHandle (bankBit F) 0 0 0x2#4]

/-- The frame of an APPLY, whatever the host offers and accepts: the other bank, every other slot, COUNT, and of its own slot
NUM_STAGES, COEF and the delay entries past the live ones are unchanged; so are the capacity and `rst`
(spec/20_memory.md R61, spec/10_state.md R33). -/
def Obligations.ApplyFrame : Prop :=
  ∀ (F : Fmt) (h nsamp : Nat) (s t : State), s.Inv → exec (applyCmd F h nsamp) s = .next t →
    (∀ G, G ≠ F → t.bank G = s.bank G) ∧
    (∀ k, k ≠ h → t.slot F k = s.slot F k) ∧
    (t.bank F).count = (s.bank F).count ∧
    (t.slot F h).numStages = (s.slot F h).numStages ∧ (t.slot F h).coef = (s.slot F h).coef ∧
    (∀ j, 2 * (s.slot F h).numStages ≤ j → (t.slot F h).delayAt j = (s.slot F h).delayAt j) ∧
    t.maxFilters = s.maxFilters ∧ t.rst = s.rst ∧ s.rsp <+: t.rsp ∧ t.cmd <:+ s.cmd

/-- The beats of a successful APPLY alternate: a host that accepts only `k` responses gets the status and the first `k - 1`
outputs; the block has then consumed `k` samples and no more, and offers the next response until it is accepted; it waits there,
stuck and not faulted (spec/41_apply.md R146, spec/70_reset_and_hazards.md R206). The host's readiness as a count is the model's
choice (log 5), and so is that a stuck block's step changes nothing (log 6). -/
def Obligations.ApplyAlternatesBeats : Prop :=
  ∀ (F : Fmt) (h k : Nat) (s : State) (pay rest : List Beat), slotsWf (s.bank F).slots = true → h < (s.bank F).count →
    s.ready = .atMost k → s.cmd = pay ++ rest → k ≤ pay.length →
    let r := filterSamples F s.draws (s.slot F h) (pay.map (valueOfBeat F))
    let beats := statusBeat .ok (bankBit F) pay.length h 0x2#4 :: r.2.map beatOfValue
    ∃ t, exec (applyCmd F h pay.length) s = .next t ∧ t.phase = .respond ∧ t.rsp = s.rsp ++ beats.take k ∧
      t.offer = beats[k]? ∧ t.cmd = pay.drop k ++ rest ∧ t.left = pay.length - k ∧ t.n = k ∧
      (s.rst = false → step t = .next t)

/-- The order of status and payload of a decoded command. With a host that accepts no response, an APPLY, accepted or rejected,
offers its status and consumes no payload beat, and an INIT consumes its whole payload before it offers its status. An INIT that
lacks a payload beat has sent and offers no response, whatever the host accepts (spec/30_encoding.md R81,
spec/70_reset_and_hazards.md R206). Illegal headers: IllegalStatusOrder. The host's readiness as a count is the model's choice
(log 5). -/
def Obligations.StatusOrder : Prop :=
  (∀ (F : Fmt) (h nsamp : Nat) (s : State), s.ready = .atMost 0 →
    ∃ t, exec (applyCmd F h nsamp) s = .next t ∧ t.phase = .respond ∧ t.cmd = s.cmd ∧ t.left = nsamp ∧
      t.rsp = s.rsp ∧ t.offer = some (if h < (s.bank F).count then statusBeat .ok (bankBit F) nsamp h 0x2#4
        else statusBeat .invalidHandle (bankBit F) 0 0 0x2#4)) ∧
  (∀ (i : Instr) (s : State) (pay rest : List Beat), isInit i = true → s.ready = .atMost 0 → s.cmd = pay ++ rest →
    pay.length = i.payloadBeats →
    ∃ t b, exec i s = .next t ∧ t.phase = .respond ∧ t.cmd = rest ∧ t.left = 0 ∧ t.rsp = s.rsp ∧ t.offer = some b) ∧
  ∀ (i : Instr) (s : State), isInit i = true → s.cmd.length < i.payloadBeats →
    ∃ t, exec i s = .next t ∧ t.phase = .payload ∧ t.cmd = [] ∧ t.rsp = s.rsp ∧ t.offer = none

/-- The order of status and payload of an illegal packet. With a host that accepts no response, a header with OP `0x2` has its
status offered before any payload beat is consumed, and one with OP `0x1` or a reserved OP after its whole payload is consumed. One
of the latter that lacks a payload beat has sent and offers no response, whatever the host accepts (spec/30_encoding.md R81,
spec/60_exceptions.md R177, spec/70_reset_and_hazards.md R206). The host's side of the streams is the model's choice (log 5), and
that an illegal header sets LEFT is read from spec/10_state.md R29 by inference (log 17). -/
def Obligations.IllegalStatusOrder : Prop :=
  ∀ (s : State) (w : Beat) (pay rest : List Beat) (e : Reject), s.rst = false → s.phase = .header →
    s.cmd = w :: (pay ++ rest) → decode w = .error e → ∃ t, step s = .next t ∧
      (s.ready = .atMost 0 → opField w = 0x2#4 → t.phase = .respond ∧ t.cmd = pay ++ rest ∧ t.left = payloadLen w ∧
        t.rsp = s.rsp ∧ t.offer = some (statusBeat .illegalCommand (pField w) 0 0 0x2#4)) ∧
      (s.ready = .atMost 0 → opField w ≠ 0x2#4 → pay.length = payloadLen w → t.phase = .respond ∧ t.cmd = rest ∧
        t.left = 0 ∧ t.rsp = s.rsp ∧ t.offer = some (statusBeat .illegalCommand (pField w) 0 0 (opField w))) ∧
      (opField w ≠ 0x2#4 → rest = [] → pay.length < payloadLen w → t.phase = .payload ∧ t.cmd = [] ∧
        t.rsp = s.rsp ∧ t.offer = none)

/-- A host that sends fewer payload beats than a command's header implies: the block consumes them all, waits for the rest, and a
step changes nothing until it comes: stuck, not an error (spec/70_reset_and_hazards.md R207). Illegal headers:
IllegalShortPayloadWaits. That a stuck block's step changes nothing is the model's choice (log 6). -/
def Obligations.ShortPayloadWaits : Prop :=
  ∀ (i : Instr) (s : State), s.ready = .always → s.cmd.length < i.payloadBeats →
    ∃ t, exec i s = .next t ∧ t.phase = .payload ∧ t.cmd = [] ∧ t.offer = none ∧
      t.left = i.payloadBeats - s.cmd.length ∧ (s.rst = false → step t = .next t)

/-- The same of an illegal packet, whose payload length is R71's: the block discards the beats it gets, waits for the rest, and a
step changes nothing until it comes (spec/70_reset_and_hazards.md R207, spec/60_exceptions.md R177). That a stuck block's step
changes nothing is the model's choice (log 6); that an illegal header sets LEFT is read from spec/10_state.md R29 by inference
(log 17). -/
def Obligations.IllegalShortPayloadWaits : Prop :=
  ∀ (s : State) (w : Beat) (pay : List Beat) (e : Reject), s.rst = false → s.phase = .header → s.ready = .always →
    s.cmd = w :: pay → decode w = .error e → pay.length < payloadLen w →
    ∃ t, step s = .next t ∧ t.phase = .payload ∧ t.cmd = [] ∧ t.offer = none ∧ t.left = payloadLen w - pay.length ∧
      step t = .next t

/-- A payload that comes in two pieces: the step that gets the second piece ends as the command would have ended with the whole
of it (spec/00_scope.md R8, spec/10_state.md R29, R30). What a step is, is the model's choice (log 6). -/
def Obligations.PayloadInPieces : Prop :=
  ∀ (i : Instr) (s t : State) (more : List Beat), i.wellFormed = true → s.rst = false → exec i s = .next t →
    t.phase = .payload → step { t with cmd := more } = exec i { s with cmd := s.cmd ++ more }

/-- The same of an illegal packet: the step that gets the second piece of its payload ends as the packet would have ended with the
whole of it (spec/30_encoding.md R71, spec/60_exceptions.md R177). What a step is, is the model's choice (log 6). -/
def Obligations.IllegalPayloadInPieces : Prop :=
  ∀ (s t : State) (w : Beat) (pay more : List Beat) (e : Reject), s.rst = false → s.phase = .header → s.cmd = w :: pay →
    decode w = .error e → step s = .next t → t.phase = .payload →
    step { t with cmd := more } = step { s with cmd := s.cmd ++ more }

/-- Continuation: one APPLY of `xs ++ ys` and an APPLY of `xs` followed by one of `ys`, from the same banks but any draw
counters, give the same outputs and leave the same slot, up to which NaN (spec/41_apply.md R145). -/
def Obligations.ApplyContinues : Prop :=
  ∀ (F : Fmt) (h d : Nat) (s : State) (xs ys rest : List Beat), slotsWf (s.bank F).slots = true → h < (s.bank F).count →
    s.ready = .always → s.cmd = xs ++ ys ++ rest →
    ∃ (t u1 u2 : State) (outs outs1 outs2 : List (Value F)),
      exec (applyCmd F h (xs ++ ys).length) s = .next t ∧
      exec (applyCmd F h xs.length) { s with draws := d } = .next u1 ∧
      exec (applyCmd F h ys.length) u1 = .next u2 ∧
      t.rsp = s.rsp ++ statusBeat .ok (bankBit F) (xs ++ ys).length h 0x2#4 :: outs.map beatOfValue ∧
      u1.rsp = s.rsp ++ statusBeat .ok (bankBit F) xs.length h 0x2#4 :: outs1.map beatOfValue ∧
      u2.rsp = u1.rsp ++ statusBeat .ok (bankBit F) ys.length h 0x2#4 :: outs2.map beatOfValue ∧
      sameValues outs (outs1 ++ outs2) ∧ sameSlot (t.slot F h) (u2.slot F h)

/-- Determinism: two APPLYs to slots with equal contents, on equal inputs, whatever the handles, the states and the draw
counters, give the same outputs and leave the same slot contents, up to which NaN (spec/41_apply.md R150). -/
def Obligations.ApplyDeterministic : Prop :=
  ∀ (F : Fmt) (h h' : Nat) (s s' : State) (pay rest rest' : List Beat),
    slotsWf (s.bank F).slots = true → slotsWf (s'.bank F).slots = true →
    h < (s.bank F).count → h' < (s'.bank F).count → s.ready = .always → s'.ready = .always →
    s.cmd = pay ++ rest → s'.cmd = pay ++ rest' → s.slot F h = s'.slot F h' →
    ∃ (t t' : State) (outs outs' : List (Value F)),
      exec (applyCmd F h pay.length) s = .next t ∧ exec (applyCmd F h' pay.length) s' = .next t' ∧
      t.rsp = s.rsp ++ statusBeat .ok (bankBit F) pay.length h 0x2#4 :: outs.map beatOfValue ∧
      t'.rsp = s'.rsp ++ statusBeat .ok (bankBit F) pay.length h' 0x2#4 :: outs'.map beatOfValue ∧
      sameValues outs outs' ∧ sameSlot (t.slot F h) (t'.slot F h')

/-- Output `n` depends only on the slot and the inputs up to `n`: the outputs of a shorter input sequence are the first outputs
of any longer one that begins with it (spec/41_apply.md R146). -/
def Obligations.OutputsAreCausal : Prop :=
  ∀ (F : Fmt) (d d' : Nat) (v : Slot F) (xs ys : List (Value F)),
    sameValues ((filterSamples F d v (xs ++ ys)).2.take xs.length) (filterSamples F d' v xs).2

/-- After a successful INIT with finite coefficients, an APPLY of `+0.0` samples returns only zeros (spec/40_init.md R112). -/
def Obligations.ZeroInputGivesZeros : Prop :=
  ∀ (F : Fmt) (h rows nsamp : Nat) (m : List Beat) (old : Slot F) (s : State) (rest : List Beat),
    slotsWf (s.bank F).slots = true → h < (s.bank F).count → s.ready = .always → rows ≤ 16 →
    s.slot F h = loadSlot F rows m old → (∀ j, j < 5 * rows → isFinite ((s.slot F h).coefAt j) = true) →
    s.cmd = List.replicate nsamp 0#64 ++ rest →
    ∃ (t : State) (outs : List (Value F)), exec (applyCmd F h nsamp) s = .next t ∧ outs.length = nsamp ∧
      t.rsp = s.rsp ++ statusBeat .ok (bankBit F) nsamp h 0x2#4 :: outs.map beatOfValue ∧
      ∀ y ∈ outs, isZero y = true

/-- A NaN in a live `d1` poisons the slot: every output is a NaN, and the delay register stays one, until the slot is
initialised again (spec/41_apply.md R143, corner cases). -/
def Obligations.NanPersists : Prop :=
  ∀ (F : Fmt) (d k : Nat) (v : Slot F) (xs : List (Value F)), k < v.numStages → v.numStages ≤ 16 →
    isNaN (v.delayAt (2 * k)) = true →
    (∀ y ∈ (filterSamples F d v xs).2, isNaN y = true) ∧ isNaN ((filterSamples F d v xs).1.delayAt (2 * k)) = true

/-! ## The stage and the cascade -/

/-- One stage evaluation is the recursion of R139, both new delay values computed from the old ones (R140); every other entry of
the slot is unchanged. The draw indices matter only where a result is a NaN (spec/41_apply.md R139, R140). -/
def Obligations.StageRecursion : Prop :=
  ∀ (F : Fmt) (d s : Nat) (v : Slot F) (x : Value F), s < 16 →
    ∃ d1 d2 d3 d4 d5 d6 d7 d8 d9 : Nat,
      let y := fadd F d2 (fmul F d1 (v.coefAt (5 * s)) x) (v.delayAt (2 * s))
      let r := stage F d s v x
      r.2 = y ∧
      r.1.delayAt (2 * s) =
        fadd F d6 (fadd F d5 (fmul F d3 (v.coefAt (5 * s + 1)) x) (fmul F d4 (v.coefAt (5 * s + 3)) y))
          (v.delayAt (2 * s + 1)) ∧
      r.1.delayAt (2 * s + 1) =
        fadd F d9 (fmul F d7 (v.coefAt (5 * s + 2)) x) (fmul F d8 (v.coefAt (5 * s + 4)) y) ∧
      (∀ j, j ≠ 2 * s → j ≠ 2 * s + 1 → r.1.delayAt j = v.delayAt j) ∧
      r.1.coef = v.coef ∧ r.1.numStages = v.numStages

/-- The stages run in order, each on the output of the one before, and the last stage's output is the sample's output: no stage
passes the sample on, a cascade of `k + 1` stages is one of `k` stages followed by stage `k`, and a sample runs through as many
as the slot has. The draw indices matter only where a result is a NaN (spec/41_apply.md R141). -/
def Obligations.CascadeChainsStages : Prop :=
  ∀ (F : Fmt) (d : Nat) (v : Slot F) (x : Value F),
    stagesFrom F 0 d 0 v x = (v, x) ∧
    (∀ k, ∃ d', stagesFrom F (k + 1) d 0 v x =
      stage F d' k (stagesFrom F k d 0 v x).1 (stagesFrom F k d 0 v x).2) ∧
    cascade F d v x = stagesFrom F v.numStages d 0 v x

/-! ## Datapath arithmetic -/

/-- `fmul` of finite operands is the exact product rounded once, to nearest, ties to even; past the range it is the infinity of
the product's sign (spec/41_apply.md R131, R135, R136). Values are whole numbers of `2^-unitExp`, products of its square. -/
def Obligations.MulRoundsToNearestEven : Prop :=
  ∀ (F : Fmt) (d : Nat) (a b : Value F), isFinite a = true → isFinite b = true →
    let r := fmul F d a b
    let exact := intOf a * intOf b
    let one : Int := 2 ^ unitExp F
    signOf r = (signOf a != signOf b) ∧
    ((overflowUnits F : Int) * one ≤ |exact| → isInf r = true) ∧
    (|exact| < (overflowUnits F : Int) * one → isFinite r = true ∧
      ∀ c : Value F, isFinite c = true →
        |intOf r * one - exact| ≤ |intOf c * one - exact| ∧
        (|intOf r * one - exact| = |intOf c * one - exact| → intOf c ≠ intOf r → magOf r % 2 = 0))

/-- `fadd` of finite operands is the exact sum rounded once, to nearest, ties to even; past the range it is the infinity of the
sum's sign (spec/41_apply.md R132, R135, R136). -/
def Obligations.AddRoundsToNearestEven : Prop :=
  ∀ (F : Fmt) (d : Nat) (a b : Value F), isFinite a = true → isFinite b = true →
    let r := fadd F d a b
    let exact := intOf a + intOf b
    (exact ≠ 0 → signOf r = decide (exact < 0)) ∧
    ((overflowUnits F : Int) ≤ |exact| → isInf r = true) ∧
    (|exact| < (overflowUnits F : Int) → isFinite r = true ∧
      ∀ c : Value F, isFinite c = true →
        |intOf r - exact| ≤ |intOf c - exact| ∧
        (|intOf r - exact| = |intOf c - exact| → intOf c ≠ intOf r → magOf r % 2 = 0))

/-- The special cases of `fmul`, row by row of R133's table (spec/41_apply.md R133). -/
def Obligations.MulSpecialCases : Prop :=
  ∀ (F : Fmt) (d : Nat) (a b : Value F),
    (isNaN a = true ∨ isNaN b = true → isNaN (fmul F d a b) = true) ∧
    (isInf a = true → isZero b = true → isNaN (fmul F d a b) = true) ∧
    (isZero a = true → isInf b = true → isNaN (fmul F d a b) = true) ∧
    (isNaN (fmul F d a b) = false → signOf (fmul F d a b) = (signOf a != signOf b)) ∧
    (isInf a = true → isNaN b = false → isZero b = false → isInf (fmul F d a b) = true) ∧
    (isNaN a = false → isZero a = false → isInf b = true → isInf (fmul F d a b) = true) ∧
    (isZero a = true → isFinite b = true → isZero (fmul F d a b) = true)

/-- The special cases of `fadd`, row by row of R133's table (spec/41_apply.md R133). -/
def Obligations.AddSpecialCases : Prop :=
  ∀ (F : Fmt) (d : Nat) (a b : Value F),
    (isNaN a = true ∨ isNaN b = true → isNaN (fadd F d a b) = true) ∧
    (isInf a = true → isInf b = true → signOf a ≠ signOf b → isNaN (fadd F d a b) = true) ∧
    (isInf a = true → isNaN b = false → (isInf b = true → signOf a = signOf b) → fadd F d a b = a) ∧
    (isInf b = true → isNaN a = false → (isInf a = true → signOf a = signOf b) → fadd F d a b = b) ∧
    (isZero a = true → isNaN b = false → isZero b = false → fadd F d a b = b) ∧
    (isZero b = true → isNaN a = false → isZero a = false → fadd F d a b = a) ∧
    (isFinite a = true → isZero a = false → fadd F d a (fneg F a) = pack F false 0) ∧
    (isZero a = true → isZero b = true → fadd F d a b = pack F (signOf a && signOf b) 0)

/-- Every NaN that `fmul` or `fadd` returns is quiet, a signalling operand's too; which one, nothing says
(spec/41_apply.md R134). -/
def Obligations.NanResultsAreQuiet : Prop :=
  ∀ (F : Fmt) (d : Nat) (a b : Value F),
    (isNaN (fmul F d a b) = true → isQuietNaN (fmul F d a b) = true) ∧
    (isNaN (fadd F d a b) = true → isQuietNaN (fadd F d a b) = true)

/-- The order of the operands of one `fmul` or `fadd` is immaterial: whichever draws the two calls take, they return the same
value, or both a NaN (spec/41_apply.md R132; which NaN is free, R134, log 2). -/
def Obligations.OperandsCommute : Prop :=
  ∀ (F : Fmt) (d d' : Nat) (a b : Value F),
    sameValue (fmul F d a b) (fmul F d' b a) ∧ sameValue (fadd F d a b) (fadd F d' b a)

/-- `fneg` inverts the sign bit and leaves every other bit, for every value; it makes no NaN of a number and no number of a NaN
(spec/41_apply.md R138). -/
def Obligations.NegFlipsSignBit : Prop :=
  ∀ (F : Fmt) (a : Value F), signOf (fneg F a) = !signOf a ∧ magOf (fneg F a) = magOf a ∧
    (∀ i, i < F.width - 1 → (fneg F a).getLsbD i = a.getLsbD i) ∧ isNaN (fneg F a) = isNaN a

/-! ## The whole machine -/

/-- The invariant holds at reset, for every capacity in range and for the implementation's own (spec/70_reset_and_hazards.md R200,
spec/10_state.md R27). The capacity in `State.reset` is opaque (log 1); `got` and the canonical slot files are the model's (log 7,
log 16). -/
def Obligations.ResetHasInvariant : Prop :=
  State.reset.Inv ∧ ∀ m, 1 ≤ m → m ≤ 65536 → (State.resetOf m).Inv

/-- Every step keeps the invariant (spec/10_state.md R22, R27, R29; spec/20_memory.md R52): COUNT never passes MAX_FILTERS,
allocated slots have 1 to 16 stages, unallocated slots and unused delay entries hold `+0.0`, the slot files are canonical and the
sequencer's PHASE, LEFT and n are consistent. `got` and the canonical slot files are the model's own (log 7, log 16). -/
def Obligations.StepKeepsInvariant : Prop :=
  ∀ s t : State, s.Inv → step s = .next t → t.Inv

/-- In every step MAX_FILTERS keeps its value, at a reset edge too (spec/00_scope.md R4; that it is a field of the state which no step
changes is the model's choice, log 1). In every step but a reset edge, each bank's COUNT stays or rises by 1
(spec/10_state.md R22, spec/40_init.md R108). -/
def Obligations.CountNeverDecreases : Prop :=
  ∀ (s t : State) (F : Fmt), step s = .next t →
    t.maxFilters = s.maxFilters ∧
    (s.rst = false → (t.bank F).count = (s.bank F).count ∨ (t.bank F).count = (s.bank F).count + 1)

/-- The banks do not interact: a command of one bank does the same whatever the other bank holds, and leaves the other bank as
it is (spec/10_state.md R20, spec/20_memory.md R60). -/
def Obligations.BanksIndependent : Prop :=
  ∀ (i : Instr) (G : Fmt) (b : Bank G) (s t : State), G ≠ i.bank → exec i s = .next t →
    exec i (s.setBank G b) = .next (t.setBank G b) ∧ t.bank G = s.bank G

/-- A rejected command writes no state of either bank, whatever the host offers and accepts while it is answered
(spec/60_exceptions.md R177). Illegal headers, and packets that go on after a wait: RejectedPacketWritesNothing. -/
def Obligations.RejectedCommandWritesNothing : Prop :=
  ∀ (i : Instr) (s t : State), verdict i s ≠ .ok → exec i s = .next t →
    t.f32 = s.f32 ∧ t.f64 = s.f64 ∧ t.draws = s.draws ∧ t.maxFilters = s.maxFilters

/-- The same step by step, illegal headers included: a step that accepts an illegal header, and a step that goes on with an illegal
packet or a rejected command after a wait, writes no state of either bank, whatever the host offers and accepts
(spec/60_exceptions.md R177, R172). Which packet goes on is read from HDR (log 17); what a step is, is the model's choice (log 6). -/
def Obligations.RejectedPacketWritesNothing : Prop :=
  ∀ s t : State, s.rst = false → step s = .next t →
    ((∃ w rest e, s.phase = .header ∧ s.cmd = w :: rest ∧ decode w = .error e) ∨
      (s.phase ≠ .header ∧ ∃ e, decode s.hdr = .error e) ∨
      (s.phase ≠ .header ∧ ∃ i, decode s.hdr = .ok i ∧ verdict i s ≠ .ok)) →
    t.f32 = s.f32 ∧ t.f64 = s.f64 ∧ t.draws = s.draws ∧ t.maxFilters = s.maxFilters

/-- A step is a number of single-beat moves of the sequencer: running a command to its end or to where it waits for the host is
nothing but its transfers, one after the other (spec/10_state.md R29, R30). What a step is, is the model's choice (log 6). -/
def Obligations.StepIsSingleBeats : Prop :=
  ∀ s : State, ∃ k : Nat, step s = .next (beat^[k] s)

/-- The block never stops of its own accord: a step ends with the command complete or waiting for a payload beat or for the host
to accept a response, and never in a fault or a refusal (spec/70_reset_and_hazards.md R211, spec/60_exceptions.md R170). What a step
is, is the model's choice (log 6). -/
def Obligations.StepStopsOnlyForHost : Prop :=
  ∀ s : State, s.Inv → ∃ t, step s = .next t ∧ t.blocked = true
end

