-- ==== Sys2Proof/Laws/Arith.lean ====
section
/-! SUPPORT. The parts of an encoding: what `pack` puts together, `signOf` and `magOf` take apart. -/

namespace Sys2Proof.Machine

@[simp] theorem pow2_eq (n : Nat) : pow2 n = 2 ^ n := by simp [pow2, Nat.shiftLeft_eq]

theorem pow2_pos (n : Nat) : 0 < pow2 n := by simp

/-- The sign bit is worth half the encoding's range. -/
theorem two_mul_signWeight (F : Fmt) : 2 * signWeight F = 2 ^ F.width := by
  cases F <;> simp [signWeight, expBits, fracBits, Fmt.width]

theorem signWeight_pos (F : Fmt) : 0 < signWeight F := pow2_pos _

theorem infMag_lt (F : Fmt) : infMag F + pow2 (fracBits F) = signWeight F := by
  cases F <;> simp [infMag, signWeight, expBits, fracBits]

theorem magOf_lt {F : Fmt} (v : Value F) : magOf v < signWeight F := Nat.mod_lt _ (signWeight_pos F)

/-- An encoding is its sign and its magnitude field. -/
theorem toNat_eq {F : Fmt} (v : Value F) : v.toNat = (if signOf v then signWeight F else 0) + magOf v := by
  have h := two_mul_signWeight F
  have hlt := v.isLt
  simp only [signOf, magOf, BitVec.msb_eq_decide]
  have hw : 2 ^ (F.width - 1) = signWeight F := by
    cases F <;> simp [signWeight, expBits, fracBits, Fmt.width]
  rw [hw]
  have hpos := signWeight_pos F
  by_cases hs : signWeight F ≤ v.toNat
  · simp only [hs, decide_true, if_true]
    rw [Nat.mod_eq_sub_mod hs, Nat.mod_eq_of_lt (by omega)]
    omega
  · simp only [hs, decide_false, Bool.false_eq_true, if_false]
    rw [Nat.mod_eq_of_lt (by omega)]
    omega

theorem toNat_pack {F : Fmt} (sign : Bool) {mag : Nat} (h : mag < signWeight F) :
    (pack F sign mag).toNat = (if sign then signWeight F else 0) + mag := by
  have h2 := two_mul_signWeight F
  simp only [pack, BitVec.toNat_ofNat]
  apply Nat.mod_eq_of_lt
  split <;> omega

theorem signOf_pack {F : Fmt} (sign : Bool) {mag : Nat} (h : mag < signWeight F) : signOf (pack F sign mag) = sign := by
  have h2 := two_mul_signWeight F
  have hw : 2 ^ (F.width - 1) = signWeight F := by
    cases F <;> simp [signWeight, expBits, fracBits, Fmt.width]
  simp only [signOf, BitVec.msb_eq_decide, hw, toNat_pack sign h]
  cases sign
  · simp; omega
  · simp

theorem magOf_pack {F : Fmt} (sign : Bool) {mag : Nat} (h : mag < signWeight F) : magOf (pack F sign mag) = mag := by
  simp only [magOf, toNat_pack sign h]
  cases sign <;> simp [Nat.mod_eq_of_lt h]

theorem pack_signOf_magOf {F : Fmt} (v : Value F) : pack F (signOf v) (magOf v) = v := by
  apply BitVec.eq_of_toNat_eq
  rw [toNat_pack _ (magOf_lt v), toNat_eq v]

/-- Two encodings with the same sign and magnitude field are the same. -/
theorem value_ext {F : Fmt} {v w : Value F} (hs : signOf v = signOf w) (hm : magOf v = magOf w) : v = w := by
  rw [← pack_signOf_magOf v, ← pack_signOf_magOf w, hs, hm]

/-- A magnitude field lies in one of the three kinds: finite, infinite, NaN. -/
theorem isNaN_eq_false_iff {F : Fmt} (v : Value F) : isNaN v = false ↔ isFinite v = true ∨ isInf v = true := by
  simp only [isNaN, isFinite, isInf, decide_eq_false_iff_not, decide_eq_true_eq, beq_iff_eq]
  omega

theorem roundMag_le (F : Fmt) (m k : Nat) : roundMag F m k ≤ infMag F := by
  unfold roundMag
  split
  · exact Nat.zero_le _
  · exact Nat.min_le_left _ _

theorem infMag_lt_signWeight (F : Fmt) : infMag F < signWeight F := by
  have := infMag_lt F; have := pow2_pos (fracBits F); omega

/-- The magnitude field of a drawn NaN: past the infinity, its quiet bit set. -/
theorem quietMag_lt (F : Fmt) (d : Nat) :
    infMag F + pow2 (fracBits F - 1) + (Config.nanPayload d).toNat % pow2 (fracBits F - 1) < signWeight F := by
  have h := infMag_lt F
  have hp : (Config.nanPayload d).toNat % pow2 (fracBits F - 1) < pow2 (fracBits F - 1) := Nat.mod_lt _ (pow2_pos _)
  have hd : pow2 (fracBits F - 1) + pow2 (fracBits F - 1) = pow2 (fracBits F) := by cases F <;> simp [fracBits]
  omega

/-- Whatever the draw, it is a quiet NaN. -/
theorem isQuietNaN_quietNaN (F : Fmt) (d : Nat) : isQuietNaN (quietNaN F d) = true := by
  simp only [isQuietNaN, quietNaN, magOf_pack _ (quietMag_lt F d), decide_eq_true_eq]
  omega

theorem isNaN_of_isQuietNaN {F : Fmt} {v : Value F} (h : isQuietNaN v = true) : isNaN v = true := by
  have := pow2_pos (fracBits F - 1)
  simp only [isQuietNaN, isNaN, decide_eq_true_eq] at *
  omega

@[simp] theorem isNaN_quietNaN (F : Fmt) (d : Nat) : isNaN (quietNaN F d) = true :=
  isNaN_of_isQuietNaN (isQuietNaN_quietNaN F d)

/-- A number that `roundMag` gave is no NaN. -/
theorem isNaN_pack_roundMag (F : Fmt) (sign : Bool) (m k : Nat) : isNaN (pack F sign (roundMag F m k)) = false := by
  have h := roundMag_le F m k
  have h2 := infMag_lt_signWeight F
  simp only [isNaN, magOf_pack sign (by omega : roundMag F m k < signWeight F), decide_eq_false_iff_not]
  omega

end Sys2Proof.Machine
end

