-- ==== Sys2Proof/Laws/Encoding.lean ====
section
/-! SUPPORT. Header beats field by field: what each row of the decode table asks of the fields, and the fields of an encoded header. -/

namespace Sys2Proof

/-- Two appended words are equal when their parts are. -/
theorem append_eq_append_iff {n m : Nat} (x x' : BitVec n) (y y' : BitVec m) : x ++ y = x' ++ y' ↔ x = x' ∧ y = y' := by
  constructor
  · intro h
    constructor
    · have := congrArg (fun v => v.extractLsb' m n) h
      simpa [BitVec.extractLsb'_append_eq_left] using this
    · have := congrArg (fun v => v.extractLsb' 0 m) h
      simpa [BitVec.extractLsb'_append_eq_right] using this
  · rintro ⟨rfl, rfl⟩; rfl

/-- The parts of a format I header, pairwise. -/
theorem nine_append_iff (a a' b b' : BitVec 16) (c c' d d' e e' : BitVec 8) (f f' : BitVec 2) (g g' h h' : BitVec 1)
    (i i' : BitVec 4) :
    (a ++ b ++ c ++ d ++ e ++ f ++ g ++ h ++ i = a' ++ b' ++ c' ++ d' ++ e' ++ f' ++ g' ++ h' ++ i') ↔
      a = a' ∧ b = b' ∧ c = c' ∧ d = d' ∧ e = e' ∧ f = f' ∧ g = g' ∧ h = h' ∧ i = i' := by
  simp only [append_eq_append_iff, and_assoc]

/-- The parts of a format A header, pairwise. -/
theorem seven_append_iff (a a' b b' : BitVec 16) (c c' : BitVec 24) (f f' : BitVec 2) (g g' h h' : BitVec 1)
    (i i' : BitVec 4) :
    (a ++ b ++ c ++ f ++ g ++ h ++ i = a' ++ b' ++ c' ++ f' ++ g' ++ h' ++ i') ↔
      a = a' ∧ b = b' ∧ c = c' ∧ f = f' ∧ g = g' ∧ h = h' ∧ i = i' := by
  simp only [append_eq_append_iff, and_assoc]

/-- A header beat is its fields (spec/30_encoding.md R72). -/
theorem beat_fields (w : Beat) :
    w = z2Field w ++ w.extractLsb' 32 16 ++ z1Field w ++ w.extractLsb' 16 8 ++ w.extractLsb' 8 8 ++ z0Field w ++
      ruField w ++ pField w ++ opField w := by
  apply BitVec.eq_of_getLsbD_eq
  intro i hi
  simp only [z2Field, z1Field, z0Field, ruField, pField, opField, BitVec.getLsbD_append, BitVec.getLsbD_extractLsb']
  interval_cases i <;> simp

/-- The fields of a format I header (R72). -/
theorem initHeader_fields {w : Beat} {p ru : BitVec 1} {handle rows cols : Nat} (hw : w = initHeader p ru handle rows cols) :
    opField w = 0x1#4 ∧ pField w = p ∧ ruField w = ru ∧ z0Field w = 0#2 ∧ z1Field w = 0#8 ∧ z2Field w = 0#16 ∧
      w.extractLsb' 8 8 = BitVec.ofNat 8 rows ∧ w.extractLsb' 16 8 = BitVec.ofNat 8 cols ∧
      w.extractLsb' 32 16 = BitVec.ofNat 16 handle := by
  have h := hw.symm.trans (beat_fields w)
  obtain ⟨h1, h2, h3, h4, h5, h6, h7, h8, h9⟩ := (nine_append_iff _ _ _ _ _ _ _ _ _ _ _ _ _ _ _ _ _ _).1 h
  exact ⟨h9.symm, h8.symm, h7.symm, h6.symm, h3.symm, h1.symm, h5.symm, h4.symm, h2.symm⟩

/-- NSAMP is the three bytes that format I calls Z1, COLS and ROWS (R72). -/
theorem nsamp_bytes (w : Beat) : w.extractLsb' 8 24 = z1Field w ++ w.extractLsb' 16 8 ++ w.extractLsb' 8 8 := by
  apply BitVec.eq_of_getLsbD_eq
  intro i hi
  simp only [z1Field, BitVec.getLsbD_append, BitVec.getLsbD_extractLsb']
  interval_cases i <;> simp

/-- The fields of a format A header (R72). -/
theorem applyHeader_fields {w : Beat} {p : BitVec 1} {handle nsamp : Nat} (hw : w = applyHeader p handle nsamp) :
    opField w = 0x2#4 ∧ pField w = p ∧ ruField w = 0#1 ∧ z0Field w = 0#2 ∧ z2Field w = 0#16 ∧
      w.extractLsb' 8 24 = BitVec.ofNat 24 nsamp ∧ w.extractLsb' 32 16 = BitVec.ofNat 16 handle := by
  have h : applyHeader p handle nsamp =
      z2Field w ++ w.extractLsb' 32 16 ++ w.extractLsb' 8 24 ++ z0Field w ++ ruField w ++ pField w ++ opField w := by
    rw [← hw]
    apply BitVec.eq_of_getLsbD_eq
    intro i hi
    simp only [z2Field, z0Field, ruField, pField, opField, BitVec.getLsbD_append, BitVec.getLsbD_extractLsb']
    interval_cases i <;> simp
  obtain ⟨h1, h2, h3, h4, h5, h6, h7⟩ := (seven_append_iff _ _ _ _ _ _ _ _ _ _ _ _ _ _).1 h
  exact ⟨h7.symm, h6.symm, h5.symm, h4.symm, h1.symm, h3.symm, h2.symm⟩

/-- The beat's bits under a mask, field by field. -/
theorem and_mask_eq_iff (w : Beat) (z2 m2 : BitVec 16) (hd mh : BitVec 16) (z1 m1 : BitVec 8) (c mc r mr : BitVec 8)
    (z0 m0 : BitVec 2) (ru mu p mp : BitVec 1) (op mo : BitVec 4) :
    w &&& (m2 ++ mh ++ m1 ++ mc ++ mr ++ m0 ++ mu ++ mp ++ mo) = z2 ++ hd ++ z1 ++ c ++ r ++ z0 ++ ru ++ p ++ op ↔
      z2Field w &&& m2 = z2 ∧ w.extractLsb' 32 16 &&& mh = hd ∧ z1Field w &&& m1 = z1 ∧ w.extractLsb' 16 8 &&& mc = c ∧
      w.extractLsb' 8 8 &&& mr = r ∧ z0Field w &&& m0 = z0 ∧ ruField w &&& mu = ru ∧ pField w &&& mp = p ∧
      opField w &&& mo = op := by
  have h : w &&& (m2 ++ mh ++ m1 ++ mc ++ mr ++ m0 ++ mu ++ mp ++ mo) =
      (z2Field w &&& m2) ++ (w.extractLsb' 32 16 &&& mh) ++ (z1Field w &&& m1) ++ (w.extractLsb' 16 8 &&& mc) ++
        (w.extractLsb' 8 8 &&& mr) ++ (z0Field w &&& m0) ++ (ruField w &&& mu) ++ (pField w &&& mp) ++
        (opField w &&& mo) := by
    apply BitVec.eq_of_getLsbD_eq
    intro i hi
    simp only [z2Field, z1Field, z0Field, ruField, pField, opField, BitVec.getLsbD_append, BitVec.getLsbD_and,
      BitVec.getLsbD_extractLsb']
    interval_cases i <;> simp
  rw [h]
  exact nine_append_iff _ _ _ _ _ _ _ _ _ _ _ _ _ _ _ _ _ _

/-- A row that fixes every field but ROWS and COLS: the fresh INITs (R78). -/
theorem hits_fresh_iff (w : Beat) (p : BitVec 1) (pat : Beat)
    (hp : pat = 0#16 ++ 0#16 ++ 0#8 ++ 0#8 ++ 0#8 ++ 0#2 ++ 0#1 ++ p ++ 0x1#4) :
    (w &&& 0xFFFFFFFFFF0000FF#64 == pat) = true ↔
      opField w = 0x1#4 ∧ pField w = p ∧ ruField w = 0#1 ∧ z0Field w = 0#2 ∧ z1Field w = 0#8 ∧
        w.extractLsb' 32 16 = 0#16 ∧ z2Field w = 0#16 := by
  have hm : (0xFFFFFFFFFF0000FF#64 : Beat) =
      0xFFFF#16 ++ 0xFFFF#16 ++ 0xFF#8 ++ 0#8 ++ 0#8 ++ 3#2 ++ 1#1 ++ 1#1 ++ 0xF#4 := by decide
  rw [beq_iff_eq, hm, hp, and_mask_eq_iff]
  simp only [show (0xFFFF#16 : BitVec 16) = BitVec.allOnes 16 from rfl, show (0xFF#8 : BitVec 8) = BitVec.allOnes 8 from rfl,
    show (3#2 : BitVec 2) = BitVec.allOnes 2 from rfl, show (1#1 : BitVec 1) = BitVec.allOnes 1 from rfl,
    show (0xF#4 : BitVec 4) = BitVec.allOnes 4 from rfl, BitVec.and_allOnes, BitVec.and_zero, true_and]
  tauto

/-- A row that leaves HANDLE, ROWS and COLS open: the INIT.Rs (R78). -/
theorem hits_reuse_iff (w : Beat) (p : BitVec 1) (pat : Beat)
    (hp : pat = 0#16 ++ 0#16 ++ 0#8 ++ 0#8 ++ 0#8 ++ 0#2 ++ 1#1 ++ p ++ 0x1#4) :
    (w &&& 0xFFFF0000FF0000FF#64 == pat) = true ↔
      opField w = 0x1#4 ∧ pField w = p ∧ ruField w = 1#1 ∧ z0Field w = 0#2 ∧ z1Field w = 0#8 ∧ z2Field w = 0#16 := by
  have hm : (0xFFFF0000FF0000FF#64 : Beat) =
      0xFFFF#16 ++ 0#16 ++ 0xFF#8 ++ 0#8 ++ 0#8 ++ 3#2 ++ 1#1 ++ 1#1 ++ 0xF#4 := by decide
  rw [beq_iff_eq, hm, hp, and_mask_eq_iff]
  simp only [show (0xFFFF#16 : BitVec 16) = BitVec.allOnes 16 from rfl, show (0xFF#8 : BitVec 8) = BitVec.allOnes 8 from rfl,
    show (3#2 : BitVec 2) = BitVec.allOnes 2 from rfl, show (1#1 : BitVec 1) = BitVec.allOnes 1 from rfl,
    show (0xF#4 : BitVec 4) = BitVec.allOnes 4 from rfl, BitVec.and_allOnes, BitVec.and_zero, true_and]
  tauto

/-- A row that leaves HANDLE and NSAMP open: the APPLYs (R78). -/
theorem hits_apply_iff (w : Beat) (p : BitVec 1) (pat : Beat)
    (hp : pat = 0#16 ++ 0#16 ++ 0#8 ++ 0#8 ++ 0#8 ++ 0#2 ++ 0#1 ++ p ++ 0x2#4) :
    (w &&& 0xFFFF0000000000FF#64 == pat) = true ↔
      opField w = 0x2#4 ∧ pField w = p ∧ ruField w = 0#1 ∧ z0Field w = 0#2 ∧ z2Field w = 0#16 := by
  have hm : (0xFFFF0000000000FF#64 : Beat) =
      0xFFFF#16 ++ 0#16 ++ 0#8 ++ 0#8 ++ 0#8 ++ 3#2 ++ 1#1 ++ 1#1 ++ 0xF#4 := by decide
  rw [beq_iff_eq, hm, hp, and_mask_eq_iff]
  simp only [show (0xFFFF#16 : BitVec 16) = BitVec.allOnes 16 from rfl,
    show (3#2 : BitVec 2) = BitVec.allOnes 2 from rfl, show (1#1 : BitVec 1) = BitVec.allOnes 1 from rfl,
    show (0xF#4 : BitVec 4) = BitVec.allOnes 4 from rfl, BitVec.and_allOnes, BitVec.and_zero, true_and]
  tauto

/-- The rows of the decode table in terms of the fields, in the table's order (R78). -/
theorem decode_eq (w : Beat) :
    decode w =
      if opField w = 0x1#4 ∧ pField w = 0#1 ∧ ruField w = 0#1 ∧ z0Field w = 0#2 ∧ z1Field w = 0#8 ∧
          w.extractLsb' 32 16 = 0#16 ∧ z2Field w = 0#16 then .ok (.initF32 (rowsField w) (colsField w))
      else if opField w = 0x1#4 ∧ pField w = 1#1 ∧ ruField w = 0#1 ∧ z0Field w = 0#2 ∧ z1Field w = 0#8 ∧
          w.extractLsb' 32 16 = 0#16 ∧ z2Field w = 0#16 then .ok (.initF64 (rowsField w) (colsField w))
      else if opField w = 0x1#4 ∧ pField w = 0#1 ∧ ruField w = 1#1 ∧ z0Field w = 0#2 ∧ z1Field w = 0#8 ∧
          z2Field w = 0#16 then .ok (.initF32R (handleField w) (rowsField w) (colsField w))
      else if opField w = 0x1#4 ∧ pField w = 1#1 ∧ ruField w = 1#1 ∧ z0Field w = 0#2 ∧ z1Field w = 0#8 ∧
          z2Field w = 0#16 then .ok (.initF64R (handleField w) (rowsField w) (colsField w))
      else if opField w = 0x2#4 ∧ pField w = 0#1 ∧ ruField w = 0#1 ∧ z0Field w = 0#2 ∧ z2Field w = 0#16 then
        .ok (.applyF32 (handleField w) (nsampField w))
      else if opField w = 0x2#4 ∧ pField w = 1#1 ∧ ruField w = 0#1 ∧ z0Field w = 0#2 ∧ z2Field w = 0#16 then
        .ok (.applyF64 (handleField w) (nsampField w))
      else .error (rejectReason w) := by
  have h1 := hits_fresh_iff w 0#1 0x0000000000000001#64 (by decide)
  have h2 := hits_fresh_iff w 1#1 0x0000000000000011#64 (by decide)
  have h3 := hits_reuse_iff w 0#1 0x0000000000000021#64 (by decide)
  have h4 := hits_reuse_iff w 1#1 0x0000000000000031#64 (by decide)
  have h5 := hits_apply_iff w 0#1 0x0000000000000002#64 (by decide)
  have h6 := hits_apply_iff w 1#1 0x0000000000000012#64 (by decide)
  simp only [← h1, ← h2, ← h3, ← h4, ← h5, ← h6]
  simp only [decode, opTable, List.find?, OpRow.hits]
  cases g1 : (w &&& 0xFFFFFFFFFF0000FF#64 == 0x0000000000000001#64)
  · cases g2 : (w &&& 0xFFFFFFFFFF0000FF#64 == 0x0000000000000011#64)
    · cases g3 : (w &&& 0xFFFF0000FF0000FF#64 == 0x0000000000000021#64)
      · cases g4 : (w &&& 0xFFFF0000FF0000FF#64 == 0x0000000000000031#64)
        · cases g5 : (w &&& 0xFFFF0000000000FF#64 == 0x0000000000000002#64)
          · cases g6 : (w &&& 0xFFFF0000000000FF#64 == 0x0000000000000012#64)
            · simp
            · simp
          · simp
        · simp
      · simp
    · simp
  · simp

end Sys2Proof
end

