-- ==== Sys2Proof/Laws/State.lean ====
section
/-! SUPPORT. What each state update leaves in each field, one lemma a field, so that no proof unfolds a record update. -/

namespace Sys2Proof.Machine

/-! ### Banks -/

@[simp] theorem State.bank_f32 (s : State) : s.bank .f32 = s.f32 := rfl
@[simp] theorem State.bank_f64 (s : State) : s.bank .f64 = s.f64 := rfl
@[simp] theorem State.setBank_f32 (s : State) (b : Bank .f32) : s.setBank .f32 b = { s with f32 := b } := rfl
@[simp] theorem State.setBank_f64 (s : State) (b : Bank .f64) : s.setBank .f64 b = { s with f64 := b } := rfl

@[simp] theorem State.bank_setBank_same (s : State) (F : Fmt) (b : Bank F) : (s.setBank F b).bank F = b := by
  cases F <;> rfl

theorem State.bank_setBank_other (s : State) {F G : Fmt} (b : Bank F) (h : G ≠ F) : (s.setBank F b).bank G = s.bank G := by
  cases F <;> cases G <;> first | rfl | exact absurd rfl h

@[simp] theorem State.setBank_bank (s : State) (F : Fmt) : s.setBank F (s.bank F) = s := by
  cases F <;> rfl

@[simp] theorem State.setBank_setBank (s : State) (F : Fmt) (b c : Bank F) : (s.setBank F b).setBank F c = s.setBank F c := by
  cases F <;> rfl

@[simp] theorem State.setBank_maxFilters (s : State) (F : Fmt) (b : Bank F) : (s.setBank F b).maxFilters = s.maxFilters := by cases F <;> rfl
@[simp] theorem State.setBank_phase (s : State) (F : Fmt) (b : Bank F) : (s.setBank F b).phase = s.phase := by cases F <;> rfl
@[simp] theorem State.setBank_hdr (s : State) (F : Fmt) (b : Bank F) : (s.setBank F b).hdr = s.hdr := by cases F <;> rfl
@[simp] theorem State.setBank_left (s : State) (F : Fmt) (b : Bank F) : (s.setBank F b).left = s.left := by cases F <;> rfl
@[simp] theorem State.setBank_n (s : State) (F : Fmt) (b : Bank F) : (s.setBank F b).n = s.n := by cases F <;> rfl
@[simp] theorem State.setBank_offer (s : State) (F : Fmt) (b : Bank F) : (s.setBank F b).offer = s.offer := by cases F <;> rfl
@[simp] theorem State.setBank_got (s : State) (F : Fmt) (b : Bank F) : (s.setBank F b).got = s.got := by cases F <;> rfl
@[simp] theorem State.setBank_draws (s : State) (F : Fmt) (b : Bank F) : (s.setBank F b).draws = s.draws := by cases F <;> rfl
@[simp] theorem State.setBank_rst (s : State) (F : Fmt) (b : Bank F) : (s.setBank F b).rst = s.rst := by cases F <;> rfl
@[simp] theorem State.setBank_cmd (s : State) (F : Fmt) (b : Bank F) : (s.setBank F b).cmd = s.cmd := by cases F <;> rfl
@[simp] theorem State.setBank_ready (s : State) (F : Fmt) (b : Bank F) : (s.setBank F b).ready = s.ready := by cases F <;> rfl
@[simp] theorem State.setBank_rsp (s : State) (F : Fmt) (b : Bank F) : (s.setBank F b).rsp = s.rsp := by cases F <;> rfl

/-! ### A slot or a count replaced -/

@[simp] theorem State.setSlot_maxFilters (s : State) (F : Fmt) (h : Nat) (v : Slot F) : (s.setSlot F h v).maxFilters = s.maxFilters := by cases F <;> rfl
@[simp] theorem State.setSlot_phase (s : State) (F : Fmt) (h : Nat) (v : Slot F) : (s.setSlot F h v).phase = s.phase := by cases F <;> rfl
@[simp] theorem State.setSlot_hdr (s : State) (F : Fmt) (h : Nat) (v : Slot F) : (s.setSlot F h v).hdr = s.hdr := by cases F <;> rfl
@[simp] theorem State.setSlot_left (s : State) (F : Fmt) (h : Nat) (v : Slot F) : (s.setSlot F h v).left = s.left := by cases F <;> rfl
@[simp] theorem State.setSlot_n (s : State) (F : Fmt) (h : Nat) (v : Slot F) : (s.setSlot F h v).n = s.n := by cases F <;> rfl
@[simp] theorem State.setSlot_offer (s : State) (F : Fmt) (h : Nat) (v : Slot F) : (s.setSlot F h v).offer = s.offer := by cases F <;> rfl
@[simp] theorem State.setSlot_got (s : State) (F : Fmt) (h : Nat) (v : Slot F) : (s.setSlot F h v).got = s.got := by cases F <;> rfl
@[simp] theorem State.setSlot_draws (s : State) (F : Fmt) (h : Nat) (v : Slot F) : (s.setSlot F h v).draws = s.draws := by cases F <;> rfl
@[simp] theorem State.setSlot_rst (s : State) (F : Fmt) (h : Nat) (v : Slot F) : (s.setSlot F h v).rst = s.rst := by cases F <;> rfl
@[simp] theorem State.setSlot_cmd (s : State) (F : Fmt) (h : Nat) (v : Slot F) : (s.setSlot F h v).cmd = s.cmd := by cases F <;> rfl
@[simp] theorem State.setSlot_ready (s : State) (F : Fmt) (h : Nat) (v : Slot F) : (s.setSlot F h v).ready = s.ready := by cases F <;> rfl
@[simp] theorem State.setSlot_rsp (s : State) (F : Fmt) (h : Nat) (v : Slot F) : (s.setSlot F h v).rsp = s.rsp := by cases F <;> rfl
@[simp] theorem State.setCount_maxFilters (s : State) (F : Fmt) (c : Nat) : (s.setCount F c).maxFilters = s.maxFilters := by cases F <;> rfl
@[simp] theorem State.setCount_phase (s : State) (F : Fmt) (c : Nat) : (s.setCount F c).phase = s.phase := by cases F <;> rfl
@[simp] theorem State.setCount_hdr (s : State) (F : Fmt) (c : Nat) : (s.setCount F c).hdr = s.hdr := by cases F <;> rfl
@[simp] theorem State.setCount_left (s : State) (F : Fmt) (c : Nat) : (s.setCount F c).left = s.left := by cases F <;> rfl
@[simp] theorem State.setCount_n (s : State) (F : Fmt) (c : Nat) : (s.setCount F c).n = s.n := by cases F <;> rfl
@[simp] theorem State.setCount_offer (s : State) (F : Fmt) (c : Nat) : (s.setCount F c).offer = s.offer := by cases F <;> rfl
@[simp] theorem State.setCount_got (s : State) (F : Fmt) (c : Nat) : (s.setCount F c).got = s.got := by cases F <;> rfl
@[simp] theorem State.setCount_draws (s : State) (F : Fmt) (c : Nat) : (s.setCount F c).draws = s.draws := by cases F <;> rfl
@[simp] theorem State.setCount_rst (s : State) (F : Fmt) (c : Nat) : (s.setCount F c).rst = s.rst := by cases F <;> rfl
@[simp] theorem State.setCount_cmd (s : State) (F : Fmt) (c : Nat) : (s.setCount F c).cmd = s.cmd := by cases F <;> rfl
@[simp] theorem State.setCount_ready (s : State) (F : Fmt) (c : Nat) : (s.setCount F c).ready = s.ready := by cases F <;> rfl
@[simp] theorem State.setCount_rsp (s : State) (F : Fmt) (c : Nat) : (s.setCount F c).rsp = s.rsp := by cases F <;> rfl

@[simp] theorem State.setSlot_bank (s : State) (F : Fmt) (h : Nat) (v : Slot F) :
    (s.setSlot F h v).bank F = { s.bank F with slots := slotWrite (s.bank F).slots h v } := by cases F <;> rfl
@[simp] theorem State.setCount_bank (s : State) (F : Fmt) (c : Nat) :
    (s.setCount F c).bank F = { s.bank F with count := c } := by cases F <;> rfl
theorem State.setSlot_bank_other (s : State) {F G : Fmt} (h : Nat) (v : Slot F) (hne : G ≠ F) :
    (s.setSlot F h v).bank G = s.bank G := State.bank_setBank_other _ _ hne
theorem State.setCount_bank_other (s : State) {F G : Fmt} (c : Nat) (hne : G ≠ F) :
    (s.setCount F c).bank G = s.bank G := State.bank_setBank_other _ _ hne

/-! ### `beginCommand` -/

@[simp] theorem State.beginCommand_maxFilters (s : State) (w : Beat) (len : Nat) : (s.beginCommand w len).maxFilters = s.maxFilters := rfl
@[simp] theorem State.beginCommand_phase (s : State) (w : Beat) (len : Nat) : (s.beginCommand w len).phase = .payload := rfl
@[simp] theorem State.beginCommand_hdr (s : State) (w : Beat) (len : Nat) : (s.beginCommand w len).hdr = w := rfl
@[simp] theorem State.beginCommand_left (s : State) (w : Beat) (len : Nat) : (s.beginCommand w len).left = len := rfl
@[simp] theorem State.beginCommand_n (s : State) (w : Beat) (len : Nat) : (s.beginCommand w len).n = 0 := rfl
@[simp] theorem State.beginCommand_offer (s : State) (w : Beat) (len : Nat) : (s.beginCommand w len).offer = none := rfl
@[simp] theorem State.beginCommand_got (s : State) (w : Beat) (len : Nat) : (s.beginCommand w len).got = [] := rfl
@[simp] theorem State.beginCommand_draws (s : State) (w : Beat) (len : Nat) : (s.beginCommand w len).draws = s.draws := rfl
@[simp] theorem State.beginCommand_rst (s : State) (w : Beat) (len : Nat) : (s.beginCommand w len).rst = s.rst := rfl
@[simp] theorem State.beginCommand_cmd (s : State) (w : Beat) (len : Nat) : (s.beginCommand w len).cmd = s.cmd := rfl
@[simp] theorem State.beginCommand_ready (s : State) (w : Beat) (len : Nat) : (s.beginCommand w len).ready = s.ready := rfl
@[simp] theorem State.beginCommand_rsp (s : State) (w : Beat) (len : Nat) : (s.beginCommand w len).rsp = s.rsp := rfl
@[simp] theorem State.beginCommand_f32 (s : State) (w : Beat) (len : Nat) : (s.beginCommand w len).f32 = s.f32 := rfl
@[simp] theorem State.beginCommand_f64 (s : State) (w : Beat) (len : Nat) : (s.beginCommand w len).f64 = s.f64 := rfl
@[simp] theorem State.beginCommand_bank (s : State) (w : Beat) (len : Nat) (F : Fmt) : (s.beginCommand w len).bank F = s.bank F := by cases F <;> rfl
@[simp] theorem State.beginCommand_slot (s : State) (w : Beat) (len : Nat) (F : Fmt) (h : Nat) : (s.beginCommand w len).slot F h = s.slot F h := by cases F <;> rfl

/-! ### `offerBeat` -/

@[simp] theorem State.offerBeat_maxFilters (s : State) (b : Beat) : (s.offerBeat b).maxFilters = s.maxFilters := rfl
@[simp] theorem State.offerBeat_phase (s : State) (b : Beat) : (s.offerBeat b).phase = .respond := rfl
@[simp] theorem State.offerBeat_hdr (s : State) (b : Beat) : (s.offerBeat b).hdr = s.hdr := rfl
@[simp] theorem State.offerBeat_left (s : State) (b : Beat) : (s.offerBeat b).left = s.left := rfl
@[simp] theorem State.offerBeat_n (s : State) (b : Beat) : (s.offerBeat b).n = s.n := rfl
@[simp] theorem State.offerBeat_offer (s : State) (b : Beat) : (s.offerBeat b).offer = some b := rfl
@[simp] theorem State.offerBeat_got (s : State) (b : Beat) : (s.offerBeat b).got = s.got := rfl
@[simp] theorem State.offerBeat_draws (s : State) (b : Beat) : (s.offerBeat b).draws = s.draws := rfl
@[simp] theorem State.offerBeat_rst (s : State) (b : Beat) : (s.offerBeat b).rst = s.rst := rfl
@[simp] theorem State.offerBeat_cmd (s : State) (b : Beat) : (s.offerBeat b).cmd = s.cmd := rfl
@[simp] theorem State.offerBeat_ready (s : State) (b : Beat) : (s.offerBeat b).ready = s.ready := rfl
@[simp] theorem State.offerBeat_rsp (s : State) (b : Beat) : (s.offerBeat b).rsp = s.rsp := rfl
@[simp] theorem State.offerBeat_f32 (s : State) (b : Beat) : (s.offerBeat b).f32 = s.f32 := rfl
@[simp] theorem State.offerBeat_f64 (s : State) (b : Beat) : (s.offerBeat b).f64 = s.f64 := rfl
@[simp] theorem State.offerBeat_bank (s : State) (b : Beat) (F : Fmt) : (s.offerBeat b).bank F = s.bank F := by cases F <;> rfl
@[simp] theorem State.offerBeat_slot (s : State) (b : Beat) (F : Fmt) (h : Nat) : (s.offerBeat b).slot F h = s.slot F h := by cases F <;> rfl

/-! ### `dropBeat` -/

@[simp] theorem State.dropBeat_maxFilters (s : State) : s.dropBeat.maxFilters = s.maxFilters := rfl
@[simp] theorem State.dropBeat_phase (s : State) : s.dropBeat.phase = s.phase := rfl
@[simp] theorem State.dropBeat_hdr (s : State) : s.dropBeat.hdr = s.hdr := rfl
@[simp] theorem State.dropBeat_left (s : State) : s.dropBeat.left = s.left - 1 := rfl
@[simp] theorem State.dropBeat_n (s : State) : s.dropBeat.n = s.n := rfl
@[simp] theorem State.dropBeat_offer (s : State) : s.dropBeat.offer = s.offer := rfl
@[simp] theorem State.dropBeat_got (s : State) : s.dropBeat.got = s.got := rfl
@[simp] theorem State.dropBeat_draws (s : State) : s.dropBeat.draws = s.draws := rfl
@[simp] theorem State.dropBeat_rst (s : State) : s.dropBeat.rst = s.rst := rfl
@[simp] theorem State.dropBeat_cmd (s : State) : s.dropBeat.cmd = s.cmd.tail := rfl
@[simp] theorem State.dropBeat_ready (s : State) : s.dropBeat.ready = s.ready := rfl
@[simp] theorem State.dropBeat_rsp (s : State) : s.dropBeat.rsp = s.rsp := rfl
@[simp] theorem State.dropBeat_f32 (s : State) : s.dropBeat.f32 = s.f32 := rfl
@[simp] theorem State.dropBeat_f64 (s : State) : s.dropBeat.f64 = s.f64 := rfl
@[simp] theorem State.dropBeat_bank (s : State) (F : Fmt) : s.dropBeat.bank F = s.bank F := by cases F <;> rfl
@[simp] theorem State.dropBeat_slot (s : State) (F : Fmt) (h : Nat) : s.dropBeat.slot F h = s.slot F h := by cases F <;> rfl

/-! ### `takeBeat` -/

@[simp] theorem State.takeBeat_maxFilters (s : State) (a : Bool) (b : Beat) : (s.takeBeat a b).maxFilters = s.maxFilters := rfl
@[simp] theorem State.takeBeat_phase (s : State) (a : Bool) (b : Beat) : (s.takeBeat a b).phase = s.phase := rfl
@[simp] theorem State.takeBeat_hdr (s : State) (a : Bool) (b : Beat) : (s.takeBeat a b).hdr = s.hdr := rfl
@[simp] theorem State.takeBeat_left (s : State) (a : Bool) (b : Beat) : (s.takeBeat a b).left = s.left - 1 := rfl
@[simp] theorem State.takeBeat_n (s : State) (a : Bool) (b : Beat) : (s.takeBeat a b).n = s.n := rfl
@[simp] theorem State.takeBeat_offer (s : State) (a : Bool) (b : Beat) : (s.takeBeat a b).offer = s.offer := rfl
@[simp] theorem State.takeBeat_got (s : State) (a : Bool) (b : Beat) : (s.takeBeat a b).got = if a then s.got ++ [b] else s.got := rfl
@[simp] theorem State.takeBeat_draws (s : State) (a : Bool) (b : Beat) : (s.takeBeat a b).draws = s.draws := rfl
@[simp] theorem State.takeBeat_rst (s : State) (a : Bool) (b : Beat) : (s.takeBeat a b).rst = s.rst := rfl
@[simp] theorem State.takeBeat_cmd (s : State) (a : Bool) (b : Beat) : (s.takeBeat a b).cmd = s.cmd.tail := rfl
@[simp] theorem State.takeBeat_ready (s : State) (a : Bool) (b : Beat) : (s.takeBeat a b).ready = s.ready := rfl
@[simp] theorem State.takeBeat_rsp (s : State) (a : Bool) (b : Beat) : (s.takeBeat a b).rsp = s.rsp := rfl
@[simp] theorem State.takeBeat_f32 (s : State) (a : Bool) (b : Beat) : (s.takeBeat a b).f32 = s.f32 := rfl
@[simp] theorem State.takeBeat_f64 (s : State) (a : Bool) (b : Beat) : (s.takeBeat a b).f64 = s.f64 := rfl
@[simp] theorem State.takeBeat_bank (s : State) (a : Bool) (b : Beat) (F : Fmt) : (s.takeBeat a b).bank F = s.bank F := by cases F <;> rfl
@[simp] theorem State.takeBeat_slot (s : State) (a : Bool) (b : Beat) (F : Fmt) (h : Nat) : (s.takeBeat a b).slot F h = s.slot F h := by cases F <;> rfl

/-! ### `clearGot` -/

@[simp] theorem State.clearGot_maxFilters (s : State) : s.clearGot.maxFilters = s.maxFilters := rfl
@[simp] theorem State.clearGot_phase (s : State) : s.clearGot.phase = s.phase := rfl
@[simp] theorem State.clearGot_hdr (s : State) : s.clearGot.hdr = s.hdr := rfl
@[simp] theorem State.clearGot_left (s : State) : s.clearGot.left = s.left := rfl
@[simp] theorem State.clearGot_n (s : State) : s.clearGot.n = s.n := rfl
@[simp] theorem State.clearGot_offer (s : State) : s.clearGot.offer = s.offer := rfl
@[simp] theorem State.clearGot_got (s : State) : s.clearGot.got = [] := rfl
@[simp] theorem State.clearGot_draws (s : State) : s.clearGot.draws = s.draws := rfl
@[simp] theorem State.clearGot_rst (s : State) : s.clearGot.rst = s.rst := rfl
@[simp] theorem State.clearGot_cmd (s : State) : s.clearGot.cmd = s.cmd := rfl
@[simp] theorem State.clearGot_ready (s : State) : s.clearGot.ready = s.ready := rfl
@[simp] theorem State.clearGot_rsp (s : State) : s.clearGot.rsp = s.rsp := rfl
@[simp] theorem State.clearGot_f32 (s : State) : s.clearGot.f32 = s.f32 := rfl
@[simp] theorem State.clearGot_f64 (s : State) : s.clearGot.f64 = s.f64 := rfl
@[simp] theorem State.clearGot_bank (s : State) (F : Fmt) : s.clearGot.bank F = s.bank F := by cases F <;> rfl
@[simp] theorem State.clearGot_slot (s : State) (F : Fmt) (h : Nat) : s.clearGot.slot F h = s.slot F h := by cases F <;> rfl

/-! ### `sampleDone` -/

@[simp] theorem State.sampleDone_maxFilters (s : State) (ops : Nat) : (s.sampleDone ops).maxFilters = s.maxFilters := rfl
@[simp] theorem State.sampleDone_phase (s : State) (ops : Nat) : (s.sampleDone ops).phase = s.phase := rfl
@[simp] theorem State.sampleDone_hdr (s : State) (ops : Nat) : (s.sampleDone ops).hdr = s.hdr := rfl
@[simp] theorem State.sampleDone_left (s : State) (ops : Nat) : (s.sampleDone ops).left = s.left := rfl
@[simp] theorem State.sampleDone_n (s : State) (ops : Nat) : (s.sampleDone ops).n = s.n + 1 := rfl
@[simp] theorem State.sampleDone_offer (s : State) (ops : Nat) : (s.sampleDone ops).offer = s.offer := rfl
@[simp] theorem State.sampleDone_got (s : State) (ops : Nat) : (s.sampleDone ops).got = s.got := rfl
@[simp] theorem State.sampleDone_draws (s : State) (ops : Nat) : (s.sampleDone ops).draws = s.draws + ops := rfl
@[simp] theorem State.sampleDone_rst (s : State) (ops : Nat) : (s.sampleDone ops).rst = s.rst := rfl
@[simp] theorem State.sampleDone_cmd (s : State) (ops : Nat) : (s.sampleDone ops).cmd = s.cmd := rfl
@[simp] theorem State.sampleDone_ready (s : State) (ops : Nat) : (s.sampleDone ops).ready = s.ready := rfl
@[simp] theorem State.sampleDone_rsp (s : State) (ops : Nat) : (s.sampleDone ops).rsp = s.rsp := rfl
@[simp] theorem State.sampleDone_f32 (s : State) (ops : Nat) : (s.sampleDone ops).f32 = s.f32 := rfl
@[simp] theorem State.sampleDone_f64 (s : State) (ops : Nat) : (s.sampleDone ops).f64 = s.f64 := rfl
@[simp] theorem State.sampleDone_bank (s : State) (ops : Nat) (F : Fmt) : (s.sampleDone ops).bank F = s.bank F := by cases F <;> rfl
@[simp] theorem State.sampleDone_slot (s : State) (ops : Nat) (F : Fmt) (h : Nat) : (s.sampleDone ops).slot F h = s.slot F h := by cases F <;> rfl

/-! ### `responseTaken` -/

@[simp] theorem State.responseTaken_maxFilters (s : State) (b : Beat) (r : Ready) : (s.responseTaken b r).maxFilters = s.maxFilters := rfl
@[simp] theorem State.responseTaken_phase (s : State) (b : Beat) (r : Ready) : (s.responseTaken b r).phase = phaseAfter s.left := rfl
@[simp] theorem State.responseTaken_hdr (s : State) (b : Beat) (r : Ready) : (s.responseTaken b r).hdr = s.hdr := rfl
@[simp] theorem State.responseTaken_left (s : State) (b : Beat) (r : Ready) : (s.responseTaken b r).left = s.left := rfl
@[simp] theorem State.responseTaken_n (s : State) (b : Beat) (r : Ready) : (s.responseTaken b r).n = s.n := rfl
@[simp] theorem State.responseTaken_offer (s : State) (b : Beat) (r : Ready) : (s.responseTaken b r).offer = none := rfl
@[simp] theorem State.responseTaken_got (s : State) (b : Beat) (r : Ready) : (s.responseTaken b r).got = s.got := rfl
@[simp] theorem State.responseTaken_draws (s : State) (b : Beat) (r : Ready) : (s.responseTaken b r).draws = s.draws := rfl
@[simp] theorem State.responseTaken_rst (s : State) (b : Beat) (r : Ready) : (s.responseTaken b r).rst = s.rst := rfl
@[simp] theorem State.responseTaken_cmd (s : State) (b : Beat) (r : Ready) : (s.responseTaken b r).cmd = s.cmd := rfl
@[simp] theorem State.responseTaken_ready (s : State) (b : Beat) (r : Ready) : (s.responseTaken b r).ready = r := rfl
@[simp] theorem State.responseTaken_rsp (s : State) (b : Beat) (r : Ready) : (s.responseTaken b r).rsp = s.rsp ++ [b] := rfl
@[simp] theorem State.responseTaken_f32 (s : State) (b : Beat) (r : Ready) : (s.responseTaken b r).f32 = s.f32 := rfl
@[simp] theorem State.responseTaken_f64 (s : State) (b : Beat) (r : Ready) : (s.responseTaken b r).f64 = s.f64 := rfl
@[simp] theorem State.responseTaken_bank (s : State) (b : Beat) (r : Ready) (F : Fmt) : (s.responseTaken b r).bank F = s.bank F := by cases F <;> rfl
@[simp] theorem State.responseTaken_slot (s : State) (b : Beat) (r : Ready) (F : Fmt) (h : Nat) : (s.responseTaken b r).slot F h = s.slot F h := by cases F <;> rfl

/-! ### `discardBeat` -/

@[simp] theorem State.discardBeat_maxFilters (s : State) : s.discardBeat.maxFilters = s.maxFilters := rfl
@[simp] theorem State.discardBeat_phase (s : State) : s.discardBeat.phase = phaseAfter s.left := rfl
@[simp] theorem State.discardBeat_hdr (s : State) : s.discardBeat.hdr = s.hdr := rfl
@[simp] theorem State.discardBeat_left (s : State) : s.discardBeat.left = s.left := rfl
@[simp] theorem State.discardBeat_n (s : State) : s.discardBeat.n = s.n := rfl
@[simp] theorem State.discardBeat_offer (s : State) : s.discardBeat.offer = s.offer := rfl
@[simp] theorem State.discardBeat_got (s : State) : s.discardBeat.got = s.got := rfl
@[simp] theorem State.discardBeat_draws (s : State) : s.discardBeat.draws = s.draws := rfl
@[simp] theorem State.discardBeat_rst (s : State) : s.discardBeat.rst = s.rst := rfl
@[simp] theorem State.discardBeat_cmd (s : State) : s.discardBeat.cmd = s.cmd := rfl
@[simp] theorem State.discardBeat_ready (s : State) : s.discardBeat.ready = s.ready := rfl
@[simp] theorem State.discardBeat_rsp (s : State) : s.discardBeat.rsp = s.rsp := rfl
@[simp] theorem State.discardBeat_f32 (s : State) : s.discardBeat.f32 = s.f32 := rfl
@[simp] theorem State.discardBeat_f64 (s : State) : s.discardBeat.f64 = s.f64 := rfl
@[simp] theorem State.discardBeat_bank (s : State) (F : Fmt) : s.discardBeat.bank F = s.bank F := by cases F <;> rfl
@[simp] theorem State.discardBeat_slot (s : State) (F : Fmt) (h : Nat) : s.discardBeat.slot F h = s.slot F h := by cases F <;> rfl

/-! ### `completed` -/

@[simp] theorem State.completed_maxFilters (s : State) (w : Beat) (k : Nat) (rest out : List Beat) : (s.completed w k rest out).maxFilters = s.maxFilters := rfl
@[simp] theorem State.completed_phase (s : State) (w : Beat) (k : Nat) (rest out : List Beat) : (s.completed w k rest out).phase = .header := rfl
@[simp] theorem State.completed_hdr (s : State) (w : Beat) (k : Nat) (rest out : List Beat) : (s.completed w k rest out).hdr = w := rfl
@[simp] theorem State.completed_left (s : State) (w : Beat) (k : Nat) (rest out : List Beat) : (s.completed w k rest out).left = 0 := rfl
@[simp] theorem State.completed_n (s : State) (w : Beat) (k : Nat) (rest out : List Beat) : (s.completed w k rest out).n = k := rfl
@[simp] theorem State.completed_offer (s : State) (w : Beat) (k : Nat) (rest out : List Beat) : (s.completed w k rest out).offer = none := rfl
@[simp] theorem State.completed_got (s : State) (w : Beat) (k : Nat) (rest out : List Beat) : (s.completed w k rest out).got = [] := rfl
@[simp] theorem State.completed_draws (s : State) (w : Beat) (k : Nat) (rest out : List Beat) : (s.completed w k rest out).draws = s.draws := rfl
@[simp] theorem State.completed_rst (s : State) (w : Beat) (k : Nat) (rest out : List Beat) : (s.completed w k rest out).rst = s.rst := rfl
@[simp] theorem State.completed_cmd (s : State) (w : Beat) (k : Nat) (rest out : List Beat) : (s.completed w k rest out).cmd = rest := rfl
@[simp] theorem State.completed_ready (s : State) (w : Beat) (k : Nat) (rest out : List Beat) : (s.completed w k rest out).ready = s.ready := rfl
@[simp] theorem State.completed_rsp (s : State) (w : Beat) (k : Nat) (rest out : List Beat) : (s.completed w k rest out).rsp = s.rsp ++ out := rfl
@[simp] theorem State.completed_f32 (s : State) (w : Beat) (k : Nat) (rest out : List Beat) : (s.completed w k rest out).f32 = s.f32 := rfl
@[simp] theorem State.completed_f64 (s : State) (w : Beat) (k : Nat) (rest out : List Beat) : (s.completed w k rest out).f64 = s.f64 := rfl
@[simp] theorem State.completed_bank (s : State) (w : Beat) (k : Nat) (rest out : List Beat) (F : Fmt) : (s.completed w k rest out).bank F = s.bank F := by cases F <;> rfl
@[simp] theorem State.completed_slot (s : State) (w : Beat) (k : Nat) (rest out : List Beat) (F : Fmt) (h : Nat) : (s.completed w k rest out).slot F h = s.slot F h := by cases F <;> rfl

/-! ### `resetEdge` -/

@[simp] theorem State.resetEdge_maxFilters (s : State) : s.resetEdge.maxFilters = s.maxFilters := rfl
@[simp] theorem State.resetEdge_phase (s : State) : s.resetEdge.phase = .header := rfl
@[simp] theorem State.resetEdge_hdr (s : State) : s.resetEdge.hdr = 0#64 := rfl
@[simp] theorem State.resetEdge_left (s : State) : s.resetEdge.left = 0 := rfl
@[simp] theorem State.resetEdge_n (s : State) : s.resetEdge.n = 0 := rfl
@[simp] theorem State.resetEdge_offer (s : State) : s.resetEdge.offer = none := rfl
@[simp] theorem State.resetEdge_got (s : State) : s.resetEdge.got = [] := rfl
@[simp] theorem State.resetEdge_draws (s : State) : s.resetEdge.draws = s.draws := rfl
@[simp] theorem State.resetEdge_rst (s : State) : s.resetEdge.rst = false := rfl
@[simp] theorem State.resetEdge_cmd (s : State) : s.resetEdge.cmd = s.cmd := rfl
@[simp] theorem State.resetEdge_ready (s : State) : s.resetEdge.ready = s.ready := rfl
@[simp] theorem State.resetEdge_rsp (s : State) : s.resetEdge.rsp = s.rsp := rfl
@[simp] theorem State.resetEdge_f32 (s : State) : s.resetEdge.f32 = Bank.zero .f32 := rfl
@[simp] theorem State.resetEdge_f64 (s : State) : s.resetEdge.f64 = Bank.zero .f64 := rfl

end Sys2Proof.Machine
end

