-- ==== Sys2Proof/Laws/Slots.lean ====
section
/-! SUPPORT. The slot file: read after write, and every write keeps the canonical form. -/

namespace Sys2Proof.Machine

variable {F : Fmt}

/-- Every handle of the file is above `k`. -/
def slotsAbove (k : Nat) (m : List (Nat × Slot F)) : Prop := ∀ e ∈ m, k < e.1

theorem slotsWf_cons (k : Nat) (v : Slot F) (m : List (Nat × Slot F)) :
    slotsWf ((k, v) :: m) = true ↔ v ≠ Slot.zero F ∧ slotsAbove k m ∧ slotsWf m = true := by
  induction m generalizing k v with
  | nil => simp [slotsWf, slotsAbove]
  | cons e m ih =>
    obtain ⟨k', v'⟩ := e
    simp only [slotsWf, Bool.and_eq_true, bne_iff_ne, ne_eq, decide_eq_true_eq, slotsAbove, List.mem_cons,
      forall_eq_or_imp]
    constructor
    · rintro ⟨⟨hv, hk⟩, hm⟩
      refine ⟨hv, ⟨hk, fun e he => ?_⟩, hm⟩
      exact hk.trans (((ih k' v').1 hm).2.1 e he)
    · rintro ⟨hv, ⟨hk, -⟩, hm⟩
      exact ⟨⟨hv, hk⟩, hm⟩

/-- A handle below every listed one reads as the reset slot. -/
theorem slotRead_of_above {k h : Nat} {m : List (Nat × Slot F)} (hm : slotsAbove k m) (hk : h ≤ k) :
    slotRead m h = Slot.zero F := by
  induction m with
  | nil => rfl
  | cons e m ih =>
    obtain ⟨k', v'⟩ := e
    have hk' : k < k' := hm (k', v') (by simp)
    have hne : h ≠ k' := by omega
    simp only [slotRead, if_neg hne]
    exact ih fun e he => hm e (by simp [he])

theorem slotRead_slotCons_other {h k : Nat} (hne : k ≠ h) (v : Slot F) (m : List (Nat × Slot F)) :
    slotRead (slotCons h v m) k = slotRead m k := by
  unfold slotCons
  split
  · rfl
  · simp [slotRead, hne]

/-- A write leaves every other slot alone, in any file. -/
theorem slotRead_slotWrite_other {h k : Nat} (hne : k ≠ h) (v : Slot F) (m : List (Nat × Slot F)) :
    slotRead (slotWrite m h v) k = slotRead m k := by
  induction m with
  | nil => simp only [slotWrite, slotRead_slotCons_other hne]
  | cons e m ih =>
    obtain ⟨k', u⟩ := e
    simp only [slotWrite]
    split
    · rw [slotRead_slotCons_other hne]
    · split
      · next heq =>
        subst heq
        rw [slotRead_slotCons_other hne]
        simp [slotRead, hne]
      · simp only [slotRead, ih]

/-- A read after a write to the same handle gives the slot written, in a canonical file. -/
theorem slotRead_slotWrite_same {h : Nat} {m : List (Nat × Slot F)} (hm : slotsWf m = true) (v : Slot F) :
    slotRead (slotWrite m h v) h = v := by
  induction m with
  | nil =>
    simp only [slotWrite, slotCons]
    split
    · next hv => simp [slotRead, hv]
    · simp [slotRead]
  | cons e m ih =>
    obtain ⟨k, u⟩ := e
    obtain ⟨hu, habove, hm'⟩ := (slotsWf_cons k u m).1 hm
    simp only [slotWrite]
    split
    · next hlt =>
      simp only [slotCons]
      split
      · next hv =>
        have hne : h ≠ k := by omega
        simp only [slotRead, if_neg hne, slotRead_of_above habove (by omega : h ≤ k), hv]
      · simp [slotRead]
    · split
      · next heq =>
        simp only [slotCons]
        split
        · next hv => rw [slotRead_of_above habove (by omega : h ≤ k), hv]
        · simp [slotRead]
      · next hne => simp only [slotRead, if_neg hne, ih hm']

theorem slotsAbove_slotWrite {h k : Nat} {m : List (Nat × Slot F)} (hm : slotsAbove k m) (hk : k < h) (v : Slot F) :
    slotsAbove k (slotWrite m h v) := by
  induction m with
  | nil =>
    simp only [slotWrite, slotCons]
    split
    · exact hm
    · simpa [slotsAbove] using hk
  | cons e m ih =>
    obtain ⟨k', u⟩ := e
    have hm' : slotsAbove k m := fun e he => hm e (by simp [he])
    simp only [slotWrite, slotCons]
    split
    · split
      · exact hm
      · intro e he
        rcases List.mem_cons.1 he with rfl | he
        · exact hk
        · exact hm e he
    · split
      · split
        · exact hm'
        · intro e he
          rcases List.mem_cons.1 he with rfl | he
          · exact hk
          · exact hm' e he
      · intro e he
        rcases List.mem_cons.1 he with rfl | he
        · exact hm (k', u) (by simp)
        · exact ih hm' e he

/-- Every write keeps the canonical form. -/
theorem slotsWf_slotWrite {m : List (Nat × Slot F)} (hm : slotsWf m = true) (h : Nat) (v : Slot F) :
    slotsWf (slotWrite m h v) = true := by
  induction m with
  | nil =>
    simp only [slotWrite, slotCons]
    split
    · rfl
    · next hv => simpa [slotsWf] using hv
  | cons e m ih =>
    obtain ⟨k, u⟩ := e
    obtain ⟨hu, habove, hm'⟩ := (slotsWf_cons k u m).1 hm
    simp only [slotWrite]
    split
    · next hlt =>
      simp only [slotCons]
      split
      · exact hm
      · next hv =>
        refine (slotsWf_cons _ _ _).2 ⟨hv, ?_, hm⟩
        intro e he
        rcases List.mem_cons.1 he with rfl | he
        · exact hlt
        · exact hlt.trans (habove e he)
    · split
      · next heq =>
        subst heq
        simp only [slotCons]
        split
        · exact hm'
        · next hv => exact (slotsWf_cons _ _ _).2 ⟨hv, habove, hm'⟩
      · next hlt hne =>
        exact (slotsWf_cons _ _ _).2 ⟨hu, slotsAbove_slotWrite habove (by omega) v, ih hm'⟩

/-- Writing back what is there changes nothing, in a canonical file. -/
theorem slotWrite_slotRead {m : List (Nat × Slot F)} (hm : slotsWf m = true) (h : Nat) :
    slotWrite m h (slotRead m h) = m := by
  induction m with
  | nil => simp [slotWrite, slotRead, slotCons]
  | cons e m ih =>
    obtain ⟨k, u⟩ := e
    obtain ⟨hu, habove, hm'⟩ := (slotsWf_cons k u m).1 hm
    simp only [slotWrite]
    split
    · next hlt =>
      have hne : h ≠ k := by omega
      simp only [slotRead, if_neg hne, slotRead_of_above habove (by omega : h ≤ k), slotCons, if_pos]
    · split
      · next heq =>
        subst heq
        simp [slotRead, slotCons, hu]
      · next hne => simp only [slotRead, if_neg hne, ih hm']

/-- The second of two writes to one handle is the one that counts, in a canonical file. -/
theorem slotWrite_slotWrite {m : List (Nat × Slot F)} (hm : slotsWf m = true) (h : Nat) (u v : Slot F) :
    slotWrite (slotWrite m h u) h v = slotWrite m h v := by
  induction m with
  | nil =>
    simp only [slotWrite, slotCons]
    by_cases hu : u = Slot.zero F <;> simp [hu, slotWrite, slotCons]
  | cons e m ih =>
    obtain ⟨k, w⟩ := e
    obtain ⟨hw, habove, hm'⟩ := (slotsWf_cons k w m).1 hm
    simp only [slotWrite, slotCons]
    split
    · next hlt => by_cases hu : u = Slot.zero F <;> simp [hu, slotWrite, slotCons, hlt]
    · split
      · by_cases hu : u = Slot.zero F
        · simp only [hu, if_true]
          cases m with
          | nil => simp [slotWrite, slotCons]
          | cons e m =>
            have : h < e.1 := by have := habove e (by simp); omega
            simp [slotWrite, slotCons, this]
        · simp [hu, slotWrite, slotCons]
      · next h1 h2 => simp [slotWrite, h1, h2, ih hm']

/-- The files of the state at reset are canonical. -/
theorem slotsWf_reset : slotsWf State.reset.f32.slots = true ∧ slotsWf State.reset.f64.slots = true := ⟨rfl, rfl⟩

/-! ### The same for the state -/

theorem State.slot_setSlot_same {s : State} {F : Fmt} (hm : slotsWf (s.bank F).slots = true) (h : Nat) (v : Slot F) :
    (s.setSlot F h v).slot F h = v := by
  simp [State.slot, slotRead_slotWrite_same hm]

theorem State.slot_setSlot_other (s : State) {F : Fmt} {h k : Nat} (hne : k ≠ h) (v : Slot F) :
    (s.setSlot F h v).slot F k = s.slot F k := by
  simp [State.slot, slotRead_slotWrite_other hne]

theorem State.slot_setSlot_bank_other (s : State) {F G : Fmt} (hne : G ≠ F) (h k : Nat) (v : Slot F) :
    (s.setSlot F h v).slot G k = s.slot G k := by
  simp [State.slot, State.setSlot_bank_other s h v hne]

@[simp] theorem State.setCount_slot (s : State) (F G : Fmt) (c k : Nat) : (s.setCount F c).slot G k = s.slot G k := by
  cases F <;> cases G <;> rfl

theorem State.setSlot_slot {s : State} {F : Fmt} (hm : slotsWf (s.bank F).slots = true) (h : Nat) :
    s.setSlot F h (s.slot F h) = s := by
  simp only [State.setSlot, State.slot, slotWrite_slotRead hm]
  exact s.setBank_bank F

theorem State.setSlot_setSlot {s : State} {F : Fmt} (hm : slotsWf (s.bank F).slots = true) (h : Nat) (u v : Slot F) :
    (s.setSlot F h u).setSlot F h v = s.setSlot F h v := by
  cases F <;> simp only [State.bank_f32, State.bank_f64] at hm <;> simp [State.setSlot, slotWrite_slotWrite hm]

end Sys2Proof.Machine
end

