-- ==== Sys2Proof/Laws/Sequencer.lean ====
section
/-! SUPPORT. Everything a move of the sequencer can do, and what settling comes to: an induction, the moves it needs, its end. -/

namespace Sys2Proof.Machine

/-! ### Accepting a response -/

/-- The host accepts the offered beat, or nothing happens. -/
theorem State.acceptResponse_cases (s : State) :
    (∃ b r, s.offer = some b ∧ s.ready.accept = some r ∧ s.acceptResponse = s.responseTaken b r) ∨
    ((s.offer = none ∨ s.ready.accept = none) ∧ s.acceptResponse = s) := by
  unfold State.acceptResponse
  split
  · next b r hb hr => exact .inl ⟨b, r, hb, hr, rfl⟩
  · next h =>
    refine .inr ⟨?_, rfl⟩
    cases ho : s.offer with
    | none => exact .inl rfl
    | some b =>
      cases hr : s.ready.accept with
      | none => exact .inr rfl
      | some r => exact absurd hr (h b r ho)

@[simp] theorem Ready.accept_always : Ready.always.accept = some .always := rfl
@[simp] theorem Ready.accept_zero : (Ready.atMost 0).accept = none := rfl
@[simp] theorem Ready.accept_succ (k : Nat) : (Ready.atMost (k + 1)).accept = some (.atMost k) := rfl

theorem phaseAfter_cases (left : Nat) :
    (left = 0 ∧ phaseAfter left = .header) ∨ (0 < left ∧ phaseAfter left = .payload) := by
  unfold phaseAfter
  split
  · next h => exact .inl ⟨h, rfl⟩
  · next h => exact .inr ⟨Nat.pos_of_ne_zero h, rfl⟩

/-! ### Blocked -/

theorem State.blocked_of_header {s : State} (h : s.phase = .header) : s.blocked = true := by
  simp [State.blocked, h]

theorem State.not_blocked_iff (s : State) :
    s.blocked = false ↔
      (s.phase = .payload ∧ ∃ b rest, s.cmd = b :: rest) ∨
      (s.phase = .respond ∧ ∃ b r, s.offer = some b ∧ s.ready.accept = some r) := by
  unfold State.blocked
  split
  · next h => simp [h]
  · next h =>
    cases hc : s.cmd <;> simp [h]
  · next h =>
    cases ho : s.offer <;> cases hr : s.ready.accept <;> simp [h]

/-! ### Settling -/

variable {move : State → State}

/-- What every move of an unblocked state keeps, settling keeps. -/
theorem settleFor_induct {P : State → Prop} (hmove : ∀ s, P s → s.blocked = false → P (move s)) (fuel : Nat) (s : State)
    (hs : P s) : P (settleFor move fuel s) := by
  induction fuel generalizing s with
  | zero => exact hs
  | succ fuel ih =>
    simp only [settleFor]
    split
    · exact hs
    · next hb => exact ih _ (hmove s hs (by simpa using hb))

theorem settle_induct {P : State → Prop} (hmove : ∀ s, P s → s.blocked = false → P (move s)) (s : State) (hs : P s) :
    P (settle move s) := settleFor_induct hmove _ s hs

theorem settleFor_of_blocked {s : State} (h : s.blocked = true) (fuel : Nat) : settleFor move fuel s = s := by
  cases fuel <;> simp [settleFor, h]

/-- Settling a blocked state leaves it as it is: the block waits (spec/70_reset_and_hazards.md R206, R207). -/
theorem settle_of_blocked {s : State} (h : s.blocked = true) : settle move s = s := settleFor_of_blocked h _

theorem settleFor_succ {s : State} (h : s.blocked = false) (fuel : Nat) :
    settleFor move (fuel + 1) s = settleFor move fuel (move s) := by
  simp [settleFor, h]

/-- Settling is a number of moves. -/
theorem settleFor_iterate (fuel : Nat) (s : State) : ∃ k, settleFor move fuel s = move^[k] s := by
  induction fuel generalizing s with
  | zero => exact ⟨0, rfl⟩
  | succ fuel ih =>
    simp only [settleFor]
    split
    · exact ⟨0, rfl⟩
    · obtain ⟨k, hk⟩ := ih (move s)
      exact ⟨k + 1, by rw [hk, Function.iterate_succ_apply]⟩

/-- How many transfers the current command can still make: two a payload beat to come, one for a response offered. -/
def State.transfers (s : State) : Nat := 2 * s.left + (if s.offer.isSome then 1 else 0)

theorem State.transfers_le (s : State) : s.transfers ≤ 2 * s.left + 1 := by
  unfold State.transfers
  split <;> omega

/-- The phases as the sequencer keeps them (spec/10_state.md R29). -/
structure State.Tidy (s : State) : Prop where
  header : s.phase = .header → s.left = 0 ∧ s.offer = none
  payload : s.phase = .payload → 0 < s.left ∧ s.offer = none
  respond : s.phase = .respond → s.offer.isSome = true

/-- A move that keeps the phases and makes one of the transfers left. -/
structure GoodMove (s t : State) : Prop where
  tidy : t.Tidy
  transfers_lt : t.transfers < s.transfers

theorem State.Tidy.header_of_no_transfers {s : State} (h : s.Tidy) (ht : s.transfers = 0) : s.phase = .header := by
  unfold State.transfers at ht
  cases hp : s.phase with
  | header => rfl
  | payload => have := (h.payload hp).1; omega
  | respond => have := h.respond hp; rw [if_pos this] at ht; omega

/-- With fuel for every transfer left, settling ends blocked, in any state reached by good moves. -/
theorem settleFor_blocked {P : State → Prop} (hP : ∀ s, P s → s.Tidy)
    (hmove : ∀ s, P s → s.blocked = false → P (move s) ∧ (move s).transfers < s.transfers) :
    ∀ (fuel : Nat) (s : State), P s → s.transfers ≤ fuel → (settleFor move fuel s).blocked = true := by
  intro fuel
  induction fuel with
  | zero =>
    intro s hs hf
    exact State.blocked_of_header ((hP s hs).header_of_no_transfers (by omega))
  | succ fuel ih =>
    intro s hs hf
    simp only [settleFor]
    split
    · next hb => exact hb
    · next hb =>
      have hb : s.blocked = false := by simpa using hb
      obtain ⟨h1, h2⟩ := hmove s hs hb
      exact ih _ h1 (by omega)

theorem settle_blocked {P : State → Prop} (hP : ∀ s, P s → s.Tidy)
    (hmove : ∀ s, P s → s.blocked = false → P (move s) ∧ (move s).transfers < s.transfers) {s : State} (hs : P s) :
    (settle move s).blocked = true :=
  settleFor_blocked hP hmove _ s hs s.transfers_le

/-- More fuel than that changes nothing. -/
theorem settleFor_fuel {P : State → Prop} (hP : ∀ s, P s → s.Tidy)
    (hmove : ∀ s, P s → s.blocked = false → P (move s) ∧ (move s).transfers < s.transfers) :
    ∀ (fuel fuel' : Nat) (s : State), P s → s.transfers ≤ fuel → s.transfers ≤ fuel' →
      settleFor move fuel s = settleFor move fuel' s := by
  intro fuel
  induction fuel with
  | zero =>
    intro fuel' s hs hf _
    have hb := State.blocked_of_header ((hP s hs).header_of_no_transfers (by omega))
    simp [settleFor_of_blocked hb]
  | succ fuel ih =>
    intro fuel' s hs hf hf'
    cases hb : s.blocked with
    | true => simp [settleFor_of_blocked hb]
    | false =>
      obtain ⟨h1, h2⟩ := hmove s hs hb
      obtain ⟨k, rfl⟩ : ∃ k, fuel' = k + 1 := ⟨fuel' - 1, by omega⟩
      rw [settleFor_succ hb, settleFor_succ hb]
      exact ih k _ h1 (by omega) (by omega)

/-- One move of an unblocked state, then settling, is settling. -/
theorem settle_move {P : State → Prop} (hP : ∀ s, P s → s.Tidy)
    (hmove : ∀ s, P s → s.blocked = false → P (move s) ∧ (move s).transfers < s.transfers) {s : State} (hs : P s)
    (hb : s.blocked = false) : settle move s = settle move (move s) := by
  obtain ⟨h1, h2⟩ := hmove s hs hb
  have h3 := s.transfers_le
  unfold settle
  rw [settleFor_succ hb]
  exact settleFor_fuel hP hmove _ _ _ h1 (by omega) (move s).transfers_le

/-! ### The two shapes of a move -/

/-- Accepting the pending response is a good move. -/
theorem State.acceptResponse_good {s : State} (ht : s.Tidy) (hp : s.phase = .respond) (hb : s.blocked = false) :
    GoodMove s s.acceptResponse := by
  have hsome := ht.respond hp
  rcases s.acceptResponse_cases with ⟨b, r, ho, hr, he⟩ | ⟨hn, -⟩
  · rw [he]
    constructor
    · rcases phaseAfter_cases s.left with ⟨h0, hh⟩ | ⟨h0, hh⟩
      · constructor <;> simp only [State.responseTaken_phase, hh] <;> simp [h0]
      · constructor <;> simp only [State.responseTaken_phase, hh] <;> simp [h0]
    · simp [State.transfers, ho]
  · rcases (s.not_blocked_iff).1 hb with ⟨hp', -⟩ | ⟨-, b, r, ho, hr⟩
    · rw [hp] at hp'; cases hp'
    · simp [ho, hr] at hn

/-- A finish that offers a response and touches neither `LEFT` nor the streams. -/
structure Offers (finish : State → State) : Prop where
  phase : ∀ t, (finish t).phase = .respond
  offer : ∀ t, (finish t).offer.isSome = true
  left : ∀ t, (finish t).left = t.left

/-- A move of a command whose status follows its payload is a good move. -/
theorem State.payloadFirst_good {s : State} {accepted : Bool} {finish : State → State} (hf : Offers finish) (ht : s.Tidy)
    (hb : s.blocked = false) : GoodMove s (s.payloadFirst accepted finish) := by
  rcases (s.not_blocked_iff).1 hb with ⟨hp, b, rest, hc⟩ | ⟨hp, -⟩
  · obtain ⟨hl, ho⟩ := ht.payload hp
    simp only [State.payloadFirst, hp, hc]
    split
    · next h0 =>
      refine ⟨⟨?_, ?_, ?_⟩, ?_⟩
      · simp [hf.phase]
      · simp [hf.phase]
      · simp [hf.offer]
      · simp only [State.transfers, hf.left, hf.offer, State.takeBeat_left, ho]
        simp
        omega
    · next h0 =>
      refine ⟨⟨?_, ?_, ?_⟩, ?_⟩
      · simp [hp]
      · intro _; exact ⟨by simpa using Nat.pos_of_ne_zero h0, by simpa using ho⟩
      · simp [hp]
      · simp [State.transfers, ho]; omega
  · simp only [State.payloadFirst, hp]
    exact State.acceptResponse_good ht hp hb

/-- What a command whose status came first does with a payload beat: it offers a response, or discards the beat. -/
structure Consumes (consume : Beat → State → State) : Prop where
  left : ∀ b t, (consume b t).left = t.left
  cases : ∀ b t, ((consume b t).phase = .respond ∧ (consume b t).offer.isSome = true) ∨
    ((consume b t).phase = phaseAfter t.left ∧ (consume b t).offer = t.offer)

/-- A move of a command whose status came first is a good move. -/
theorem State.statusFirst_good {s : State} {consume : Beat → State → State} (hc : Consumes consume) (ht : s.Tidy)
    (hb : s.blocked = false) : GoodMove s (s.statusFirst consume) := by
  rcases (s.not_blocked_iff).1 hb with ⟨hp, b, rest, hcmd⟩ | ⟨hp, -⟩
  · obtain ⟨hl, ho⟩ := ht.payload hp
    simp only [State.statusFirst, hp, hcmd]
    have hleft : (consume b s.dropBeat).left = s.left - 1 := hc.left b s.dropBeat
    rcases hc.cases b s.dropBeat with ⟨h1, h2⟩ | ⟨h1, h2⟩
    · refine ⟨⟨?_, ?_, ?_⟩, ?_⟩
      · simp [h1]
      · simp [h1]
      · simp [h2]
      · simp only [State.transfers, hleft, h2, ho]
        simp
        omega
    · have ho' : (consume b s.dropBeat).offer = none := by rw [h2]; exact ho
      rcases phaseAfter_cases s.dropBeat.left with ⟨h0, hh⟩ | ⟨h0, hh⟩
      all_goals
        rw [hh] at h1
        simp only [State.dropBeat_left] at h0
        refine ⟨⟨?_, ?_, ?_⟩, ?_⟩
        · simp [h1, ho', hleft, h0]
        · simp [h1, ho', hleft, h0]
        · simp [h1]
        · simp only [State.transfers, hleft, ho', ho]; simp; omega
  · simp only [State.statusFirst, hp]
    exact State.acceptResponse_good ht hp hb

/-! ### Every command -/

theorem initFreshFinish_offers (F : Fmt) (rows cols : Nat) : Offers (initFreshFinish F rows cols) := by
  constructor <;> intro t <;> unfold initFreshFinish <;> split <;> simp

theorem initReuseFinish_offers (F : Fmt) (handle rows cols : Nat) : Offers (initReuseFinish F handle rows cols) := by
  constructor <;> intro t <;> unfold initReuseFinish <;> split <;> simp

theorem applyConsume_consumes (F : Fmt) (handle : Nat) : Consumes (applyConsume F handle) := by
  constructor <;> intro b t <;> unfold applyConsume <;> split <;> simp [applySample]

theorem illegal_offers (w : Beat) : Offers (fun t => t.offerBeat (illegalStatus w)) := by
  constructor <;> intro t <;> simp

theorem discard_consumes : Consumes (fun _ t => t.discardBeat) := by
  constructor <;> intro b t <;> simp

/-- Every move of every command is a good move. -/
theorem moveCommand_good (i : Instr) {s : State} (ht : s.Tidy) (hb : s.blocked = false) : GoodMove s (moveCommand i s) := by
  cases i with
  | initF32 rows cols => exact State.payloadFirst_good (initFreshFinish_offers _ _ _) ht hb
  | initF64 rows cols => exact State.payloadFirst_good (initFreshFinish_offers _ _ _) ht hb
  | initF32R handle rows cols => exact State.payloadFirst_good (initReuseFinish_offers _ _ _ _) ht hb
  | initF64R handle rows cols => exact State.payloadFirst_good (initReuseFinish_offers _ _ _ _) ht hb
  | applyF32 handle nsamp => exact State.statusFirst_good (applyConsume_consumes _ _) ht hb
  | applyF64 handle nsamp => exact State.statusFirst_good (applyConsume_consumes _ _) ht hb

/-- Every move of an illegal packet is a good move. -/
theorem moveIllegal_good (w : Beat) {s : State} (ht : s.Tidy) (hb : s.blocked = false) : GoodMove s (moveIllegal w s) := by
  unfold moveIllegal
  split
  · exact State.statusFirst_good discard_consumes ht hb
  · exact State.payloadFirst_good (illegal_offers w) ht hb

/-- The first state of an INIT keeps the phases. -/
theorem State.beginInit_tidy (s : State) (w : Beat) (len : Nat) {finish : State → State} (hf : Offers finish) :
    (s.beginInit w len finish).Tidy := by
  unfold State.beginInit
  split
  · constructor <;> simp [hf.phase, hf.offer]
  · next h => constructor <;> simp; omega

/-- The first state of every command keeps the phases. -/
theorem startCommand_tidy (i : Instr) (s : State) : (startCommand i s).Tidy := by
  cases i with
  | initF32 rows cols => exact s.beginInit_tidy _ _ (initFreshFinish_offers _ _ _)
  | initF64 rows cols => exact s.beginInit_tidy _ _ (initFreshFinish_offers _ _ _)
  | initF32R handle rows cols => exact s.beginInit_tidy _ _ (initReuseFinish_offers _ _ _ _)
  | initF64R handle rows cols => exact s.beginInit_tidy _ _ (initReuseFinish_offers _ _ _ _)
  | applyF32 handle nsamp => constructor <;> simp [startCommand, startApplyF32, State.beginApply]
  | applyF64 handle nsamp => constructor <;> simp [startCommand, startApplyF64, State.beginApply]

/-- The first state of an illegal packet keeps the phases. -/
theorem startIllegal_tidy (w : Beat) (s : State) : (startIllegal w s).Tidy := by
  unfold startIllegal
  split
  · constructor <;> simp
  · next h => constructor <;> simp; omega

/-- `exec` is the command's start, settled. -/
theorem exec_eq (i : Instr) (s : State) : exec i s = .next (settle (moveCommand i) (startCommand i s)) := by
  cases i <;> rfl

/-- A command run leaves the block blocked: the command is complete, or it waits for the host. -/
theorem exec_blocked {i : Instr} {s t : State} (h : exec i s = .next t) : t.Tidy ∧ t.blocked = true := by
  rw [exec_eq] at h
  cases h
  constructor
  · exact settle_induct (P := State.Tidy) (fun s hs hb => (moveCommand_good i hs hb).tidy) _ (startCommand_tidy i s)
  · exact settle_blocked (P := State.Tidy) (fun _ h => h)
      (fun s hs hb => ⟨(moveCommand_good i hs hb).tidy, (moveCommand_good i hs hb).transfers_lt⟩) (startCommand_tidy i s)

end Sys2Proof.Machine
end

