-- ==== Sys2Proof/Laws/Illegal.lean ====
section
/-! SUPPORT. What an illegal packet can do: its step, what its moves leave unchanged, and that its settling ends blocked. -/

namespace Sys2Proof.Machine

/-- Awaiting a header, a step that gets an illegal one is that packet's start, settled. -/
theorem step_illegal {s : State} {w : Beat} {rest : List Beat} {e : Reject} (hr : s.rst = false) (hp : s.phase = .header)
    (hc : s.cmd = w :: rest) (hd : decode w = .error e) :
    step s = .next (settle (moveIllegal w) (startIllegal w { s with cmd := rest })) := by
  simp [step, hr, hp, hc, hd, execIllegal]

/-- The state that a step of a rejected packet may not write is the same in both: the banks, the draws, the parameter; and with
them HDR and `rst`, which no move writes. -/
structure Unwritten (s t : State) : Prop where
  f32 : t.f32 = s.f32
  f64 : t.f64 = s.f64
  draws : t.draws = s.draws
  maxFilters : t.maxFilters = s.maxFilters
  hdr : t.hdr = s.hdr
  rst : t.rst = s.rst

theorem Unwritten.refl (s : State) : Unwritten s s := ⟨rfl, rfl, rfl, rfl, rfl, rfl⟩

theorem Unwritten.trans {a b c : State} (h : Unwritten a b) (k : Unwritten b c) : Unwritten a c :=
  ⟨k.f32.trans h.f32, k.f64.trans h.f64, k.draws.trans h.draws, k.maxFilters.trans h.maxFilters, k.hdr.trans h.hdr,
    k.rst.trans h.rst⟩

/-- Accepting a response writes none of it. -/
theorem State.acceptResponse_unwritten (s : State) : Unwritten s s.acceptResponse := by
  rcases s.acceptResponse_cases with ⟨b, r, -, -, he⟩ | ⟨-, he⟩ <;> rw [he] <;> constructor <;> simp

/-- A move of a command whose status follows its payload writes none of it, if its finish does not. -/
theorem State.payloadFirst_unwritten {s : State} {accepted : Bool} {finish : State → State}
    (hf : ∀ t, Unwritten s t → Unwritten s (finish t)) : Unwritten s (s.payloadFirst accepted finish) := by
  have take (b : Beat) : Unwritten s (s.takeBeat accepted b) := by constructor <;> simp
  unfold State.payloadFirst
  split
  · exact .refl s
  · exact s.acceptResponse_unwritten
  · split
    · exact .refl s
    · dsimp only
      split
      · exact hf _ (take _)
      · exact take _

/-- A move of a command whose status came first writes none of it, if what it does with a payload beat does not. -/
theorem State.statusFirst_unwritten {s : State} {consume : Beat → State → State}
    (hc : ∀ b t, Unwritten s t → Unwritten s (consume b t)) : Unwritten s (s.statusFirst consume) := by
  unfold State.statusFirst
  split
  · exact .refl s
  · exact s.acceptResponse_unwritten
  · split
    · exact .refl s
    · exact hc _ _ (by constructor <;> simp)

/-- No move of an illegal packet writes any of it. -/
theorem moveIllegal_unwritten (w : Beat) (s : State) : Unwritten s (moveIllegal w s) := by
  unfold moveIllegal
  split
  · exact State.statusFirst_unwritten fun _ _ h => h.trans (by constructor <;> simp)
  · exact State.payloadFirst_unwritten fun _ h => h.trans (by constructor <;> simp)

/-- An illegal packet, settled, is complete or waits for the host. -/
theorem settle_illegal_blocked (w : Beat) (s : State) :
    (settle (moveIllegal w) (startIllegal w s)).Tidy ∧ (settle (moveIllegal w) (startIllegal w s)).blocked = true :=
  ⟨settle_induct (P := State.Tidy) (fun _ hs hb => (moveIllegal_good w hs hb).tidy) _ (startIllegal_tidy w s),
    settle_blocked (P := State.Tidy) (fun _ h => h)
      (fun _ hs hb => ⟨(moveIllegal_good w hs hb).tidy, (moveIllegal_good w hs hb).transfers_lt⟩) (startIllegal_tidy w s)⟩

end Sys2Proof.Machine
end

