-- ==== Sys2Proof/Laws/Packets.lean ====
section
/-! SUPPORT. Settling a whole packet: the response accepted, the payload drained; what the datapath keeps of a slot. -/

namespace Sys2Proof.Machine

/-! ### One response, one whole payload -/

/-- An offered response that the host accepts is taken, and settling goes on. -/
theorem settleFor_response {move : State → State} {s : State} (k : Nat) (hm : move s = s.acceptResponse)
    (hp : s.phase = .respond) {b : Beat} (ho : s.offer = some b) {r : Ready} (hr : s.ready.accept = some r) :
    settleFor move (k + 1) s = settleFor move k (s.responseTaken b r) := by
  have hb : s.blocked = false := (s.not_blocked_iff).2 (.inr ⟨hp, b, r, ho, hr⟩)
  rw [settleFor_succ hb, hm]
  simp [State.acceptResponse, ho, hr]

/-- `s` once a whole payload has been consumed, kept when `acc`. -/
def State.drained (s : State) (acc : Bool) (pay rest : List Beat) : State :=
  { s with cmd := rest, left := s.left - pay.length, got := if acc then s.got ++ pay else s.got }

/-- A payload offered whole, of a command whose status comes after it, is consumed and the command finished. -/
theorem settleFor_drain {move : State → State} {acc : Bool} {finish : State → State} {P : State → Prop}
    (hP : ∀ s b, P s → P (s.takeBeat acc b)) (hm : ∀ s, P s → move s = s.payloadFirst acc finish) (pay rest : List Beat) :
    ∀ (s : State) (k : Nat), P s → s.phase = .payload → s.cmd = pay ++ rest → pay ≠ [] → s.left = pay.length →
      settleFor move (pay.length + k) s = settleFor move k (finish (s.drained acc pay rest)) := by
  induction pay with
  | nil => intro s k _ _ _ h; exact absurd rfl h
  | cons b pay ih =>
    intro s k hs hp hc _ hl
    have hb : s.blocked = false := (s.not_blocked_iff).2 (.inl ⟨hp, b, pay ++ rest, by simpa using hc⟩)
    have hk : (b :: pay).length + k = (pay.length + k) + 1 := by simp; omega
    rw [hk, settleFor_succ hb, hm s hs]
    simp only [State.payloadFirst, hp, hc, List.cons_append]
    simp only [List.length_cons] at hl
    cases hpay : pay with
    | nil =>
      subst hpay
      simp only [State.takeBeat_left, hl]
      simp
      congr 2
      simp [State.drained, State.takeBeat, State.dropBeat, hc, hl]
    | cons c pay' =>
      have h0 : ¬(s.takeBeat acc b).left = 0 := by simp [hl, hpay]
      rw [if_neg h0, ← hpay,
        ih (s.takeBeat acc b) k (hP s b hs) (by simpa using hp) (by simp [hc]) (by simp [hpay]) (by simp [hl])]
      congr 2
      simp [State.drained, State.takeBeat, State.dropBeat, hl]
      cases acc <;> simp

/-! ### What filtering keeps of a slot -/

variable {F : Fmt}

@[simp] theorem stage_numStages (d s : Nat) (v : Slot F) (x : Value F) : (stage F d s v x).1.numStages = v.numStages := rfl

@[simp] theorem stage_coef (d s : Nat) (v : Slot F) (x : Value F) : (stage F d s v x).1.coef = v.coef := rfl

@[simp] theorem stagesFrom_numStages (k d s : Nat) (v : Slot F) (x : Value F) :
    (stagesFrom F k d s v x).1.numStages = v.numStages := by
  induction k generalizing d s v x with
  | zero => rfl
  | succ k ih => simp [stagesFrom, ih]

@[simp] theorem stagesFrom_coef (k d s : Nat) (v : Slot F) (x : Value F) : (stagesFrom F k d s v x).1.coef = v.coef := by
  induction k generalizing d s v x with
  | zero => rfl
  | succ k ih => simp [stagesFrom, ih]

@[simp] theorem cascade_numStages (d : Nat) (v : Slot F) (x : Value F) : (cascade F d v x).1.numStages = v.numStages :=
  stagesFrom_numStages _ _ _ _ _

@[simp] theorem cascade_coef (d : Nat) (v : Slot F) (x : Value F) : (cascade F d v x).1.coef = v.coef :=
  stagesFrom_coef _ _ _ _ _

@[simp] theorem filterSamples_numStages (d : Nat) (v : Slot F) (xs : List (Value F)) :
    (filterSamples F d v xs).1.numStages = v.numStages := by
  induction xs generalizing d v with
  | nil => rfl
  | cons x xs ih => simp [filterSamples, ih]

@[simp] theorem filterSamples_coef (d : Nat) (v : Slot F) (xs : List (Value F)) : (filterSamples F d v xs).1.coef = v.coef := by
  induction xs generalizing d v with
  | nil => rfl
  | cons x xs ih => simp [filterSamples, ih]

@[simp] theorem filterSamples_length (d : Nat) (v : Slot F) (xs : List (Value F)) :
    (filterSamples F d v xs).2.length = xs.length := by
  induction xs generalizing d v with
  | nil => rfl
  | cons x xs ih => simp [filterSamples, ih]

end Sys2Proof.Machine
end

