-- ==== Sys2Proof/Laws/PerInstr.lean ====
section
/-! SUPPORT. Statements about every command as syntax, one lemma a constructor: the header's OP and P bits. -/

namespace Sys2Proof.Laws.HeaderBits

/-- The header of a command carries OP `0x1` for an INIT, `0x2` for an APPLY, and its bank in P (spec/30_encoding.md R73, R74),
whatever its operands. -/
def Statement (i : Instr) : Prop :=
  opField (encode i) = (if Machine.isInit i then 0x1#4 else 0x2#4) ∧ pField (encode i) = Machine.bankBit i.bank

theorem initF32 (rows cols : Nat) : Statement (.initF32 rows cols) :=
  ⟨(initHeader_fields rfl).1, (initHeader_fields rfl).2.1⟩

theorem initF64 (rows cols : Nat) : Statement (.initF64 rows cols) :=
  ⟨(initHeader_fields rfl).1, (initHeader_fields rfl).2.1⟩

theorem initF32R (handle rows cols : Nat) : Statement (.initF32R handle rows cols) :=
  ⟨(initHeader_fields rfl).1, (initHeader_fields rfl).2.1⟩

theorem initF64R (handle rows cols : Nat) : Statement (.initF64R handle rows cols) :=
  ⟨(initHeader_fields rfl).1, (initHeader_fields rfl).2.1⟩

theorem applyF32 (handle nsamp : Nat) : Statement (.applyF32 handle nsamp) :=
  ⟨(applyHeader_fields rfl).1, (applyHeader_fields rfl).2.1⟩

theorem applyF64 (handle nsamp : Nat) : Statement (.applyF64 handle nsamp) :=
  ⟨(applyHeader_fields rfl).1, (applyHeader_fields rfl).2.1⟩

end Sys2Proof.Laws.HeaderBits
end

