-- ==== Sys2Proof/Tests/Slice0.lean ====
section
/-! SUPPORT. The model's own tests: ill-formed terms, decoding of words written from the spec's encodings, spec vectors one step
each, and for every statement with hypotheses a witness that meets them. -/

open Sys2Proof Sys2Proof.Machine

namespace Sys2Proof.Tests

/-! ### Helpers -/

/-- The state an outcome goes on to. -/
def ran (o : Host.Outcome State Fault Refusal) : Option State :=
  match o with
  | .next t => some t
  | _ => none

/-- The responses after one step. -/
def replies (s : State) : Option (List Beat) := (ran (step s)).map (·.rsp)

/-- Reset with capacity 4, the host offering `cmd` (the start state of spec/95_test_vectors.md). -/
def fed (cmd : List Beat) : State := { State.resetOf 4 with cmd := cmd }

/-- A slot of one stage: five coefficients, two delay values. -/
def oneStage (F : Fmt) (c : List (Value F)) (d1 d2 : Value F) : Slot F :=
  { numStages := 1
    coef := Vector.ofFn fun i => c.getD i.val 0#F.width
    delay := ((Vector.replicate 32 0#F.width).set 0 d1).set 1 d2 }

/-- 1.0 in each format. -/
def oneF (F : Fmt) : Value F :=
  match F with
  | .f32 => 0x3F800000#32
  | .f64 => 0x3FF0000000000000#64

/-- A NaN of each format. -/
def nanF (F : Fmt) : Value F :=
  match F with
  | .f32 => 0x7FC00000#32
  | .f64 => 0x7FF8000000000000#64

/-- The identity slot of S1 (spec/95_test_vectors.md section 2.1). -/
def identity (F : Fmt) : Slot F := oneStage F [oneF F, 0, 0, pack F true 0, pack F true 0] 0 0

/-- S1: handle 0 of each bank is the identity, the host offering `cmd`. -/
def fedS1 (cmd : List Beat) : State :=
  { State.resetOf 4 with
    f32 := { count := 1, slots := [(0, identity .f32)] }
    f64 := { count := 1, slots := [(0, identity .f64)] }
    cmd := cmd }

/-- Both banks full, at capacity 1. -/
def full (cmd : List Beat) : State := { fedS1 cmd with maxFilters := 1 }

/-- One-row payloads of the spec's matrix rows. -/
def idRow32 : List Beat := [0x3F800000, 0, 0, 0x3F800000, 0, 0]
def idRow64 : List Beat := [0x3FF0000000000000, 0, 0, 0x3FF0000000000000, 0, 0]

/-! ### Well-formedness: each check refuses an ill-formed term -/

theorem test_wf_rows : (Instr.initF32 256 6).wellFormed = false ∧ (Instr.initF64R 0 256 6).wellFormed = false := by decide
theorem test_wf_cols : (Instr.initF64 1 256).wellFormed = false ∧ (Instr.initF32R 0 1 256).wellFormed = false := by decide
theorem test_wf_handle :
    (Instr.initF32R 65536 1 6).wellFormed = false ∧ (Instr.applyF64 65536 0).wellFormed = false := by decide
theorem test_wf_nsamp : (Instr.applyF32 0 16777216).wellFormed = false := by decide

/-! ### Decoding (spec/30_encoding.md sections 2 and 8, spec/95_test_vectors.md section 2.1) -/

/-- A format I header, its fields written in R72's order from bit 63 down: 16, 16, 8, 8, 8, 2, 1, 1 and 4 bits. -/
theorem test_decode_initF32 :
    decode 0b0000000000000000000000000000000000000000000001100000000100000001#64 = .ok (.initF32 1 6) := by decide
theorem test_decode_initF64 :
    decode 0b0000000000000000000000000000000000000000000001101111111100010001#64 = .ok (.initF64 255 6) := by decide
theorem test_decode_initF32R :
    decode 0b0000000000000000111111111111111100000000000001110000001000100001#64 = .ok (.initF32R 65535 2 7) := by decide
theorem test_decode_initF64R :
    decode 0b0000000000000000000000000000010100000000000001100000001000110001#64 = .ok (.initF64R 5 2 6) := by decide
theorem test_decode_applyF32 :
    decode 0b0000000000000000000000000000000111111111111111111111111100000010#64 = .ok (.applyF32 1 16777215) := by decide
theorem test_decode_applyF64 :
    decode 0b0000000000000000000000000000000000000000000000000000001100010010#64 = .ok (.applyF64 0 3) := by decide

/-- V-E8 to V-E10: reserved operation codes. -/
theorem test_decode_reserved_op :
    decode 0x0#64 = .error .reservedOp ∧ decode 0x3#64 = .error .reservedOp ∧ decode 0x1F#64 = .error .reservedOp := by decide
/-- V-E11: APPLY with RU. -/
theorem test_decode_reserved_ru : decode 0x322#64 = .error .reservedRU := by decide
/-- V-E12: Z1. -/
theorem test_decode_reserved_z1 : decode 0x01060101#64 = .error .reservedZ1 := by decide
/-- V-E13: a handle in a fresh INIT. -/
theorem test_decode_fresh_handle : decode 0x0000000500060101#64 = .error .freshHandle := by decide
/-- V-E14: Z2. -/
theorem test_decode_reserved_z2 : decode 0x0001000000060101#64 = .error .reservedZ2 := by decide
/-- V-E15: Z0. -/
theorem test_decode_reserved_z0 : decode 0x0000000000060141#64 = .error .reservedZ0 := by decide
theorem test_decode_short : decodeBytes [1, 1, 6] = .error .shortBeat := by decide

/-- The payload lengths of V-E1, V-E11, V-E19, V-E9 and V-E21. -/
theorem test_payload_len : payloadLen 0x60101#64 = 6 ∧ payloadLen 0x322#64 = 3 ∧ payloadLen 0x61101#64 = 102 ∧
    payloadLen 0x3#64 = 0 ∧ payloadLen 0xFFFFFF02#64 = 16777215 := by decide

/-- V-E24: the header as bytes, and the binary64 value 1.5. -/
theorem test_bytes : bytesOfBeat 0x60101#64 = [1, 1, 6, 0, 0, 0, 0, 0] ∧
    bytesOfBeat 0x3FF8000000000000#64 = [0, 0, 0, 0, 0, 0, 0xF8, 0x3F] := by decide

theorem test_table_word : decodeTableWord 64 0x0000FFFFFFFFFF12 = some (.applyF64 65535 16777215) ∧
    decodeTableWord 64 0x322 = none := by decide

/-- Each constructor's header, encoded, is the worked beat (spec/30_encoding.md section 8). -/
theorem test_encode : encode (.initF32 1 6) = 0x60101#64 ∧ encode (.initF64 1 6) = 0x60111#64 ∧
    encode (.initF32R 0 1 6) = 0x60121#64 ∧ encode (.initF64R 5 2 6) = 0x0000000500060231#64 ∧
    encode (.applyF32 1 4) = 0x0000000100000402#64 ∧ encode (.applyF64 0 3) = 0x312#64 := by decide

/-- After reset with the packet placed, the very next step runs it. -/
theorem test_fetch_word : ran (step (State.reset.withFetchWord 64 0x0000000000000112)) =
    ran (exec (.applyF64 0 1) { State.reset with cmd := [0#64] }) := by rfl

/-! ### Spec vectors, one step each -/

/-- V-I1 in bank 0: the row is transcoded, the second denominator coefficients negated. -/
theorem test_initF32 : (ran (step (fed [0x60101, 0x3F000000, 0x3E800000, 0x3E000000, 0x3F800000, 0xBF400000, 0x3EC00000]))).map
      (fun t => (t.rsp, t.f32.count, (List.range 6).map fun i => ((t.slot .f32 0).coefAt i).toNat)) =
    some ([0x0001000000000000], 1, [0x3F000000, 0x3E800000, 0x3E000000, 0x3F400000, 0xBEC00000, 0]) := by decide +kernel
/-- V-E17: the shape error, and V-I6's priority of it over a full registry. -/
theorem test_initF32_shape : replies (full (0x50101 :: List.replicate 5 0)) = some [0x0001000000000001] := by decide +kernel

/-- V-I1 in bank 1. -/
theorem test_initF64 : (ran (step (fed [0x60111, 0x3FE0000000000000, 0x3FD0000000000000, 0x3FC0000000000000, 0x3FF0000000000000,
      0xBFE8000000000000, 0x3FD8000000000000]))).map
      (fun t => (t.rsp, t.f64.count, (List.range 5).map fun i => ((t.slot .f64 0).coefAt i).toNat)) =
    some ([0x0001000000000010], 1, [0x3FE0000000000000, 0x3FD0000000000000, 0x3FC0000000000000, 0x3FE8000000000000,
      0xBFD8000000000000]) := by decide +kernel
/-- V-I6, in bank 1: capacity exceeded. -/
theorem test_initF64_capacity : replies (full (0x60111 :: idRow64)) = some [0x0001000000000012] := by decide +kernel

/-- V-I11's rejected reuse keeps the slot; V-I7's invalid handle. -/
theorem test_initF32R_invalid : (ran (step (fedS1 (0x0000000100060121 :: idRow32)))).map (fun t => (t.rsp, t.f32.slots)) =
    some ([0x0001000000000003], [(0, identity .f32)]) := by decide +kernel
/-- V-I8: the shape error comes before the invalid handle. -/
theorem test_initF32R_shape : replies (fedS1 (0x0000000700050121 :: List.replicate 5 0)) = some [0x0001000000000001] := by
  decide +kernel

/-- V-I10, in bank 1: a reuse clears the delay registers and leaves COUNT. -/
theorem test_initF64R : (ran (step { fedS1 (0x60131 :: idRow64) with
      f64 := { count := 1, slots := [(0, oneStage .f64 [oneF .f64] (oneF .f64) (oneF .f64))] } })).map
      (fun t => (t.rsp, t.f64)) =
    some ([0x0001000000000010], { count := 1, slots := [(0, identity .f64)] }) := by decide +kernel

/-- V-E22: payload placement in bank 0. -/
theorem test_applyF32_placement : replies (fedS1 [0x102, 0xDEADBEEF3F800000]) =
    some [0x0002000000000100, 0x3F800000] := by decide +kernel
/-- V-A8: `d1` takes the old `d2`. -/
theorem test_applyF32_delay : (ran (step { fedS1 [0x402, 0x3F800000, 0x40000000, 0x40400000, 0x40800000] with
      f32 := { count := 1, slots := [(0, oneStage .f32 [0, 0, oneF .f32, pack .f32 true 0, pack .f32 true 0] 0 0)] } })).map
      (fun t => (t.rsp, (t.slot .f32 0).delayAt 0, (t.slot .f32 0).delayAt 1)) =
    some ([0x0002000000000400, 0, 0, 0x3F800000, 0x40000000], 0x40400000, 0x40800000) := by decide +kernel

/-- V-A13, first two samples, in bank 1: the inexact coefficient 0.1. -/
theorem test_applyF64 : replies { fedS1 [0x212, 0x3FF0000000000000, 0x3FF0000000000000] with
      f64 := { count := 1, slots := [(0, oneStage .f64
        [0x3FB999999999999A, 0x3FB999999999999A, 0, 0x3FECCCCCCCCCCCCD, pack .f64 true 0] 0 0)] } } =
    some [0x0002000000000210, 0x3FB999999999999A, 0x3FD28F5C28F5C290] := by decide +kernel
/-- V-A4, one sample, in bank 1: a NaN input is answered with one output; the operations on it give a NaN, whichever it is. -/
theorem test_applyF64_nan : (replies (fedS1 [0x112, 0x7FF8000000000000])).map (fun r => (r.length, r.take 1)) =
      some (2, [0x0002000000000110]) ∧
    ∀ d, isNaN (fmul .f64 d (oneF .f64) (nanF .f64)) = true ∧ isNaN (fadd .f64 d (nanF .f64) 0) = true := by
  refine ⟨by decide +kernel, fun d => ⟨?_, ?_⟩⟩
  · rw [fmul, if_pos (by decide +kernel)]; exact isNaN_quietNaN _ _
  · rw [fadd, if_pos (by decide +kernel)]; exact isNaN_quietNaN _ _

/-- V-E11: an illegal APPLY header: status first, its three payload beats discarded. -/
theorem test_illegal : (ran (step (fedS1 [0x322, 1, 2, 3, 0x102]))).map (fun t => (t.rsp, t.cmd, t.f32.count)) =
    some ([0x0002000000000004], [0x102], 1) := by decide +kernel

/-! ### Arithmetic (V-A12, V-A6, V-I2, and ties) -/

theorem test_mul_subnormal_tie : fmul .f32 0 0x3F000000#32 0x00000001#32 = 0x00000000#32 ∧
    fmul .f32 0 0x3F000000#32 0x00000003#32 = 0x00000002#32 ∧
    fmul .f64 0 0x3FE0000000000000#64 0x0010000000000000#64 = 0x0008000000000000#64 := by decide +kernel
theorem test_mul_overflow : fmul .f32 0 0x40000000#32 0x7F61B1E6#32 = 0x7F800000#32 ∧
    fmul .f64 0 0x4000000000000000#64 0x7FE1CCF385EBC8A0#64 = 0x7FF0000000000000#64 := by decide +kernel
theorem test_add_zero_signs : fadd .f32 0 0x80000000#32 0x00000000#32 = 0x00000000#32 ∧
    fadd .f32 0 0x80000000#32 0x80000000#32 = 0x80000000#32 := by decide +kernel
theorem test_neg_nan : fneg .f32 0x7F800001#32 = 0xFF800001#32 ∧ fneg .f32 0x7FC00000#32 = 0xFFC00000#32 := by decide

/-! ### The invariant's witnesses -/

theorem identity_reads (F : Fmt) : slotRead [(0, identity F)] 0 = identity F ∧
    ∀ h, 1 ≤ h → slotRead [(0, identity F)] h = Slot.zero F := by
  refine ⟨rfl, fun h hh => ?_⟩
  have : h ≠ 0 := by omega
  simp [slotRead, this]

theorem delayAt_zero (F : Fmt) (i : Nat) : (Slot.zero F).delayAt i = 0#F.width := by
  by_cases hi : i < 32 <;> simp [Slot.delayAt, Slot.zero, Vector.getD, hi]

theorem delayAt_identity (F : Fmt) (i : Nat) (hi : 2 ≤ i) : (identity F).delayAt i = 0#F.width := by
  by_cases h : i < 32
  · have h0 : (0 : Nat) ≠ i := by omega
    have h1 : (1 : Nat) ≠ i := by omega
    simp [Slot.delayAt, identity, oneStage, Vector.getD, h]
  · simp [Slot.delayAt, Vector.getD, h]

theorem identity_bank_inv (F : Fmt) (m : Nat) (hm : 1 ≤ m) :
    BankInv m ({ count := 1, slots := [(0, identity F)] } : Bank F) where
  count_le := hm
  wf := by cases F <;> decide +kernel
  allocated h hh := by
    have : h = 0 := by simp only at hh; omega
    subst this; rw [(identity_reads F).1]; exact ⟨Nat.le_refl 1, Nat.succ_le_succ (Nat.zero_le 15)⟩
  unallocated h hh := (identity_reads F).2 h hh
  unused_delay h i hi := by
    by_cases h0 : h = 0
    · subst h0; exact delayAt_identity F i hi
    · rw [(identity_reads F).2 h (by omega)]; exact delayAt_zero F i

theorem witness_inv (cmd : List Beat) : (fedS1 cmd).Inv where
  max_pos := show 1 ≤ 4 by decide
  max_le := show 4 ≤ 65536 by decide
  f32 := identity_bank_inv .f32 4 (by decide)
  f64 := identity_bank_inv .f64 4 (by decide)
  header _ := ⟨rfl, rfl⟩
  payload h := by cases h
  respond h := by cases h
  window := show 0 + 0 ≤ 2 ^ 24 - 1 by decide
  status_last h := by cases h
  kept h := by cases h
  position h := absurd rfl h

theorem witness_inv_full (cmd : List Beat) : (full cmd).Inv :=
  { witness_inv cmd with
    max_pos := Nat.le_refl 1
    max_le := show 1 ≤ 65536 by decide
    f32 := identity_bank_inv .f32 1 (by decide)
    f64 := identity_bank_inv .f64 1 (by decide)
    kept := fun h => by cases h
    position := fun h => absurd rfl h }

/-- An invariant state inside a command: an APPLY of bank 1 whose second sample has not come. -/
def waiting : State :=
  { fedS1 [] with phase := .payload, hdr := 0x0000000000000212, left := 1, n := 1, rsp := [0x0002000000000210, 0] }

theorem witness_inv_waiting : waiting.Inv :=
  { witness_inv [] with
    header := fun h => by cases h
    payload := fun _ => ⟨by decide, rfl⟩
    respond := fun h => by cases h
    window := by decide
    status_last := fun h => by cases h
    kept := fun _ i hi hinit => by
      have hd : decode waiting.hdr = .ok (.applyF64 0 2) := by decide
      rw [hd] at hi; cases hi; cases hinit
    position := fun _ i hi _ _ => by
      have hd : decode waiting.hdr = .ok (.applyF64 0 2) := by decide
      rw [hd] at hi; cases hi; rfl }

/-! ### Witnesses of the statements' hypotheses, in the order of Certificates/Slice0/Obligations.lean -/

theorem witness_DecodeOfEncode : (Instr.initF32 255 255).wellFormed = true ∧ (Instr.initF64 0 0).wellFormed = true ∧
    (Instr.initF32R 65535 255 0).wellFormed = true ∧ (Instr.initF64R 0 0 255).wellFormed = true ∧
    (Instr.applyF32 65535 16777215).wellFormed = true ∧ (Instr.applyF64 0 0).wellFormed = true := by decide

theorem witness_EncodeOfDecode : decode 0x0000FFFF00FFFF21#64 = .ok (.initF32R 65535 255 255) := by decide

/-- One header for each way of being illegal, and a legal one. -/
theorem witness_IllegalHeadersExactly : (∃ e, decode 0xF#64 = .error e) ∧ (∃ e, decode 0x81#64 = .error e) ∧
    (∃ e, decode 0x80000001#64 = .error e) ∧ (∃ e, decode 0x8000000000000001#64 = .error e) ∧
    (∃ e, decode 0x0000800000000001#64 = .error e) ∧ (∃ e, decode 0x22#64 = .error e) ∧ (∃ e, decode 0x42#64 = .error e) ∧
    (∃ e, decode 0x0001000000000002#64 = .error e) ∧ decode 0x2#64 = .ok (.applyF32 0 0) :=
  ⟨⟨.reservedOp, by decide⟩, ⟨.reservedZ0, by decide⟩, ⟨.reservedZ1, by decide⟩, ⟨.reservedZ2, by decide⟩,
    ⟨.freshHandle, by decide⟩, ⟨.reservedRU, by decide⟩, ⟨.reservedZ0, by decide⟩, ⟨.reservedZ2, by decide⟩, by decide⟩

theorem witness_StatusBeatFields : (16777215 < 2 ^ 24 ∧ 65535 < 2 ^ 16) ∧
    statusBeat .ok 1 16777215 65535 2 = 0x0002FFFFFFFFFF10#64 := by decide

theorem witness_BytesLittleEndian : (7 : Nat) < 8 ∧ ((bytesOfBeat 0x80#64).getD 0 0#8).getLsbD 7 = true := by decide

theorem witness_ValuesInBeats : (31 : Nat) < 32 ∧ (valueOfBeat .f32 0xFFFFFFFF80000000#64).getLsbD 31 = true := by decide

theorem witness_StepRunsDecodedCommand : (fed [0x12, 7]).rst = false ∧ (fed [0x12, 7]).phase = .header ∧
    (fed [0x12, 7]).cmd = 0x12 :: [7] ∧ decode 0x12#64 = .ok (.applyF64 0 0) := by decide

theorem witness_ResetEdgeAbandonsCommand : ({ waiting with rst := true } : State).rst = true := rfl

theorem witness_IllegalPacketRejected :
    (∃ e, decode 0x322#64 = .error e) ∧ (fed [0x322, 1, 2, 3, 0x12]).ready = .always ∧
    (fed [0x322, 1, 2, 3, 0x12]).rst = false ∧ (fed [0x322, 1, 2, 3, 0x12]).phase = .header ∧
    (fed [0x322, 1, 2, 3, 0x12]).cmd = 0x322 :: ([1, 2, 3] ++ [0x12]) ∧ [1, 2, 3].length = payloadLen 0x322#64 :=
  ⟨⟨.reservedRU, by decide⟩, rfl, rfl, rfl, rfl, by decide⟩

/-- Its step to the state after the illegal packet, for each of the three orders a response may have. -/
theorem witness_NextCommandUnaffected : (∃ t, step (fed [0x322, 1, 2, 3, 0x12]) = .next t) ∧
    (fed [0x322, 1, 2, 3, 0x12]).cmd = 0x322 :: ([1, 2, 3] ++ 0x12 :: []) ∧ decode 0x12#64 = .ok (.applyF64 0 0) :=
  ⟨⟨_, rfl⟩, rfl, by decide⟩

/-- A state, a payload and a rest for each branch: no columns, 17 rows, the registry full, and the load; both banks. -/
theorem witness_FreshInitEffect :
    ((fed [9]).ready = .always ∧ (fed [9]).cmd = [] ++ [9] ∧ ([] : List Beat).length = 16 * 0) ∧
    ((fed (List.replicate 102 0)).cmd = List.replicate 102 0 ++ [] ∧ (List.replicate 102 (0 : Beat)).length = 17 * 6) ∧
    ((full (idRow32 ++ [9])).ready = .always ∧ (full (idRow32 ++ [9])).cmd = idRow32 ++ [9] ∧ idRow32.length = 1 * 6 ∧
      ((full (idRow32 ++ [9])).bank .f32).count = (full (idRow32 ++ [9])).maxFilters) ∧
    ((fed (idRow64 ++ [9])).cmd = idRow64 ++ [9] ∧ idRow64.length = 1 * 6 ∧
      ((fed (idRow64 ++ [9])).bank .f64).count ≠ (fed (idRow64 ++ [9])).maxFilters) := by decide +kernel

theorem witness_ReuseInitEffect :
    ((fedS1 []).ready = .always ∧ (fedS1 []).cmd = [] ++ [] ∧ ([] : List Beat).length = 0 * 6) ∧
    ((fedS1 idRow32).cmd = idRow32 ++ [] ∧ idRow32.length = 1 * 6 ∧ ((fedS1 idRow32).bank .f32).count ≤ 1) ∧
    ((fedS1 idRow64).cmd = idRow64 ++ [] ∧ idRow64.length = 1 * 6 ∧ ¬((fedS1 idRow64).bank .f64).count ≤ 0) := by
  decide +kernel

/-- Sixteen rows fill COEF, entry 79 included; with one row, entry 5 keeps its value (V-I9). -/
theorem witness_LoadSlotContents : (16 : Nat) ≤ 16 ∧
    (loadSlot .f32 16 (List.replicate 95 0 ++ [0x3F800000]) (Slot.zero .f32)).coefAt 79 = 0xBF800000#32 ∧
    (loadSlot .f32 1 idRow32 (loadSlot .f32 2 (List.replicate 12 0x40C00000) (Slot.zero .f32))).coefAt 5 = 0x40C00000#32 := by
  decide +kernel

/-- Two matrices that differ in column 3 (V-I3). -/
theorem witness_LeadingCoefficientIgnored : ∀ k, k % 6 ≠ 3 →
    elem .f32 [1, 2, 3, 0x7FC00000, 5, 6] k = elem .f32 [1, 2, 3, 0x3F800000, 5, 6] k := by
  intro k hk
  match k, hk with
  | 0, _ => rfl
  | 1, _ => rfl
  | 2, _ => rfl
  | 3, h => exact absurd rfl h
  | 4, _ => rfl
  | 5, _ => rfl
  | _ + 6, _ => rfl

theorem witness_FreshHandlesInOrder :
    let packets := [(1, idRow32), (2, idRow32 ++ idRow32)]
    let s := fedS1 (packets.flatMap (fun p => encode (freshInit .f32 p.1 6) :: p.2) ++ [9])
    s.rst = false ∧ s.phase = .header ∧ s.ready = .always ∧ (∀ p ∈ packets, 1 ≤ p.1 ∧ p.1 ≤ 16 ∧ p.2.length = 6 * p.1) ∧
      (s.bank .f32).count + packets.length ≤ s.maxFilters := by decide +kernel

theorem witness_ReuseInitIdempotent : (fedS1 (idRow64 ++ [9])).Inv ∧ (fedS1 (idRow64 ++ [9])).ready = .always ∧
    idRow64.length = 1 * 6 ∧ ∃ t u, exec (reuseInit .f64 0 1 6) (fedS1 (idRow64 ++ [9])) = .next t ∧
      exec (reuseInit .f64 0 1 6) { t with cmd := idRow64 ++ [9] } = .next u :=
  ⟨witness_inv _, rfl, rfl, _, _, rfl, rfl⟩

theorem witness_FreshInitFrame : (fedS1 idRow32).Inv ∧ ∃ t, exec (freshInit .f32 1 6) (fedS1 idRow32) = .next t ∧
    (t.bank .f32).count = 2 := ⟨witness_inv _, _, rfl, by decide +kernel⟩

theorem witness_ReuseInitFrame : (fedS1 idRow32).Inv ∧ ∃ t, exec (reuseInit .f32 0 1 6) (fedS1 idRow32) = .next t :=
  ⟨witness_inv _, _, rfl⟩

/-- Each branch: a valid and an invalid handle, with samples. -/
theorem witness_ApplyEffect : slotsWf ((fedS1 [1, 2, 9]).bank .f64).slots = true ∧ (fedS1 [1, 2, 9]).ready = .always ∧
    (fedS1 [1, 2, 9]).cmd = [1, 2] ++ [9] ∧ [1, 2].length = 2 ∧ ¬((fedS1 [1, 2, 9]).bank .f64).count ≤ 0 ∧
    ((fedS1 [1, 2, 9]).bank .f64).count ≤ 1 := by decide +kernel

theorem witness_EmptyApply : (fedS1 [9]).ready = .always ∧ 0 < ((fedS1 [9]).bank .f32).count ∧
    ¬1 < ((fedS1 [9]).bank .f32).count := by decide

theorem witness_ApplyFrame : (fedS1 [0x3F800000]).Inv ∧
    ∃ t, exec (applyCmd .f32 0 1) (fedS1 [0x3F800000]) = .next t ∧ t.rsp.length = 2 :=
  ⟨witness_inv _, _, rfl, by decide +kernel⟩

/-- With `k = 0`, and with `k` the number of samples. -/
theorem witness_ApplyAlternatesBeats : ∀ k ∈ [0, 2],
    let s : State := { fedS1 [1, 2, 9] with ready := .atMost k }
    slotsWf (s.bank .f32).slots = true ∧ 0 < (s.bank .f32).count ∧ s.ready = .atMost k ∧ s.cmd = [1, 2] ++ [9] ∧
      k ≤ [1, 2].length ∧ s.rst = false := by decide +kernel

theorem witness_StatusOrder : ({ fedS1 (idRow32 ++ [9]) with ready := .atMost 0 } : State).ready = .atMost 0 ∧
    isInit (.initF32 1 6) = true ∧ ({ fedS1 (idRow32 ++ [9]) with ready := .atMost 0 } : State).cmd = idRow32 ++ [9] ∧
    idRow32.length = (Instr.initF32 1 6).payloadBeats ∧
    isInit (.initF64R 0 2 6) = true ∧ (fedS1 idRow64).cmd.length < (Instr.initF64R 0 2 6).payloadBeats := by decide

/-- For each clause a state that meets its hypotheses: OP `0x2`, a whole payload of OP `0x1`, the empty one of a reserved OP, and a
payload one beat short. -/
theorem witness_IllegalStatusOrder :
    (let s : State := { fed [0x322, 1, 2] with ready := .atMost 0 }
     s.rst = false ∧ s.phase = .header ∧ s.ready = .atMost 0 ∧ s.cmd = 0x322 :: ([1, 2] ++ []) ∧
      (∃ e, decode 0x322#64 = .error e) ∧ opField 0x322#64 = 0x2#4) ∧
    (let s : State := { fed [0x1020141, 1, 2, 9] with ready := .atMost 0 }
     s.rst = false ∧ s.phase = .header ∧ s.ready = .atMost 0 ∧ s.cmd = 0x1020141 :: ([1, 2] ++ [9]) ∧
      (∃ e, decode 0x1020141#64 = .error e) ∧ opField 0x1020141#64 ≠ 0x2#4 ∧ [1, 2].length = payloadLen 0x1020141#64) ∧
    (let s : State := { fed [0x3, 9] with ready := .atMost 0 }
     s.rst = false ∧ s.phase = .header ∧ s.ready = .atMost 0 ∧ s.cmd = 0x3 :: ([] ++ [9]) ∧
      (∃ e, decode 0x3#64 = .error e) ∧ opField 0x3#64 ≠ 0x2#4 ∧ ([] : List Beat).length = payloadLen 0x3#64) ∧
    (let s : State := fed [0x1020141, 1]
     s.rst = false ∧ s.phase = .header ∧ s.cmd = 0x1020141 :: ([1] ++ []) ∧
      (∃ e, decode 0x1020141#64 = .error e) ∧ opField 0x1020141#64 ≠ 0x2#4 ∧ [1].length < payloadLen 0x1020141#64) :=
  ⟨⟨rfl, rfl, rfl, rfl, ⟨.reservedRU, by decide⟩, by decide⟩, ⟨rfl, rfl, rfl, rfl, ⟨.reservedZ0, by decide⟩, by decide⟩,
    ⟨rfl, rfl, rfl, rfl, ⟨.reservedOp, by decide⟩, by decide⟩, rfl, rfl, rfl, ⟨.reservedZ0, by decide⟩, by decide⟩

theorem witness_ShortPayloadWaits : (fedS1 [1]).ready = .always ∧ (fedS1 [1]).rst = false ∧
    (fedS1 [1]).cmd.length < (Instr.applyF32 0 2).payloadBeats ∧
    (fedS1 [1]).cmd.length < (Instr.initF64R 0 255 255).payloadBeats := by decide

theorem witness_IllegalShortPayloadWaits : (fedS1 [0x322, 1, 2]).rst = false ∧ (fedS1 [0x322, 1, 2]).phase = .header ∧
    (fedS1 [0x322, 1, 2]).ready = .always ∧ (fedS1 [0x322, 1, 2]).cmd = 0x322 :: [1, 2] ∧ (∃ e, decode 0x322#64 = .error e) ∧
    ([1, 2] : List Beat).length < payloadLen 0x322#64 :=
  ⟨rfl, rfl, rfl, rfl, ⟨.reservedRU, by decide⟩, by decide⟩

theorem witness_PayloadInPieces : (Instr.initF32 1 6).wellFormed = true ∧ (fedS1 [1, 2]).rst = false ∧
    ∃ t, exec (.initF32 1 6) (fedS1 [1, 2]) = .next t ∧ t.phase = .payload :=
  ⟨by decide, rfl, _, rfl, by decide +kernel⟩

theorem witness_IllegalPayloadInPieces : (fedS1 [0x322, 1]).rst = false ∧ (fedS1 [0x322, 1]).phase = .header ∧
    (fedS1 [0x322, 1]).cmd = 0x322 :: [1] ∧ (∃ e, decode 0x322#64 = .error e) ∧
    ∃ t, step (fedS1 [0x322, 1]) = .next t ∧ t.phase = .payload :=
  ⟨rfl, rfl, rfl, ⟨.reservedRU, by decide⟩, _, rfl, by decide +kernel⟩

theorem witness_ApplyContinues : slotsWf ((fedS1 [1, 2, 3, 9]).bank .f32).slots = true ∧
    0 < ((fedS1 [1, 2, 3, 9]).bank .f32).count ∧ (fedS1 [1, 2, 3, 9]).ready = .always ∧
    (fedS1 [1, 2, 3, 9]).cmd = [1, 2] ++ [3] ++ [9] := by decide +kernel

/-- Two handles of one bank with equal contents. -/
theorem witness_ApplyDeterministic :
    let s := fedS1 [1, 2, 9]
    let s' : State := { fedS1 [1, 2] with f64 := { count := 3, slots := [(2, identity .f64)] }, draws := 5 }
    slotsWf (s.bank .f64).slots = true ∧ slotsWf (s'.bank .f64).slots = true ∧ 0 < (s.bank .f64).count ∧
      2 < (s'.bank .f64).count ∧ s.ready = .always ∧ s'.ready = .always ∧ s.cmd = [1, 2] ++ [9] ∧ s'.cmd = [1, 2] ++ [] ∧
      s.slot .f64 0 = s'.slot .f64 2 := by decide +kernel

theorem witness_ZeroInputGivesZeros :
    let s := fedS1 (List.replicate 2 0 ++ [9])
    slotsWf (s.bank .f32).slots = true ∧ 0 < (s.bank .f32).count ∧ s.ready = .always ∧
      s.slot .f32 0 = loadSlot .f32 1 idRow32 (Slot.zero .f32) ∧
      (∀ j, j < 5 * 1 → isFinite ((s.slot .f32 0).coefAt j) = true) := by decide +kernel

theorem witness_NanPersists : 0 < (oneStage .f64 [] (nanF .f64) 0).numStages ∧
    (oneStage .f64 [] (nanF .f64) 0).numStages ≤ 16 ∧ isNaN ((oneStage .f64 [] (nanF .f64) 0).delayAt (2 * 0)) = true := by
  decide +kernel

theorem witness_StageRecursion : (0 : Nat) < 16 ∧ (15 : Nat) < 16 := by decide

/-- Finite operands whose product overflows, and finite operands whose product is in range and a tie. -/
theorem witness_MulRoundsToNearestEven :
    (isFinite (F := .f32) 0x7F7FFFFF#32 = true ∧
      (overflowUnits .f32 : Int) * 2 ^ unitExp .f32 ≤ |intOf (F := .f32) 0x7F7FFFFF#32 * intOf (F := .f32) 0x7F7FFFFF#32|) ∧
    (isFinite (F := .f32) 0x3F000000#32 = true ∧ isFinite (F := .f32) 0x00000001#32 = true ∧
      |intOf (F := .f32) 0x3F000000#32 * intOf (F := .f32) 0x00000001#32| < (overflowUnits .f32 : Int) * 2 ^ unitExp .f32) := by
  decide +kernel

/-- Half a unit above the largest finite value overflows; the largest value alone does not; an exact zero is a clause of its own. -/
theorem witness_AddRoundsToNearestEven :
    (isFinite (F := .f32) 0x7F7FFFFF#32 = true ∧ isFinite (F := .f32) 0x73000000#32 = true ∧
      (overflowUnits .f32 : Int) ≤ |intOf (F := .f32) 0x7F7FFFFF#32 + intOf (F := .f32) 0x73000000#32|) ∧
    |intOf (F := .f32) 0x7F7FFFFF#32 + intOf (F := .f32) 0x00000000#32| < (overflowUnits .f32 : Int) ∧
    intOf (F := .f32) 0x7F7FFFFF#32 + intOf (F := .f32) 0x73000000#32 ≠ 0 := by decide +kernel

/-- A value of each class the clauses name. -/
theorem witness_MulSpecialCases : isNaN (F := .f32) 0x7F800001#32 = true ∧ isInf (F := .f32) 0xFF800000#32 = true ∧
    isZero (F := .f32) 0x80000000#32 = true ∧ isFinite (F := .f32) 0x7F7FFFFF#32 = true ∧
    isNaN (fmul .f32 0 0x80000000#32 0x3F800000#32) = false ∧ isNaN (F := .f32) 0x3F800000#32 = false ∧
    isZero (F := .f32) 0x3F800000#32 = false := by decide +kernel

theorem witness_AddSpecialCases : isNaN (F := .f64) 0xFFFFFFFFFFFFFFFF#64 = true ∧
    (isInf (F := .f64) 0x7FF0000000000000#64 = true ∧ isInf (F := .f64) 0xFFF0000000000000#64 = true ∧
      signOf (F := .f64) 0x7FF0000000000000#64 ≠ signOf (F := .f64) 0xFFF0000000000000#64) ∧
    (isInf (F := .f64) 0x3FF0000000000000#64 = false ∧ isNaN (F := .f64) 0x3FF0000000000000#64 = false ∧
      isFinite (F := .f64) 0x0000000000000001#64 = true ∧ isZero (F := .f64) 0x0000000000000001#64 = false) ∧
    isZero (F := .f64) 0x8000000000000000#64 = true := by decide +kernel

theorem witness_NanResultsAreQuiet (d : Nat) : isNaN (fmul .f32 d (nanF .f32) 0) = true ∧
    isNaN (fadd .f32 d (nanF .f32) 0) = true := by
  constructor
  · rw [fmul, if_pos (by decide +kernel)]; exact isNaN_quietNaN _ _
  · rw [fadd, if_pos (by decide +kernel)]; exact isNaN_quietNaN _ _

theorem witness_NegFlipsSignBit : 30 < Fmt.width .f32 - 1 ∧ 62 < Fmt.width .f64 - 1 := by decide

theorem witness_ResetHasInvariant : (1 : Nat) ≤ 1 ∧ (65536 : Nat) ≤ 65536 := by decide

/-- From a state between commands, from one inside a command, and at a reset edge. -/
theorem witness_StepKeepsInvariant :
    ((fedS1 [0x12]).Inv ∧ ∃ t, step (fedS1 [0x12]) = .next t) ∧ (waiting.Inv ∧ ∃ t, step waiting = .next t) :=
  ⟨⟨witness_inv _, _, rfl⟩, witness_inv_waiting, _, rfl⟩

/-- A reset edge, a step that leaves COUNT and one that advances it. -/
theorem witness_CountNeverDecreases : (∃ t, step { waiting with rst := true } = .next t) ∧ (waiting.rst = false ∧ ∃ t, step waiting = .next t) ∧
    ((fed (0x60101 :: idRow32)).rst = false ∧
      ∃ t, step (fed (0x60101 :: idRow32)) = .next t ∧ (t.bank .f32).count = 1) :=
  ⟨⟨_, rfl⟩, ⟨rfl, _, rfl⟩, rfl, _, rfl, by decide +kernel⟩

theorem witness_BanksIndependent : Fmt.f64 ≠ (Instr.applyF32 0 1).bank ∧
    ∃ t, exec (.applyF32 0 1) (fedS1 [0x3F800000]) = .next t := ⟨by decide, _, rfl⟩

/-- Each error of a decoded command. -/
theorem witness_RejectedCommandWritesNothing : verdict (.initF32 1 5) (fedS1 []) = .shapeError ∧
    verdict (.initF64 1 6) (full []) = .capacityExceeded ∧ verdict (.applyF64 1 3) (fedS1 []) = .invalidHandle ∧
    ∃ t, exec (.applyF64 1 3) (fedS1 [1, 2, 3]) = .next t :=
  ⟨by decide, by decide, by decide, _, rfl⟩

/-- An illegal header, an illegal packet that goes on, and a rejected APPLY that goes on. -/
theorem witness_RejectedPacketWritesNothing :
    ((fedS1 [0x322, 1]).rst = false ∧ (fedS1 [0x322, 1]).phase = .header ∧ (fedS1 [0x322, 1]).cmd = 0x322 :: [1] ∧
      (∃ e, decode 0x322#64 = .error e) ∧ ∃ t, step (fedS1 [0x322, 1]) = .next t) ∧
    (let s : State := { waiting with hdr := 0x322, cmd := [1] }
     s.rst = false ∧ s.phase ≠ .header ∧ (∃ e, decode s.hdr = .error e) ∧ ∃ t, step s = .next t) ∧
    (let s : State := { waiting with hdr := 0x0000000100000212, cmd := [1] }
     s.rst = false ∧ s.phase ≠ .header ∧ (∃ i, decode s.hdr = .ok i ∧ verdict i s ≠ .ok) ∧ ∃ t, step s = .next t) :=
  ⟨⟨rfl, rfl, rfl, ⟨.reservedRU, by decide⟩, _, rfl⟩, ⟨rfl, by decide, ⟨.reservedRU, by decide⟩, _, rfl⟩,
    rfl, by decide, ⟨.applyF64 1 2, by decide, by decide⟩, _, rfl⟩

theorem witness_StepStopsOnlyForHost : waiting.Inv := witness_inv_waiting

end Sys2Proof.Tests
end

/-! PROOFS. O29: the host may offer more command beats before a command's moves or after them (`State.feed`), and settling ends
in the same state; the header kept in HDR says which command a resumed packet is. -/

namespace Sys2Proof

/-! ### The header of a well-formed command decodes to it (spec/30_encoding.md R77, R78) -/

/-- A fresh INIT's header decodes to it. -/
theorem decode_encode_freshInit (F : Fmt) {rows cols : Nat} (hs : shapeFits rows cols = true) :
    decode (encode (Machine.freshInit F rows cols)) = .ok (Machine.freshInit F rows cols) := by
  have hw : encode (Machine.freshInit F rows cols) = initHeader (Machine.bankBit F) 0#1 0 rows cols := by cases F <;> rfl
  obtain ⟨hop, hp, hru, hz0, hz1, hz2, hr, hc, hh⟩ := initHeader_fields hw
  obtain ⟨hrows, hcols⟩ : rows < 2 ^ 8 ∧ cols < 2 ^ 8 := by simpa [shapeFits] using hs
  rw [decode_eq]
  simp only [rowsField, colsField, hop, hp, hru, hz0, hz1, hz2, hr, hc, hh, BitVec.toNat_ofNat, Nat.mod_eq_of_lt hrows,
    Nat.mod_eq_of_lt hcols]
  cases F <;> simp [Machine.bankBit, Machine.freshInit]

/-- An INIT.R's header decodes to it. -/
theorem decode_encode_reuseInit (F : Fmt) {handle rows cols : Nat} (hf : handleFits handle = true)
    (hs : shapeFits rows cols = true) :
    decode (encode (Machine.reuseInit F handle rows cols)) = .ok (Machine.reuseInit F handle rows cols) := by
  have hw : encode (Machine.reuseInit F handle rows cols) = initHeader (Machine.bankBit F) 1#1 handle rows cols := by
    cases F <;> rfl
  obtain ⟨hop, hp, hru, hz0, hz1, hz2, hr, hc, hh⟩ := initHeader_fields hw
  obtain ⟨hrows, hcols⟩ : rows < 2 ^ 8 ∧ cols < 2 ^ 8 := by simpa [shapeFits] using hs
  have hhandle : handle < 2 ^ 16 := by simpa [handleFits] using hf
  rw [decode_eq]
  simp only [rowsField, colsField, handleField, hop, hp, hru, hz0, hz1, hz2, hr, hc, hh, BitVec.toNat_ofNat,
    Nat.mod_eq_of_lt hrows, Nat.mod_eq_of_lt hcols, Nat.mod_eq_of_lt hhandle]
  cases F <;> simp [Machine.bankBit, Machine.reuseInit]

/-- An APPLY's header decodes to it. -/
theorem decode_encode_applyCmd (F : Fmt) {handle nsamp : Nat} (hf : handleFits handle = true) (hn : nsampFits nsamp = true) :
    decode (encode (Machine.applyCmd F handle nsamp)) = .ok (Machine.applyCmd F handle nsamp) := by
  have hw : encode (Machine.applyCmd F handle nsamp) = applyHeader (Machine.bankBit F) handle nsamp := by cases F <;> rfl
  obtain ⟨hop, hp, hru, hz0, hz2, hns, hh⟩ := applyHeader_fields hw
  have hhandle : handle < 2 ^ 16 := by simpa [handleFits] using hf
  have hnsamp : nsamp < 2 ^ 24 := by simpa [nsampFits] using hn
  rw [decode_eq]
  simp only [nsampField, handleField, hop, hp, hru, hz0, hz2, hns, hh, BitVec.toNat_ofNat, Nat.mod_eq_of_lt hhandle,
    Nat.mod_eq_of_lt hnsamp]
  cases F <;> simp [Machine.bankBit, Machine.applyCmd]

theorem decode_encode {i : Instr} (hi : i.wellFormed = true) : decode (encode i) = .ok i := by
  cases i with
  | initF32 rows cols => exact decode_encode_freshInit .f32 hi
  | initF64 rows cols => exact decode_encode_freshInit .f64 hi
  | initF32R handle rows cols =>
    obtain ⟨hf, hs⟩ := Bool.and_eq_true_iff.1 hi
    exact decode_encode_reuseInit .f32 hf hs
  | initF64R handle rows cols =>
    obtain ⟨hf, hs⟩ := Bool.and_eq_true_iff.1 hi
    exact decode_encode_reuseInit .f64 hf hs
  | applyF32 handle nsamp =>
    obtain ⟨hf, hn⟩ := Bool.and_eq_true_iff.1 hi
    exact decode_encode_applyCmd .f32 hf hn
  | applyF64 handle nsamp =>
    obtain ⟨hf, hn⟩ := Bool.and_eq_true_iff.1 hi
    exact decode_encode_applyCmd .f64 hf hn

end Sys2Proof

namespace Sys2Proof.Machine

/-! ### More beats offered after those the host already offers -/

/-- `s` with the host offering `more` command beats after those it had. -/
def State.feed (s : State) (more : List Beat) : State := { s with cmd := s.cmd ++ more }

variable {F : Fmt} {s t : State} {more : List Beat}

@[simp] theorem State.feed_maxFilters : (s.feed more).maxFilters = s.maxFilters := rfl
@[simp] theorem State.feed_phase : (s.feed more).phase = s.phase := rfl
@[simp] theorem State.feed_hdr : (s.feed more).hdr = s.hdr := rfl
@[simp] theorem State.feed_left : (s.feed more).left = s.left := rfl
@[simp] theorem State.feed_offer : (s.feed more).offer = s.offer := rfl
@[simp] theorem State.feed_got : (s.feed more).got = s.got := rfl
@[simp] theorem State.feed_draws : (s.feed more).draws = s.draws := rfl
@[simp] theorem State.feed_rst : (s.feed more).rst = s.rst := rfl
@[simp] theorem State.feed_cmd : (s.feed more).cmd = s.cmd ++ more := rfl
@[simp] theorem State.feed_ready : (s.feed more).ready = s.ready := rfl
@[simp] theorem State.feed_bank : (s.feed more).bank F = s.bank F := by cases F <;> rfl
@[simp] theorem State.feed_slot (h : Nat) : (s.feed more).slot F h = s.slot F h := by simp [State.slot]

@[simp] theorem State.feed_validHandle (h : Nat) : (s.feed more).validHandle F h = s.validHandle F h := by
  simp [State.validHandle]

/-- After an empty stream, offering `more` is replacing the stream. -/
theorem State.feed_of_cmd_nil (h : s.cmd = []) : s.feed more = { s with cmd := more } := by simp [State.feed, h]

/-! ### No operation of the block looks past the beats it consumes: each commutes with `feed` -/

@[simp] theorem State.setBank_feed (b : Bank F) : (s.feed more).setBank F b = (s.setBank F b).feed more := by cases F <;> rfl

@[simp] theorem State.setSlot_feed (h : Nat) (v : Slot F) : (s.feed more).setSlot F h v = (s.setSlot F h v).feed more := by
  simp [State.setSlot]

@[simp] theorem State.setCount_feed (c : Nat) : (s.feed more).setCount F c = (s.setCount F c).feed more := by
  simp [State.setCount]

@[simp] theorem State.beginCommand_feed (w : Beat) (len : Nat) :
    (s.feed more).beginCommand w len = (s.beginCommand w len).feed more := rfl

@[simp] theorem State.offerBeat_feed (b : Beat) : (s.feed more).offerBeat b = (s.offerBeat b).feed more := rfl

@[simp] theorem State.clearGot_feed : (s.feed more).clearGot = s.clearGot.feed more := rfl

@[simp] theorem State.sampleDone_feed (ops : Nat) : (s.feed more).sampleDone ops = (s.sampleDone ops).feed more := rfl

@[simp] theorem State.discardBeat_feed : (s.feed more).discardBeat = s.discardBeat.feed more := rfl

@[simp] theorem State.responseTaken_feed (b : Beat) (r : Ready) :
    (s.feed more).responseTaken b r = (s.responseTaken b r).feed more := rfl

theorem State.acceptResponse_feed : (s.feed more).acceptResponse = s.acceptResponse.feed more := by
  simp only [State.acceptResponse, State.feed_offer, State.feed_ready, State.responseTaken_feed]
  split <;> rfl

theorem State.dropBeat_feed {b : Beat} {rest : List Beat} (hc : s.cmd = b :: rest) :
    (s.feed more).dropBeat = s.dropBeat.feed more := by
  simp [State.dropBeat, State.feed, hc]

theorem State.takeBeat_feed {b : Beat} {rest : List Beat} (hc : s.cmd = b :: rest) (accepted : Bool) :
    (s.feed more).takeBeat accepted b = (s.takeBeat accepted b).feed more := by
  rw [State.takeBeat, State.dropBeat_feed hc]
  rfl

@[simp] theorem initFreshVerdict_feed (rows cols : Nat) :
    initFreshVerdict F rows cols (s.feed more) = initFreshVerdict F rows cols s := by simp [initFreshVerdict]

@[simp] theorem initReuseVerdict_feed (handle rows cols : Nat) :
    initReuseVerdict F handle rows cols (s.feed more) = initReuseVerdict F handle rows cols s := by simp [initReuseVerdict]

@[simp] theorem applyVerdict_feed (handle : Nat) : applyVerdict F handle (s.feed more) = applyVerdict F handle s := by
  simp [applyVerdict]

@[simp] theorem applyStatus_feed (handle nsamp : Nat) :
    applyStatus F handle nsamp (s.feed more) = applyStatus F handle nsamp s := by
  simp only [applyStatus, applyVerdict_feed]

@[simp] theorem initFreshFinish_feed (rows cols : Nat) :
    initFreshFinish F rows cols (s.feed more) = (initFreshFinish F rows cols s).feed more := by
  simp only [initFreshFinish, initFreshVerdict_feed]
  split <;> simp

@[simp] theorem initReuseFinish_feed (handle rows cols : Nat) :
    initReuseFinish F handle rows cols (s.feed more) = (initReuseFinish F handle rows cols s).feed more := by
  simp only [initReuseFinish, initReuseVerdict_feed]
  split <;> simp

@[simp] theorem applyConsume_feed (handle : Nat) (b : Beat) :
    applyConsume F handle b (s.feed more) = (applyConsume F handle b s).feed more := by
  simp only [applyConsume, applyVerdict_feed]
  split <;> simp [applySample]

/-! ### The starts and the moves commute with `feed` -/

theorem State.beginInit_feed (w : Beat) (len : Nat) {finish : State → State}
    (hf : ∀ t : State, finish (t.feed more) = (finish t).feed more) :
    (s.feed more).beginInit w len finish = (s.beginInit w len finish).feed more := by
  unfold State.beginInit
  split <;> simp [hf]

theorem State.beginApply_feed (w : Beat) (handle nsamp : Nat) :
    (s.feed more).beginApply F w handle nsamp = (s.beginApply F w handle nsamp).feed more := by
  simp [State.beginApply]

theorem startCommand_feed (i : Instr) : startCommand i (s.feed more) = (startCommand i s).feed more := by
  cases i with
  | initF32 rows cols => exact State.beginInit_feed _ _ fun _ => initFreshFinish_feed rows cols
  | initF64 rows cols => exact State.beginInit_feed _ _ fun _ => initFreshFinish_feed rows cols
  | initF32R handle rows cols => exact State.beginInit_feed _ _ fun _ => initReuseFinish_feed handle rows cols
  | initF64R handle rows cols => exact State.beginInit_feed _ _ fun _ => initReuseFinish_feed handle rows cols
  | applyF32 handle nsamp => exact State.beginApply_feed _ handle nsamp
  | applyF64 handle nsamp => exact State.beginApply_feed _ handle nsamp

/-- An unblocked state stays unblocked when more beats are offered. -/
theorem State.feed_not_blocked (hb : s.blocked = false) : (s.feed more).blocked = false := by
  rw [State.not_blocked_iff] at hb ⊢
  rcases hb with ⟨hp, b, rest, hc⟩ | hb
  · exact .inl ⟨hp, b, rest ++ more, by simp [hc]⟩
  · exact .inr hb

theorem State.payloadFirst_feed {accepted : Bool} {finish : State → State}
    (hf : ∀ t : State, finish (t.feed more) = (finish t).feed more) (hb : s.blocked = false) :
    (s.feed more).payloadFirst accepted finish = (s.payloadFirst accepted finish).feed more := by
  rcases s.not_blocked_iff.1 hb with ⟨hp, b, rest, hc⟩ | ⟨hp, -⟩
  · simp only [State.payloadFirst, State.feed_phase, State.feed_cmd, hp, hc, List.cons_append, State.takeBeat_feed hc,
      State.feed_left, hf]
    split <;> rfl
  · simp only [State.payloadFirst, State.feed_phase, hp, State.acceptResponse_feed]

theorem State.statusFirst_feed {consume : Beat → State → State}
    (hc : ∀ (b : Beat) (t : State), consume b (t.feed more) = (consume b t).feed more) (hb : s.blocked = false) :
    (s.feed more).statusFirst consume = (s.statusFirst consume).feed more := by
  rcases s.not_blocked_iff.1 hb with ⟨hp, b, rest, hcmd⟩ | ⟨hp, -⟩
  · simp only [State.statusFirst, State.feed_phase, State.feed_cmd, hp, hcmd, List.cons_append, State.dropBeat_feed hcmd, hc]
  · simp only [State.statusFirst, State.feed_phase, hp, State.acceptResponse_feed]

theorem moveCommand_feed (i : Instr) (hb : s.blocked = false) :
    moveCommand i (s.feed more) = (moveCommand i s).feed more := by
  cases i with
  | initF32 rows cols =>
    simpa [moveCommand, moveInitF32] using State.payloadFirst_feed (fun _ => initFreshFinish_feed rows cols) hb
  | initF64 rows cols =>
    simpa [moveCommand, moveInitF64] using State.payloadFirst_feed (fun _ => initFreshFinish_feed rows cols) hb
  | initF32R handle rows cols =>
    simpa [moveCommand, moveInitF32R] using State.payloadFirst_feed (fun _ => initReuseFinish_feed handle rows cols) hb
  | initF64R handle rows cols =>
    simpa [moveCommand, moveInitF64R] using State.payloadFirst_feed (fun _ => initReuseFinish_feed handle rows cols) hb
  | applyF32 handle nsamp => exact State.statusFirst_feed (fun b _ => applyConsume_feed handle b) hb
  | applyF64 handle nsamp => exact State.statusFirst_feed (fun b _ => applyConsume_feed handle b) hb

/-! ### Settling in two pieces -/

theorem State.Tidy.feed (ht : s.Tidy) : (s.feed more).Tidy := ⟨ht.header, ht.payload, ht.respond⟩

/-- Settling, `more` beats offered, settling again: the same as settling with them from the start. The induction is over the moves
made before they come: each of them could as well be made after. -/
theorem settle_feed_settleFor {move : State → State}
    (hgood : ∀ s : State, s.Tidy → s.blocked = false → GoodMove s (move s))
    (hfeed : ∀ s : State, s.blocked = false → move (s.feed more) = (move s).feed more) (fuel : Nat) (ht : s.Tidy) :
    settle move ((settleFor move fuel s).feed more) = settle move (s.feed more) := by
  induction fuel generalizing s with
  | zero => rfl
  | succ fuel ih =>
    cases hb : s.blocked with
    | true => rw [settleFor_of_blocked hb]
    | false =>
      have hmove : ∀ u : State, u.Tidy → u.blocked = false → (move u).Tidy ∧ (move u).transfers < u.transfers :=
        fun u hu hub => ⟨(hgood u hu hub).tidy, (hgood u hu hub).transfers_lt⟩
      calc settle move ((settleFor move (fuel + 1) s).feed more)
          = settle move ((settleFor move fuel (move s)).feed more) := by rw [settleFor_succ hb]
        _ = settle move ((move s).feed more) := ih (hgood s ht hb).tidy
        _ = settle move (move (s.feed more)) := by rw [hfeed s hb]
        _ = settle move (s.feed more) :=
          (settle_move (P := State.Tidy) (fun _ h => h) hmove ht.feed (State.feed_not_blocked hb)).symm

/-! ### HDR and `rst` stay while a packet is current -/

/-- The two states hold the same header beat and the same `rst`. -/
structure SameHeader (s t : State) : Prop where
  hdr : t.hdr = s.hdr
  rst : t.rst = s.rst

theorem SameHeader.trans {u : State} (h : SameHeader s t) (k : SameHeader t u) : SameHeader s u :=
  ⟨k.hdr.trans h.hdr, k.rst.trans h.rst⟩

theorem State.acceptResponse_sameHeader (s : State) : SameHeader s s.acceptResponse :=
  ⟨s.acceptResponse_unwritten.hdr, s.acceptResponse_unwritten.rst⟩

theorem initFreshFinish_sameHeader (rows cols : Nat) (s : State) : SameHeader s (initFreshFinish F rows cols s) := by
  unfold initFreshFinish
  split <;> constructor <;> simp

theorem initReuseFinish_sameHeader (handle rows cols : Nat) (s : State) :
    SameHeader s (initReuseFinish F handle rows cols s) := by
  unfold initReuseFinish
  split <;> constructor <;> simp

theorem applyConsume_sameHeader (handle : Nat) (b : Beat) (s : State) : SameHeader s (applyConsume F handle b s) := by
  unfold applyConsume
  split <;> constructor <;> simp [applySample]

theorem State.payloadFirst_sameHeader {accepted : Bool} {finish : State → State} (hf : ∀ t, SameHeader t (finish t))
    (s : State) : SameHeader s (s.payloadFirst accepted finish) := by
  unfold State.payloadFirst
  split
  · exact ⟨rfl, rfl⟩
  · exact s.acceptResponse_sameHeader
  · split
    · exact ⟨rfl, rfl⟩
    · next b _ _ =>
      have take : SameHeader s (s.takeBeat accepted b) := ⟨rfl, rfl⟩
      dsimp only
      split
      · exact take.trans (hf _)
      · exact take

theorem State.statusFirst_sameHeader {consume : Beat → State → State} (hc : ∀ b t, SameHeader t (consume b t)) (s : State) :
    SameHeader s (s.statusFirst consume) := by
  unfold State.statusFirst
  split
  · exact ⟨rfl, rfl⟩
  · exact s.acceptResponse_sameHeader
  · split
    · exact ⟨rfl, rfl⟩
    · next b _ _ =>
      have drop : SameHeader s s.dropBeat := ⟨rfl, rfl⟩
      exact drop.trans (hc b _)

theorem moveCommand_sameHeader (i : Instr) (s : State) : SameHeader s (moveCommand i s) := by
  cases i with
  | initF32 rows cols => exact State.payloadFirst_sameHeader (initFreshFinish_sameHeader rows cols) s
  | initF64 rows cols => exact State.payloadFirst_sameHeader (initFreshFinish_sameHeader rows cols) s
  | initF32R handle rows cols => exact State.payloadFirst_sameHeader (initReuseFinish_sameHeader handle rows cols) s
  | initF64R handle rows cols => exact State.payloadFirst_sameHeader (initReuseFinish_sameHeader handle rows cols) s
  | applyF32 handle nsamp => exact State.statusFirst_sameHeader (applyConsume_sameHeader handle) s
  | applyF64 handle nsamp => exact State.statusFirst_sameHeader (applyConsume_sameHeader handle) s

/-- An INIT that begins holds its header in HDR. -/
theorem State.beginInit_header {finish : State → State} (hf : ∀ t, SameHeader t (finish t)) (s : State) (w : Beat) (len : Nat) :
    (s.beginInit w len finish).hdr = w ∧ (s.beginInit w len finish).rst = s.rst := by
  unfold State.beginInit
  split
  · exact ⟨(hf _).hdr, (hf _).rst⟩
  · exact ⟨rfl, rfl⟩

/-- A command that begins holds its header in HDR. -/
theorem startCommand_header (i : Instr) (s : State) :
    (startCommand i s).hdr = encode i ∧ (startCommand i s).rst = s.rst := by
  cases i with
  | initF32 rows cols => exact State.beginInit_header (initFreshFinish_sameHeader rows cols) s _ _
  | initF64 rows cols => exact State.beginInit_header (initFreshFinish_sameHeader rows cols) s _ _
  | initF32R handle rows cols => exact State.beginInit_header (initReuseFinish_sameHeader handle rows cols) s _ _
  | initF64R handle rows cols => exact State.beginInit_header (initReuseFinish_sameHeader handle rows cols) s _ _
  | applyF32 handle nsamp => exact ⟨rfl, rfl⟩
  | applyF64 handle nsamp => exact ⟨rfl, rfl⟩

/-- A command run leaves its header in HDR, and `rst` as it was. -/
theorem exec_header {i : Instr} (h : exec i s = .next t) : t.hdr = encode i ∧ t.rst = s.rst := by
  rw [exec_eq] at h
  cases h
  exact settle_induct (P := fun u => u.hdr = encode i ∧ u.rst = s.rst)
    (fun u ⟨hh, hr⟩ _ => ⟨(moveCommand_sameHeader i u).hdr.trans hh, (moveCommand_sameHeader i u).rst.trans hr⟩) _
    (startCommand_header i s)

/-! ### A resumed command -/

/-- Two moves that agree where a property holds that they keep settle alike. -/
theorem settleFor_congr {move move' : State → State} {P : State → Prop} (hP : ∀ u, P u → P (move' u))
    (heq : ∀ u, P u → move u = move' u) (fuel : Nat) (hs : P s) : settleFor move fuel s = settleFor move' fuel s := by
  induction fuel generalizing s with
  | zero => rfl
  | succ fuel ih => simp only [settleFor, heq s hs, ih (hP s hs)]

/-- The packet resumed is the command whose header HDR holds. -/
theorem resumeCurrent_eq {i : Instr} (hd : decode s.hdr = .ok i) : resumeCurrent s = settle (moveCommand i) s :=
  settleFor_congr (P := fun u => decode u.hdr = .ok i)
    (fun u hu => by rw [(moveCommand_sameHeader i u).hdr]; exact hu) (fun u hu => by simp [moveCurrent, hu]) _ hd

theorem step_of_payload (hr : s.rst = false) (hp : s.phase = .payload) : step s = .next (resumeCurrent s) := by
  simp [step, hr, hp]

/-- A command that waits for payload has consumed every beat offered. -/
theorem exec_payload_cmd {i : Instr} (h : exec i s = .next t) (hp : t.phase = .payload) : t.cmd = [] := by
  simpa [State.blocked, hp] using (exec_blocked h).2

/-- Settles O29: the moves made on the first piece could as well be made with the second one already offered. -/
theorem payloadInPieces : Obligations.PayloadInPieces := by
  intro i s t more hi hr hex hp
  obtain ⟨hhdr, hrst⟩ := exec_header hex
  have hd : decode (t.feed more).hdr = .ok i := by rw [State.feed_hdr, hhdr, decode_encode hi]
  have hsettled : settle (moveCommand i) (startCommand i s) = t := by simpa [exec_eq] using hex
  have hresume : settle (moveCommand i) (t.feed more) = settle (moveCommand i) ((startCommand i s).feed more) := by
    rw [← hsettled]
    exact settle_feed_settleFor (fun _ => moveCommand_good i) (fun _ => moveCommand_feed i) _ (startCommand_tidy i s)
  calc step { t with cmd := more }
      = step (t.feed more) := by rw [State.feed_of_cmd_nil (exec_payload_cmd hex hp)]
    _ = .next (resumeCurrent (t.feed more)) := step_of_payload (hrst.trans hr) hp
    _ = .next (settle (moveCommand i) ((startCommand i s).feed more)) := by rw [resumeCurrent_eq hd, hresume]
    _ = exec i (s.feed more) := by rw [exec_eq, startCommand_feed]

end Sys2Proof.Machine

/-! PROOFS. O9, O49, and what O45 and O46 rest on: a step is a reset edge, a wait, or the packet of HDR settled, so what an accepted
header and every move keep, a step keeps (`step_induct`). -/

namespace Sys2Proof

variable {w : Beat} {i : Instr}

/-! ### What a decoded header tells of its command (spec/30_encoding.md R73, R77) -/

@[simp] theorem shapeFits_fields (w : Beat) : shapeFits (rowsField w) (colsField w) = true := by
  have hrows : rowsField w < 2 ^ 8 := BitVec.isLt _
  have hcols : colsField w < 2 ^ 8 := BitVec.isLt _
  simpa [shapeFits] using And.intro hrows hcols

@[simp] theorem handleFits_field (w : Beat) : handleFits (handleField w) = true := decide_eq_true (BitVec.isLt _)

@[simp] theorem nsampFits_field (w : Beat) : nsampFits (nsampField w) = true := decide_eq_true (BitVec.isLt _)

/-- A decoded command is well-formed, and its OP tells an INIT from an APPLY. -/
theorem decode_ok (hd : decode w = .ok i) :
    i.wellFormed = true ∧ opField w = if Machine.isInit i then 0x1#4 else 0x2#4 := by
  rw [decode_eq] at hd
  split_ifs at hd with h h h h h h <;> cases hd <;> exact ⟨by simp [Instr.wellFormed], h.1⟩

theorem opField_of_init (hd : decode w = .ok i) (hi : Machine.isInit i = true) : opField w ≠ 0x2#4 := by
  simp [(decode_ok hd).2, hi]

theorem opField_of_apply (hd : decode w = .ok i) (hi : Machine.isInit i = false) : opField w = 0x2#4 := by
  simp [(decode_ok hd).2, hi]

/-! ### LEFT fits its 24 bits (spec/10_state.md R29) -/

theorem mul_le_of_shapeFits {rows cols : Nat} (h : shapeFits rows cols = true) : rows * cols ≤ 2 ^ 24 - 1 := by
  obtain ⟨hrows, hcols⟩ : rows < 2 ^ 8 ∧ cols < 2 ^ 8 := by simpa [shapeFits] using h
  calc rows * cols ≤ 255 * 255 := Nat.mul_le_mul (by omega) (by omega)
    _ ≤ 2 ^ 24 - 1 := by decide

theorem le_of_nsampFits {nsamp : Nat} (h : nsampFits nsamp = true) : nsamp ≤ 2 ^ 24 - 1 :=
  Nat.le_pred_of_lt (of_decide_eq_true h)

theorem payloadLen_le (w : Beat) : payloadLen w ≤ 2 ^ 24 - 1 := by
  unfold payloadLen
  split
  · exact mul_le_of_shapeFits (shapeFits_fields w)
  · split
    · exact le_of_nsampFits (nsampFits_field w)
    · exact Nat.zero_le _

theorem payloadBeats_le (hi : i.wellFormed = true) : i.payloadBeats ≤ 2 ^ 24 - 1 := by
  cases i with
  | initF32 rows cols => exact mul_le_of_shapeFits hi
  | initF64 rows cols => exact mul_le_of_shapeFits hi
  | initF32R handle rows cols => exact mul_le_of_shapeFits (Bool.and_eq_true_iff.1 hi).2
  | initF64R handle rows cols => exact mul_le_of_shapeFits (Bool.and_eq_true_iff.1 hi).2
  | applyF32 handle nsamp => exact le_of_nsampFits (Bool.and_eq_true_iff.1 hi).2
  | applyF64 handle nsamp => exact le_of_nsampFits (Bool.and_eq_true_iff.1 hi).2

end Sys2Proof

namespace Sys2Proof.Machine

/-! ### A step in terms of `startHeader` and `moveCurrent` -/

section
variable {s : State} {w : Beat} {rest : List Beat}

theorem step_of_reset (hr : s.rst = true) : step s = .next s.resetEdge := by simp [step, hr]

theorem step_of_no_header (hr : s.rst = false) (hp : s.phase = .header) (hc : s.cmd = []) : step s = .next s := by
  simp [step, hr, hp, hc]

theorem step_of_header_phase {i : Instr} (hr : s.rst = false) (hp : s.phase = .header) (hc : s.cmd = w :: rest)
    (hd : decode w = .ok i) : step s = exec i { s with cmd := rest } := by
  simp [step, hr, hp, hc, hd]

theorem step_of_inside (hr : s.rst = false) (hp : s.phase ≠ .header) : step s = .next (resumeCurrent s) := by
  cases h : s.phase with
  | header => exact absurd h hp
  | payload => exact step_of_payload hr h
  | respond => simp [step, hr, h]

/-- No move of the current packet writes HDR or `rst`. -/
theorem moveCurrent_sameHeader (s : State) : SameHeader s (moveCurrent s) := by
  unfold moveCurrent
  split
  · next i _ => exact moveCommand_sameHeader i s
  · exact ⟨(moveIllegal_unwritten s.hdr s).hdr, (moveIllegal_unwritten s.hdr s).rst⟩

/-- The packet resumed is the illegal one whose header HDR holds. -/
theorem resumeCurrent_illegal {e : Reject} (hw : s.hdr = w) (hd : decode w = .error e) :
    resumeCurrent s = settle (moveIllegal w) s :=
  settleFor_congr (P := fun u => u.hdr = w)
    (fun u hu => (moveIllegal_unwritten w u).hdr.trans hu) (fun u hu => by simp [moveCurrent, hu, hd]) _ hw

/-- An illegal header is kept in HDR, and `rst` as it was. -/
theorem startIllegal_header (w : Beat) (s : State) : (startIllegal w s).hdr = w ∧ (startIllegal w s).rst = s.rst := by
  unfold startIllegal
  split <;> exact ⟨rfl, rfl⟩

theorem startHeader_rst (w : Beat) (s : State) : (startHeader w s).rst = s.rst := by
  unfold startHeader
  split
  · next i _ => exact (startCommand_header i s).2
  · exact (startIllegal_header w s).2

/-- Awaiting a header, a step accepts the next one and goes on with its packet. -/
theorem step_of_header (hr : s.rst = false) (hp : s.phase = .header) (hc : s.cmd = w :: rest) :
    step s = .next (resumeCurrent (startHeader w { s with cmd := rest })) := by
  cases hd : decode w with
  | ok i =>
    have hdr : decode (startCommand i { s with cmd := rest }).hdr = .ok i := by
      rw [(startCommand_header i _).1, decode_encode (decode_ok hd).1]
    simp only [step_of_header_phase hr hp hc hd, exec_eq, startHeader, hd, resumeCurrent_eq hdr]
  | error e =>
    simp only [step_illegal hr hp hc hd, startHeader, hd, resumeCurrent_illegal (startIllegal_header w _).1 hd]

/-- What a reset edge, accepting a header and every unblocked move bring about or keep, a step brings about. -/
theorem step_induct {P : State → Prop} (hreset : s.rst = true → P s.resetEdge)
    (hstart : ∀ w rest, s.rst = false → s.phase = .header → s.cmd = w :: rest →
      P (startHeader w { s with cmd := rest }))
    (hmove : ∀ u, P u → u.blocked = false → P (moveCurrent u)) (hs : s.rst = false → P s) :
    ∃ t, step s = .next t ∧ P t := by
  cases hr : s.rst with
  | true => exact ⟨_, step_of_reset hr, hreset hr⟩
  | false =>
    by_cases hp : s.phase = .header
    · cases hc : s.cmd with
      | nil => exact ⟨_, step_of_no_header hr hp hc, hs hr⟩
      | cons w rest => exact ⟨_, step_of_header hr hp hc, settle_induct hmove _ (hstart w rest hr hp hc)⟩
    · exact ⟨_, step_of_inside hr hp, settle_induct hmove _ (hs hr)⟩

/-! ### What a move of each shape can do, unblocked -/

theorem State.payloadFirst_cases (hb : s.blocked = false) (accepted : Bool) (finish : State → State) :
    (s.phase = .payload ∧ ∃ b, (s.takeBeat accepted b).left = 0 ∧
      s.payloadFirst accepted finish = finish (s.takeBeat accepted b)) ∨
    (s.phase = .payload ∧ ∃ b, (s.takeBeat accepted b).left ≠ 0 ∧ s.payloadFirst accepted finish = s.takeBeat accepted b) ∨
    (s.phase = .respond ∧ s.payloadFirst accepted finish = s.acceptResponse) := by
  rcases s.not_blocked_iff.1 hb with ⟨hp, b, rest, hc⟩ | ⟨hp, -⟩
  · by_cases h0 : (s.takeBeat accepted b).left = 0
    · exact .inl ⟨hp, b, h0, by simp only [State.payloadFirst, hp, hc, if_pos h0]⟩
    · exact .inr (.inl ⟨hp, b, h0, by simp only [State.payloadFirst, hp, hc, if_neg h0]⟩)
  · exact .inr (.inr ⟨hp, by simp only [State.payloadFirst, hp]⟩)

theorem State.statusFirst_cases (hb : s.blocked = false) (consume : Beat → State → State) :
    (s.phase = .payload ∧ ∃ b, s.statusFirst consume = consume b s.dropBeat) ∨
    (s.phase = .respond ∧ s.statusFirst consume = s.acceptResponse) := by
  rcases s.not_blocked_iff.1 hb with ⟨hp, b, rest, hc⟩ | ⟨hp, -⟩
  · exact .inl ⟨hp, b, by simp only [State.statusFirst, hp, hc]⟩
  · exact .inr ⟨hp, by simp only [State.statusFirst, hp]⟩

/-! ### O9 and O49 -/

/-- Settles O9: the one arm of `step` that a decoded header takes. -/
theorem stepRunsDecodedCommand : Obligations.StepRunsDecodedCommand :=
  fun _ _ _ _ hr hp hc hd => step_of_header_phase hr hp hc hd

/-- One beat of an unblocked packet is its move. -/
theorem beat_of_not_blocked (hr : s.rst = false) (hb : s.blocked = false) : beat s = moveCurrent s := by
  rcases s.not_blocked_iff.1 hb with ⟨hp, -⟩ | ⟨hp, -⟩ <;> simp [beat, hr, hp]

/-- Settles O49: every state the step passes through is one that some number of beats leads to. -/
theorem stepIsSingleBeats : Obligations.StepIsSingleBeats := by
  intro s
  obtain ⟨t, ht, -, k, rfl⟩ := step_induct (s := s) (P := fun u => u.rst = false ∧ ∃ k : Nat, u = beat^[k] s)
    (fun hr => ⟨rfl, 1, by simp [beat, hr]⟩)
    (fun w rest hr hp hc => ⟨by rw [startHeader_rst, hr], 1, by simp [beat, hr, hp, hc]⟩)
    (fun u ⟨hr, k, hk⟩ hb => ⟨(moveCurrent_sameHeader u).rst.trans hr, k + 1, by
      rw [Function.iterate_succ_apply', ← hk, beat_of_not_blocked hr hb]⟩)
    (fun hr => ⟨hr, 0, rfl⟩)
  exact ⟨k, ht⟩

end

end Sys2Proof.Machine

/-! PROOFS. O45: the invariant is the register files' (`State.Registered`), the phases' (`State.Tidy`, which every move keeps as a
good move) and the packet's (`State.Progress`); each operation keeps each part. -/

namespace Sys2Proof.Machine

variable {F : Fmt} {s t : State} {w : Beat}

/-! ### Slots and banks: an INIT writes a live slot, an APPLY keeps one live -/

/-- What R27 asks of an allocated slot. -/
structure LiveSlot (v : Slot F) : Prop where
  pos : 1 ≤ v.numStages
  le : v.numStages ≤ 16
  unused_delay : ∀ i, 2 * v.numStages ≤ i → v.delayAt i = 0#F.width

theorem delayAt_of_cleared {v : Slot F} (hv : v.delay = Vector.replicate 32 0#F.width) (i : Nat) :
    v.delayAt i = 0#F.width := by
  by_cases hi : i < 32 <;> simp [Slot.delayAt, hv, Vector.getD, hi]

/-- The Coefficient Loader leaves a live slot, given an accepted shape (spec/40_init.md R101). -/
theorem loadSlot_live {rows cols : Nat} (hs : shapeOk rows cols = true) (m : List Beat) (old : Slot F) :
    LiveSlot (loadSlot F rows m old) := by
  obtain ⟨⟨-, h1⟩, h16⟩ : (cols = 6 ∧ 1 ≤ rows) ∧ rows ≤ 16 := by simpa [shapeOk] using hs
  exact ⟨h1, h16, fun i _ => delayAt_of_cleared rfl i⟩

/-- A stage leaves the delay entries past its own two. -/
theorem stage_delayAt_of_le (d k : Nat) (v : Slot F) (x : Value F) {i : Nat} (hi : 2 * (k + 1) ≤ i) :
    (stage F d k v x).1.delayAt i = v.delayAt i := by
  have h0 : 2 * k ≠ i := by omega
  have h1 : 2 * k + 1 ≠ i := by omega
  simp [stage, Slot.delayAt, Vector.getD, h0, h1]

/-- Stages `k .. k+m-1` leave the delay entries from `2*(k+m)` on. -/
theorem stagesFrom_delayAt_of_le (m d k : Nat) (v : Slot F) (x : Value F) {i : Nat} (hi : 2 * (k + m) ≤ i) :
    (stagesFrom F m d k v x).1.delayAt i = v.delayAt i := by
  induction m generalizing d k v x with
  | zero => rfl
  | succ m ih =>
    simp only [stagesFrom]
    rw [ih _ _ _ _ (by omega), stage_delayAt_of_le _ _ _ _ (by omega)]

/-- Filtering a sample keeps a live slot live. -/
theorem cascade_live {v : Slot F} (hv : LiveSlot v) (d : Nat) (x : Value F) : LiveSlot (cascade F d v x).1 where
  pos := by simpa using hv.pos
  le := by simpa using hv.le
  unused_delay i hi := by
    rw [cascade_numStages] at hi
    rw [cascade, stagesFrom_delayAt_of_le _ _ _ _ _ (by omega), hv.unused_delay i hi]

theorem BankInv.zero (F : Fmt) (m : Nat) : BankInv m (Bank.zero F) where
  count_le := Nat.zero_le m
  wf := rfl
  allocated _ h := absurd h (Nat.not_lt_zero _)
  unallocated _ _ := rfl
  unused_delay _ i _ := delayAt_of_cleared rfl i

theorem BankInv.live {m h : Nat} {b : Bank F} (hb : BankInv m b) (hh : h < b.count) : LiveSlot (slotRead b.slots h) :=
  ⟨(hb.allocated h hh).1, (hb.allocated h hh).2, hb.unused_delay h⟩

/-- A live slot written at handle `h`, allocated already or by the new count `c`. -/
theorem BankInv.write {m c h : Nat} {b : Bank F} (hb : BankInv m b) {v : Slot F} (hv : LiveSlot v) (hm : c ≤ m)
    (hc : ∀ k, k < c ↔ k < b.count ∨ k = h) : BankInv m { count := c, slots := slotWrite b.slots h v } where
  count_le := hm
  wf := slotsWf_slotWrite hb.wf h v
  allocated k hk := by
    by_cases hkh : k = h
    · rw [hkh, slotRead_slotWrite_same hb.wf]
      exact ⟨hv.pos, hv.le⟩
    · rw [slotRead_slotWrite_other hkh]
      exact hb.allocated k (((hc k).1 hk).resolve_right hkh)
  unallocated k hk := by
    obtain ⟨hkb, hkh⟩ : ¬k < b.count ∧ k ≠ h := not_or.1 (mt (hc k).2 (Nat.not_lt.2 hk))
    rw [slotRead_slotWrite_other hkh]
    exact hb.unallocated k (Nat.not_lt.1 hkb)
  unused_delay k i hi := by
    by_cases hkh : k = h
    · rw [hkh, slotRead_slotWrite_same hb.wf] at hi ⊢
      exact hv.unused_delay i hi
    · rw [slotRead_slotWrite_other hkh] at hi ⊢
      exact hb.unused_delay k i hi

/-! ### The register files -/

/-- The invariant of the banks and of the parameter. -/
structure State.Registered (s : State) : Prop where
  max_pos : 1 ≤ s.maxFilters
  max_le : s.maxFilters ≤ 65536
  f32 : BankInv s.maxFilters s.f32
  f64 : BankInv s.maxFilters s.f64

theorem State.Registered.bank (h : s.Registered) (F : Fmt) : BankInv s.maxFilters (s.bank F) := by
  cases F with
  | f32 => exact h.f32
  | f64 => exact h.f64

theorem State.Registered.setBank (h : s.Registered) {b : Bank F} (hb : BankInv s.maxFilters b) :
    (s.setBank F b).Registered := by
  cases F with
  | f32 => exact ⟨h.max_pos, h.max_le, hb, h.f64⟩
  | f64 => exact ⟨h.max_pos, h.max_le, h.f32, hb⟩

theorem State.Registered.clearGot (h : s.Registered) : s.clearGot.Registered := ⟨h.max_pos, h.max_le, h.f32, h.f64⟩

theorem State.Registered.offerBeat (h : s.Registered) (b : Beat) : (s.offerBeat b).Registered :=
  ⟨h.max_pos, h.max_le, h.f32, h.f64⟩

theorem State.Registered.beginCommand (h : s.Registered) (w : Beat) (len : Nat) : (s.beginCommand w len).Registered :=
  ⟨h.max_pos, h.max_le, h.f32, h.f64⟩

theorem State.Registered.dropBeat (h : s.Registered) : s.dropBeat.Registered := ⟨h.max_pos, h.max_le, h.f32, h.f64⟩

theorem State.Registered.takeBeat (h : s.Registered) (accepted : Bool) (b : Beat) : (s.takeBeat accepted b).Registered :=
  ⟨h.max_pos, h.max_le, h.f32, h.f64⟩

theorem State.Registered.sampleDone (h : s.Registered) (ops : Nat) : (s.sampleDone ops).Registered :=
  ⟨h.max_pos, h.max_le, h.f32, h.f64⟩

theorem State.Registered.discardBeat (h : s.Registered) : s.discardBeat.Registered := ⟨h.max_pos, h.max_le, h.f32, h.f64⟩

theorem State.Registered.acceptResponse (h : s.Registered) : s.acceptResponse.Registered := by
  rcases s.acceptResponse_cases with ⟨b, r, -, -, he⟩ | ⟨-, he⟩ <;> rw [he]
  · exact ⟨h.max_pos, h.max_le, h.f32, h.f64⟩
  · exact h

theorem State.setSlot_setCount (s : State) (h c : Nat) (v : Slot F) :
    (s.setSlot F h v).setCount F c = s.setBank F { count := c, slots := slotWrite (s.bank F).slots h v } := by
  cases F <;> rfl

/-- A live slot written at an allocated handle (spec/20_memory.md R61). -/
theorem State.Registered.setSlot (hs : s.Registered) {h : Nat} (hh : h < (s.bank F).count) {v : Slot F} (hv : LiveSlot v) :
    (s.setSlot F h v).Registered :=
  hs.setBank ((hs.bank F).write hv (hs.bank F).count_le fun _ => ⟨.inl, fun hk => hk.elim id fun e => e ▸ hh⟩)

/-- A live slot written at the next handle, and COUNT advanced (spec/10_state.md R22). -/
theorem State.Registered.allocate (hs : s.Registered) (hc : (s.bank F).count ≠ s.maxFilters) {v : Slot F} (hv : LiveSlot v) :
    ((s.setSlot F (s.bank F).count v).setCount F ((s.bank F).count + 1)).Registered := by
  rw [State.setSlot_setCount]
  have hle := (hs.bank F).count_le
  exact hs.setBank ((hs.bank F).write hv (by omega) fun _ => by omega)

/-! ### The verdicts, and what an accepted command's end keeps -/

theorem initFreshVerdict_ok {rows cols : Nat} (h : initFreshVerdict F rows cols s = .ok) :
    shapeOk rows cols = true ∧ (s.bank F).count ≠ s.maxFilters := by
  unfold initFreshVerdict at h
  split at h
  · cases h
  · next hs =>
    split at h
    · cases h
    · next hc => exact ⟨by simpa using hs, hc⟩

theorem initReuseVerdict_ok {handle rows cols : Nat} (h : initReuseVerdict F handle rows cols s = .ok) :
    shapeOk rows cols = true ∧ handle < (s.bank F).count := by
  unfold initReuseVerdict at h
  split at h
  · cases h
  · next hs =>
    split at h
    · cases h
    · next hv => exact ⟨by simpa using hs, by simpa [State.validHandle] using hv⟩

theorem applyVerdict_ok {handle : Nat} (h : applyVerdict F handle s = .ok) : handle < (s.bank F).count := by
  unfold applyVerdict at h
  split at h
  · next hv => simpa [State.validHandle] using hv
  · cases h

/-- A verdict reads MAX_FILTERS and the two COUNTs. -/
theorem verdict_congr (i : Instr) (hm : t.maxFilters = s.maxFilters) (hc : ∀ F, (t.bank F).count = (s.bank F).count) :
    verdict i t = verdict i s := by
  have hv (F : Fmt) (h : Nat) : t.validHandle F h = s.validHandle F h := by rw [State.validHandle, State.validHandle, hc]
  cases i <;> simp only [verdict, initFreshVerdict, initReuseVerdict, applyVerdict, hv, hm, hc]

theorem initFreshFinish_registered (rows cols : Nat) (hs : s.Registered) : (initFreshFinish F rows cols s).Registered := by
  unfold initFreshFinish
  split
  · next hv =>
    obtain ⟨hshape, hcount⟩ := initFreshVerdict_ok hv
    exact ((hs.allocate hcount (loadSlot_live hshape _ _)).clearGot).offerBeat _
  · exact hs.offerBeat _

theorem initReuseFinish_registered (handle rows cols : Nat) (hs : s.Registered) :
    (initReuseFinish F handle rows cols s).Registered := by
  unfold initReuseFinish
  split
  · next hv =>
    obtain ⟨hshape, hhandle⟩ := initReuseVerdict_ok hv
    exact ((hs.setSlot hhandle (loadSlot_live hshape _ _)).clearGot).offerBeat _
  · exact hs.offerBeat _

theorem applyConsume_registered (handle : Nat) (b : Beat) (hs : s.Registered) : (applyConsume F handle b s).Registered := by
  unfold applyConsume
  split
  · next hv =>
    have hh := applyVerdict_ok hv
    exact ((hs.setSlot hh (cascade_live ((hs.bank F).live hh) _ _)).sampleDone _).offerBeat _
  · exact hs.discardBeat

/-! ### The packet under way -/

/-- The invariant of the packet under way: `n` and LEFT, and what of the payload has been consumed. -/
structure State.Progress (s : State) : Prop where
  window : s.n + s.left ≤ 2 ^ 24 - 1
  status_last : s.phase = .respond → opField s.hdr ≠ 0x2#4 → s.left = 0
  kept : s.phase = .payload → ∀ i, decode s.hdr = .ok i → isInit i = true → verdict i s = .ok →
    s.got.length + s.left = i.payloadBeats
  position : s.phase ≠ .header → ∀ i, decode s.hdr = .ok i → isInit i = false → verdict i s = .ok →
    s.n + s.left = i.payloadBeats

theorem State.inv_iff (s : State) : s.Inv ↔ s.Registered ∧ s.Tidy ∧ s.Progress where
  mp h := ⟨⟨h.max_pos, h.max_le, h.f32, h.f64⟩, ⟨h.header, h.payload, h.respond⟩,
    ⟨h.window, h.status_last, h.kept, h.position⟩⟩
  mpr := fun ⟨hr, ht, hp⟩ =>
    { max_pos := hr.max_pos, max_le := hr.max_le, f32 := hr.f32, f64 := hr.f64
      header := ht.header, payload := ht.payload, respond := ht.respond
      window := hp.window, status_last := hp.status_last, kept := hp.kept, position := hp.position }

/-- Responding with nothing left, to a header of OP other than `0x2`. -/
theorem State.Progress.of_responding (hp : s.phase = .respond) (hl : s.left = 0) (hop : opField s.hdr ≠ 0x2#4)
    (hw : s.n ≤ 2 ^ 24 - 1) : s.Progress where
  window := by omega
  status_last _ _ := hl
  kept h := by rw [hp] at h; cases h
  position _ i hi hni := absurd (opField_of_apply hi hni) hop

/-- Accepting a response: an INIT's is its last transfer, and an APPLY's moves neither `n` nor LEFT. -/
theorem State.Progress.acceptResponse (h : s.Progress) (hp : s.phase = .respond) : s.acceptResponse.Progress := by
  rcases s.acceptResponse_cases with ⟨b, r, -, -, he⟩ | ⟨-, he⟩ <;> rw [he]
  · have hv (i : Instr) : verdict i (s.responseTaken b r) = verdict i s := verdict_congr i rfl fun _ => by simp
    rcases phaseAfter_cases s.left with ⟨hl, hph⟩ | ⟨hl, hph⟩
    · exact ⟨h.window, fun _ _ => hl, fun hpay => by simp [hph] at hpay, fun hne => absurd hph hne⟩
    · refine ⟨h.window, fun hresp => by simp [hph] at hresp, fun _ i hi hinit _ => ?_, fun _ i hi hni hok => ?_⟩
      · exact absurd (h.status_last hp (opField_of_init hi hinit)) (by omega)
      · exact h.position (by simp [hp]) i hi hni (hv i ▸ hok)
  · exact h

/-- A finish that keeps the invariant: it offers the status and leaves the sequencer's registers. -/
structure SoundFinish (finish : State → State) : Prop extends Offers finish where
  hdr : ∀ t, (finish t).hdr = t.hdr
  n : ∀ t, (finish t).n = t.n
  registered : ∀ t : State, t.Registered → (finish t).Registered

theorem initFreshFinish_sound (F : Fmt) (rows cols : Nat) : SoundFinish (initFreshFinish F rows cols) where
  toOffers := initFreshFinish_offers F rows cols
  hdr t := (initFreshFinish_sameHeader rows cols t).hdr
  n t := by unfold initFreshFinish; split <;> simp
  registered _ := initFreshFinish_registered rows cols

theorem initReuseFinish_sound (F : Fmt) (handle rows cols : Nat) : SoundFinish (initReuseFinish F handle rows cols) where
  toOffers := initReuseFinish_offers F handle rows cols
  hdr t := (initReuseFinish_sameHeader handle rows cols t).hdr
  n t := by unfold initReuseFinish; split <;> simp
  registered _ := initReuseFinish_registered handle rows cols

theorem illegal_sound (w : Beat) : SoundFinish (fun t => t.offerBeat (illegalStatus w)) where
  toOffers := illegal_offers w
  hdr _ := rfl
  n _ := rfl
  registered _ h := h.offerBeat _

theorem State.Registered.payloadFirst {accepted : Bool} {finish : State → State} (h : s.Registered)
    (hb : s.blocked = false) (hf : SoundFinish finish) : (s.payloadFirst accepted finish).Registered := by
  rcases State.payloadFirst_cases hb accepted finish with ⟨-, b, -, he⟩ | ⟨-, b, -, he⟩ | ⟨-, he⟩ <;> rw [he]
  · exact hf.registered _ (h.takeBeat accepted b)
  · exact h.takeBeat accepted b
  · exact h.acceptResponse

/-- An INIT's payload beat, not the last: kept, if the INIT is accepted. -/
theorem State.Progress.takeBeat {accepted : Bool} (h : s.Progress) (b : Beat) (hp : s.phase = .payload) (hl : 0 < s.left)
    (hop : opField s.hdr ≠ 0x2#4) (hacc : ∀ i, decode s.hdr = .ok i → verdict i s = .ok → accepted = true) :
    (s.takeBeat accepted b).Progress where
  window := by
    have := h.window
    rw [State.takeBeat_n, State.takeBeat_left]
    omega
  status_last hresp := by simp [hp] at hresp
  kept _ i hi hinit hok := by
    have hok' : verdict i s = .ok := (verdict_congr i rfl fun _ => by simp) ▸ hok
    have hkept := h.kept hp i hi hinit hok'
    simp only [State.takeBeat_got, State.takeBeat_left, hacc i hi hok', if_true, List.length_append, List.length_singleton]
    omega
  position _ i hi hni := absurd (opField_of_apply hi hni) hop

theorem State.Progress.payloadFirst {accepted : Bool} {finish : State → State} (h : s.Progress) (ht : s.Tidy)
    (hb : s.blocked = false) (hf : SoundFinish finish) (hop : opField s.hdr ≠ 0x2#4)
    (hacc : ∀ i, decode s.hdr = .ok i → verdict i s = .ok → accepted = true) :
    (s.payloadFirst accepted finish).Progress := by
  rcases State.payloadFirst_cases hb accepted finish with ⟨-, b, h0, he⟩ | ⟨hp, b, -, he⟩ | ⟨hp, he⟩ <;> rw [he]
  · refine .of_responding (hf.phase _) ((hf.left _).trans h0) (by rwa [hf.hdr]) ?_
    rw [hf.n]
    exact (Nat.le_add_right _ _).trans h.window
  · exact h.takeBeat b hp (ht.payload hp).1 hop hacc
  · exact h.acceptResponse hp

/-- A packet whose status comes last keeps the invariant, if it keeps the payload beats of an accepted INIT. -/
theorem State.Inv.payloadFirst {accepted : Bool} {finish : State → State} (h : s.Inv) (hb : s.blocked = false)
    (hf : SoundFinish finish) (hop : opField s.hdr ≠ 0x2#4)
    (hacc : ∀ i, decode s.hdr = .ok i → verdict i s = .ok → accepted = true) : (s.payloadFirst accepted finish).Inv := by
  obtain ⟨hr, ht, hpr⟩ := s.inv_iff.1 h
  exact (State.inv_iff _).2
    ⟨hr.payloadFirst hb hf, (State.payloadFirst_good hf.toOffers ht hb).tidy, hpr.payloadFirst ht hb hf hop hacc⟩

/-- What a packet of header `w` whose status came first does with a payload beat, so that it keeps the invariant: an accepted
APPLY moves its sample index on. -/
structure SoundConsume (w : Beat) (consume : Beat → State → State) : Prop extends Consumes consume where
  hdr : ∀ b t, (consume b t).hdr = t.hdr
  n_le : ∀ b t, (consume b t).n ≤ t.n + 1
  registered : ∀ (b : Beat) (t : State), t.Registered → (consume b t).Registered
  sample : ∀ i b t, decode w = .ok i → verdict i (consume b t) = .ok → verdict i t = .ok ∧ (consume b t).n = t.n + 1

theorem discard_sound {e : Reject} (hd : decode w = .error e) : SoundConsume w (fun _ t => t.discardBeat) where
  toConsumes := discard_consumes
  hdr _ _ := rfl
  n_le _ t := Nat.le_succ t.n
  registered _ _ h := h.discardBeat
  sample i _ _ hi := by rw [hd] at hi; cases hi

@[simp] theorem State.setSlot_count (s : State) (F G : Fmt) (h : Nat) (v : Slot F) :
    ((s.setSlot F h v).bank G).count = (s.bank G).count := by
  cases F <;> cases G <;> rfl

/-- An APPLY's payload beat allocates nothing. -/
@[simp] theorem applyConsume_count (G : Fmt) (handle : Nat) (b : Beat) (s : State) :
    ((applyConsume F handle b s).bank G).count = (s.bank G).count := by
  unfold applyConsume
  split <;> simp [applySample]

@[simp] theorem applyConsume_maxFilters (handle : Nat) (b : Beat) (s : State) :
    (applyConsume F handle b s).maxFilters = s.maxFilters := by
  unfold applyConsume
  split <;> simp [applySample]

theorem applyConsume_of_ok {handle : Nat} (h : applyVerdict F handle s = .ok) (b : Beat) :
    applyConsume F handle b s = applySample F handle b s := by
  simp [applyConsume, h]

theorem verdict_applyCmd (handle nsamp : Nat) (s : State) :
    verdict (applyCmd F handle nsamp) s = applyVerdict F handle s := by
  cases F <;> rfl

theorem applyConsume_sound {handle nsamp : Nat} (hd : decode w = .ok (applyCmd F handle nsamp)) :
    SoundConsume w (applyConsume F handle) where
  toConsumes := applyConsume_consumes F handle
  hdr b t := (applyConsume_sameHeader handle b t).hdr
  n_le b t := by unfold applyConsume; split <;> simp [applySample]
  registered b _ := applyConsume_registered handle b
  sample i b t hi hok := by
    rw [verdict_congr i (applyConsume_maxFilters handle b t) fun G => applyConsume_count G handle b t] at hok
    obtain rfl : applyCmd F handle nsamp = i := Except.ok.inj (hd.symm.trans hi)
    refine ⟨hok, ?_⟩
    rw [verdict_applyCmd] at hok
    simp [applyConsume_of_ok hok, applySample]

theorem State.Registered.statusFirst {consume : Beat → State → State} (h : s.Registered) (hb : s.blocked = false)
    (hc : SoundConsume w consume) : (s.statusFirst consume).Registered := by
  rcases State.statusFirst_cases hb consume with ⟨-, b, he⟩ | ⟨-, he⟩ <;> rw [he]
  · exact hc.registered b _ h.dropBeat
  · exact h.acceptResponse

/-- A payload beat of a packet whose status came first: LEFT goes down, and an accepted APPLY's `n` up. -/
theorem State.Progress.consume {consume : Beat → State → State} (h : s.Progress) (b : Beat) (hp : s.phase = .payload)
    (hl : 0 < s.left) (hc : SoundConsume s.hdr consume) (hop : opField s.hdr = 0x2#4) :
    (consume b s.dropBeat).Progress where
  window := by
    have hwindow := h.window
    have hn := hc.n_le b s.dropBeat
    rw [State.dropBeat_n] at hn
    rw [hc.left, State.dropBeat_left]
    omega
  status_last _ hne := absurd (by rw [hc.hdr]; exact hop) hne
  kept _ i hi hinit := absurd (by rw [hc.hdr]; exact hop) (opField_of_init hi hinit)
  position _ i hi hni hok := by
    rw [hc.hdr] at hi
    obtain ⟨hok', hn⟩ := hc.sample i b s.dropBeat hi hok
    have hpos := h.position (by simp [hp]) i hi hni ((verdict_congr i rfl fun _ => by simp) ▸ hok')
    rw [hn, hc.left, State.dropBeat_n, State.dropBeat_left]
    omega

/-- A packet whose status came first keeps the invariant. -/
theorem State.Inv.statusFirst {consume : Beat → State → State} (h : s.Inv) (hb : s.blocked = false)
    (hc : SoundConsume s.hdr consume) (hop : opField s.hdr = 0x2#4) : (s.statusFirst consume).Inv := by
  obtain ⟨hr, ht, hpr⟩ := s.inv_iff.1 h
  refine (State.inv_iff _).2 ⟨hr.statusFirst hb hc, (State.statusFirst_good hc.toConsumes ht hb).tidy, ?_⟩
  rcases State.statusFirst_cases hb consume with ⟨hp, b, he⟩ | ⟨hp, he⟩ <;> rw [he]
  · exact hpr.consume b hp (ht.payload hp).1 hc hop
  · exact hpr.acceptResponse hp

/-! ### Every packet's moves and starts -/

/-- A move of the command whose header HDR holds. -/
theorem State.Inv.moveCommand {i : Instr} (h : s.Inv) (hb : s.blocked = false) (hd : decode s.hdr = .ok i) :
    (moveCommand i s).Inv := by
  have hacc (a : Bool) (ha : verdict i s = .ok → a = true) :
      ∀ j, decode s.hdr = .ok j → verdict j s = .ok → a = true := fun j hj hv =>
    ha (Except.ok.inj (hd.symm.trans hj) ▸ hv)
  cases i with
  | initF32 rows cols =>
    exact h.payloadFirst hb (initFreshFinish_sound .f32 rows cols) (opField_of_init hd rfl) (hacc _ fun hv => beq_iff_eq.2 hv)
  | initF64 rows cols =>
    exact h.payloadFirst hb (initFreshFinish_sound .f64 rows cols) (opField_of_init hd rfl) (hacc _ fun hv => beq_iff_eq.2 hv)
  | initF32R handle rows cols =>
    exact h.payloadFirst hb (initReuseFinish_sound .f32 handle rows cols) (opField_of_init hd rfl)
      (hacc _ fun hv => beq_iff_eq.2 hv)
  | initF64R handle rows cols =>
    exact h.payloadFirst hb (initReuseFinish_sound .f64 handle rows cols) (opField_of_init hd rfl)
      (hacc _ fun hv => beq_iff_eq.2 hv)
  | applyF32 handle nsamp => exact h.statusFirst hb (applyConsume_sound (F := .f32) hd) (opField_of_apply hd rfl)
  | applyF64 handle nsamp => exact h.statusFirst hb (applyConsume_sound (F := .f64) hd) (opField_of_apply hd rfl)

theorem State.Inv.moveIllegal {e : Reject} (h : s.Inv) (hb : s.blocked = false) (hd : decode s.hdr = .error e) :
    (moveIllegal s.hdr s).Inv := by
  unfold Machine.moveIllegal
  split
  · next hop => exact h.statusFirst hb (discard_sound hd) hop
  · next hop => exact h.payloadFirst hb (illegal_sound s.hdr) hop fun i hi => by rw [hd] at hi; cases hi

theorem State.Inv.moveCurrent (h : s.Inv) (hb : s.blocked = false) : (moveCurrent s).Inv := by
  unfold Machine.moveCurrent
  split
  · next i hd => exact h.moveCommand hb hd
  · next e hd => exact h.moveIllegal hb hd

/-- A packet that begins and whose status comes last. -/
theorem State.Registered.beginInit {len : Nat} {finish : State → State} (hs : s.Registered) (hf : SoundFinish finish)
    (hop : opField w ≠ 0x2#4) (hlen : len ≤ 2 ^ 24 - 1) (hi : ∀ i, decode w = .ok i → i.payloadBeats = len) :
    (s.beginInit w len finish).Inv := by
  refine (State.inv_iff _).2 ⟨?_, s.beginInit_tidy w len hf.toOffers, ?_⟩ <;> unfold State.beginInit <;> split
  · exact hf.registered _ (hs.beginCommand w len)
  · exact hs.beginCommand w len
  · next h0 =>
    exact .of_responding (hf.phase _) (by rw [hf.left]; exact h0) (by rwa [hf.hdr]) (by rw [hf.n]; exact Nat.zero_le _)
  · refine ⟨?_, fun h => (by cases h), fun _ i hd _ _ => ?_, fun _ i hd hni => ?_⟩
    · simpa using hlen
    · simpa using (hi i hd).symm
    · exact absurd (opField_of_apply hd hni) hop

/-- A packet that begins and whose status comes first. -/
theorem State.Registered.beginOffer {len : Nat} (hs : s.Registered) (hop : opField w = 0x2#4) (hlen : len ≤ 2 ^ 24 - 1)
    (hi : ∀ i, decode w = .ok i → i.payloadBeats = len) (b : Beat) : ((s.beginCommand w len).offerBeat b).Inv := by
  refine (State.inv_iff _).2 ⟨(hs.beginCommand w len).offerBeat b, by constructor <;> simp, ?_⟩
  refine ⟨?_, fun _ hne => absurd hop hne, fun h => (by cases h), fun _ i hd _ _ => ?_⟩
  · simpa using hlen
  · simpa using (hi i hd).symm

theorem State.Registered.startCommand {i : Instr} (hs : s.Registered) (hd : decode w = .ok i) : (startCommand i s).Inv := by
  have hwf := (decode_ok hd).1
  have henc := decode_encode hwf
  have hlen := payloadBeats_le hwf
  have hi : ∀ j, decode (encode i) = .ok j → j.payloadBeats = i.payloadBeats := fun j hj =>
    congrArg Instr.payloadBeats (Except.ok.inj (hj.symm.trans henc))
  cases i with
  | initF32 rows cols => exact hs.beginInit (initFreshFinish_sound .f32 rows cols) (opField_of_init henc rfl) hlen hi
  | initF64 rows cols => exact hs.beginInit (initFreshFinish_sound .f64 rows cols) (opField_of_init henc rfl) hlen hi
  | initF32R handle rows cols =>
    exact hs.beginInit (initReuseFinish_sound .f32 handle rows cols) (opField_of_init henc rfl) hlen hi
  | initF64R handle rows cols =>
    exact hs.beginInit (initReuseFinish_sound .f64 handle rows cols) (opField_of_init henc rfl) hlen hi
  | applyF32 handle nsamp => exact hs.beginOffer (opField_of_apply henc rfl) hlen hi _
  | applyF64 handle nsamp => exact hs.beginOffer (opField_of_apply henc rfl) hlen hi _

theorem State.Registered.startIllegal {e : Reject} (hs : s.Registered) (hd : decode w = .error e) : (startIllegal w s).Inv := by
  have hi : ∀ i, decode w = .ok i → i.payloadBeats = payloadLen w := fun i hi => by rw [hd] at hi; cases hi
  by_cases hop : opField w = 0x2#4
  · have he : Machine.startIllegal w s = (s.beginCommand w (payloadLen w)).offerBeat (illegalStatus w) := by
      simp [Machine.startIllegal, hop]
    rw [he]
    exact hs.beginOffer hop (payloadLen_le w) hi _
  · have he : Machine.startIllegal w s =
        s.beginInit w (payloadLen w) (fun t => t.offerBeat (illegalStatus w)) := by
      simp [Machine.startIllegal, State.beginInit, hop]
    rw [he]
    exact hs.beginInit (illegal_sound w) hop (payloadLen_le w) hi

/-- Every packet begins in the invariant. -/
theorem State.Registered.startHeader (hs : s.Registered) (w : Beat) : (startHeader w s).Inv := by
  unfold Machine.startHeader
  split
  · next i hd => exact hs.startCommand hd
  · next e hd => exact hs.startIllegal hd

/-- A reset edge leaves the invariant, whatever was under way. -/
theorem State.Registered.resetEdge (hs : s.Registered) : s.resetEdge.Inv := by
  refine (State.inv_iff _).2 ⟨⟨hs.max_pos, hs.max_le, .zero .f32 _, .zero .f64 _⟩, by constructor <;> simp, ?_⟩
  exact ⟨by simp, fun _ _ => rfl, fun h => (by cases h), fun h => absurd rfl h⟩

/-- Settles O45: after a reset edge and after an accepted header the invariant holds by the register files' part alone, and every
move keeps it. -/
theorem stepKeepsInvariant : Obligations.StepKeepsInvariant := by
  intro s t hs hstep
  obtain ⟨hr, -, -⟩ := s.inv_iff.1 hs
  obtain ⟨t', ht', hinv⟩ := step_induct (s := s) (P := State.Inv) (fun _ => hr.resetEdge)
    (fun w rest _ _ _ => State.Registered.startHeader (s := { s with cmd := rest }) ⟨hr.max_pos, hr.max_le, hr.f32, hr.f64⟩ w)
    (fun u hu hb => hu.moveCurrent hb) (fun _ => hs)
  rw [hstep] at ht'
  cases ht'
  exact hinv

end Sys2Proof.Machine

/-! PROOFS. O46: a packet advances COUNT once at most, since the finish of a fresh INIT leaves nothing but its response. -/

namespace Sys2Proof.Machine

variable {F G : Fmt} {s : State} {m c : Nat}

/-! ### What a move can do to MAX_FILTERS and COUNT -/

/-- MAX_FILTERS is `m`, and COUNT is `c`, or one more with nothing of the packet left but a response. -/
structure State.Counted (s : State) (G : Fmt) (m c : Nat) : Prop where
  maxFilters : s.maxFilters = m
  count : (s.bank G).count = c ∨ ((s.bank G).count = c + 1 ∧ s.left = 0 ∧ s.phase ≠ .payload)

/-- A finish that advances COUNT by 1 at most. -/
structure Counts (G : Fmt) (finish : State → State) : Prop extends Offers finish where
  maxFilters : ∀ t, (finish t).maxFilters = t.maxFilters
  count : ∀ t, ((finish t).bank G).count = (t.bank G).count ∨ ((finish t).bank G).count = (t.bank G).count + 1

theorem initFreshFinish_counts (F G : Fmt) (rows cols : Nat) : Counts G (initFreshFinish F rows cols) where
  toOffers := initFreshFinish_offers F rows cols
  maxFilters t := by unfold initFreshFinish; split <;> simp
  count t := by
    unfold initFreshFinish
    split
    · by_cases h : G = F
      · subst h; simp
      · simp [State.setCount_bank_other _ _ h]
    · simp

theorem initReuseFinish_counts (F G : Fmt) (handle rows cols : Nat) : Counts G (initReuseFinish F handle rows cols) where
  toOffers := initReuseFinish_offers F handle rows cols
  maxFilters t := by unfold initReuseFinish; split <;> simp
  count t := by unfold initReuseFinish; split <;> simp

theorem illegal_counts (G : Fmt) (w : Beat) : Counts G (fun t => t.offerBeat (illegalStatus w)) where
  toOffers := illegal_offers w
  maxFilters _ := rfl
  count t := .inl (by simp)

theorem State.Counted.acceptResponse (h : s.Counted G m c) : s.acceptResponse.Counted G m c := by
  rcases s.acceptResponse_cases with ⟨b, r, -, -, he⟩ | ⟨-, he⟩ <;> rw [he]
  · exact ⟨h.maxFilters, by simpa using h.count.imp_right fun ⟨hc, hl, _⟩ => ⟨hc, hl, by simp [hl, phaseAfter]⟩⟩
  · exact h

/-- While payload is awaited, COUNT has not been advanced. -/
theorem State.Counted.of_payload (h : s.Counted G m c) (hp : s.phase = .payload) : (s.bank G).count = c :=
  h.count.resolve_right fun ⟨_, _, hne⟩ => hne hp

theorem State.Counted.payloadFirst {accepted : Bool} {finish : State → State} (h : s.Counted G m c)
    (hb : s.blocked = false) (hf : Counts G finish) : (s.payloadFirst accepted finish).Counted G m c := by
  rcases State.payloadFirst_cases hb accepted finish with ⟨hp, b, h0, he⟩ | ⟨hp, b, -, he⟩ | ⟨-, he⟩ <;> rw [he]
  · have hcount : ((s.takeBeat accepted b).bank G).count = c := by simpa using h.of_payload hp
    refine ⟨(hf.maxFilters _).trans h.maxFilters, (hf.count _).imp (·.trans hcount) fun hadv => ?_⟩
    exact ⟨by rw [hadv, hcount], (hf.left _).trans h0, by simp [hf.phase]⟩
  · exact ⟨h.maxFilters, .inl (by simpa using h.of_payload hp)⟩
  · exact h.acceptResponse

theorem State.Counted.statusFirst {consume : Beat → State → State} (h : s.Counted G m c) (hb : s.blocked = false)
    (hm : ∀ b t, (consume b t).maxFilters = t.maxFilters)
    (hcount : ∀ b t, ((consume b t).bank G).count = (t.bank G).count) : (s.statusFirst consume).Counted G m c := by
  rcases State.statusFirst_cases hb consume with ⟨hp, b, he⟩ | ⟨-, he⟩ <;> rw [he]
  · exact ⟨(hm _ _).trans h.maxFilters, .inl (by simpa [hcount] using h.of_payload hp)⟩
  · exact h.acceptResponse

theorem State.Counted.moveCommand (i : Instr) (h : s.Counted G m c) (hb : s.blocked = false) :
    (moveCommand i s).Counted G m c := by
  cases i with
  | initF32 rows cols => exact h.payloadFirst hb (initFreshFinish_counts .f32 G rows cols)
  | initF64 rows cols => exact h.payloadFirst hb (initFreshFinish_counts .f64 G rows cols)
  | initF32R handle rows cols => exact h.payloadFirst hb (initReuseFinish_counts .f32 G handle rows cols)
  | initF64R handle rows cols => exact h.payloadFirst hb (initReuseFinish_counts .f64 G handle rows cols)
  | applyF32 handle nsamp =>
    exact h.statusFirst hb (applyConsume_maxFilters (F := .f32) handle) (applyConsume_count (F := .f32) G handle)
  | applyF64 handle nsamp =>
    exact h.statusFirst hb (applyConsume_maxFilters (F := .f64) handle) (applyConsume_count (F := .f64) G handle)

theorem State.Counted.moveIllegal (w : Beat) (h : s.Counted G m c) (hb : s.blocked = false) :
    (moveIllegal w s).Counted G m c := by
  unfold Machine.moveIllegal
  split
  · exact h.statusFirst hb (fun _ t => t.discardBeat_maxFilters) fun _ t => congrArg Bank.count (t.discardBeat_bank G)
  · exact h.payloadFirst hb (illegal_counts G w)

theorem State.Counted.moveCurrent (h : s.Counted G m c) (hb : s.blocked = false) : (moveCurrent s).Counted G m c := by
  unfold Machine.moveCurrent
  split
  · exact h.moveCommand _ hb
  · exact h.moveIllegal _ hb

/-! ### What accepting a header can do to them -/

theorem State.beginInit_counted (s : State) (w : Beat) (len : Nat) {finish : State → State} (hf : Counts G finish) :
    (s.beginInit w len finish).Counted G s.maxFilters (s.bank G).count := by
  unfold State.beginInit
  split
  · next h0 =>
    refine ⟨hf.maxFilters _, ?_⟩
    rcases hf.count (s.beginCommand w len) with hsame | hadv
    · exact .inl (by simpa using hsame)
    · exact .inr ⟨by simpa using hadv, by simp [hf.left, h0], by simp [hf.phase]⟩
  · exact ⟨rfl, .inl (by simp)⟩

theorem startCommand_counted (i : Instr) (s : State) : (startCommand i s).Counted G s.maxFilters (s.bank G).count := by
  cases i with
  | initF32 rows cols => exact s.beginInit_counted _ _ (initFreshFinish_counts .f32 G rows cols)
  | initF64 rows cols => exact s.beginInit_counted _ _ (initFreshFinish_counts .f64 G rows cols)
  | initF32R handle rows cols => exact s.beginInit_counted _ _ (initReuseFinish_counts .f32 G handle rows cols)
  | initF64R handle rows cols => exact s.beginInit_counted _ _ (initReuseFinish_counts .f64 G handle rows cols)
  | applyF32 handle nsamp => exact ⟨rfl, .inl (by simp [startCommand, startApplyF32, State.beginApply])⟩
  | applyF64 handle nsamp => exact ⟨rfl, .inl (by simp [startCommand, startApplyF64, State.beginApply])⟩

theorem startHeader_counted (w : Beat) (s : State) : (startHeader w s).Counted G s.maxFilters (s.bank G).count := by
  unfold startHeader
  split
  · exact startCommand_counted _ s
  · unfold startIllegal
    split <;> exact ⟨rfl, .inl (by simp)⟩

/-- Settles O46: a reset edge keeps MAX_FILTERS, and otherwise `State.Counted` holds of every state the step passes through. -/
theorem countNeverDecreases : Obligations.CountNeverDecreases := by
  intro s t G hstep
  cases hr : s.rst with
  | true =>
    obtain rfl : s.resetEdge = t := by simpa [step_of_reset hr] using hstep
    exact ⟨rfl, fun h => by cases h⟩
  | false =>
    obtain ⟨t', ht', hcounted⟩ := step_induct (P := fun u => u.Counted G s.maxFilters (s.bank G).count)
      (fun h => by rw [hr] at h; cases h) (fun w rest _ _ _ => startHeader_counted w { s with cmd := rest })
      (fun u hu hb => hu.moveCurrent hb) (fun _ => ⟨rfl, .inl rfl⟩)
    obtain rfl : t' = t := by simpa [ht'] using hstep
    exact ⟨hcounted.maxFilters, fun _ => hcounted.count.imp_right And.left⟩

end Sys2Proof.Machine

/-! PROOFS. O7 and O8: a beat is its 8 bytes appended, and a value of a bank is the beat's low bits. -/

namespace Sys2Proof

/-! ### The byte view (spec/20_memory.md R55) -/

theorem bytesOfBeat_eq (w : Beat) : bytesOfBeat w =
    [w.extractLsb' 0 8, w.extractLsb' 8 8, w.extractLsb' 16 8, w.extractLsb' 24 8, w.extractLsb' 32 8, w.extractLsb' 40 8,
      w.extractLsb' 48 8, w.extractLsb' 56 8] := rfl

theorem bytesOfBeat_getD (w : Beat) {k : Nat} (hk : k < 8) : (bytesOfBeat w).getD k 0#8 = w.extractLsb' (8 * k) 8 := by
  simp [bytesOfBeat, hk]

/-- A beat is its bytes. -/
theorem beat_bytes (w : Beat) :
    w = w.extractLsb' 56 8 ++ w.extractLsb' 48 8 ++ w.extractLsb' 40 8 ++ w.extractLsb' 32 8 ++ w.extractLsb' 24 8 ++
      w.extractLsb' 16 8 ++ w.extractLsb' 8 8 ++ w.extractLsb' 0 8 := by
  apply BitVec.eq_of_getLsbD_eq
  intro i hi
  simp only [BitVec.getLsbD_append, BitVec.getLsbD_extractLsb']
  interval_cases i <;> simp

/-- The bytes of a beat, pairwise. -/
theorem eight_append_iff (a a' b b' c c' d d' e e' f f' g g' h h' : Byte) :
    a ++ b ++ c ++ d ++ e ++ f ++ g ++ h = a' ++ b' ++ c' ++ d' ++ e' ++ f' ++ g' ++ h' ↔
      a = a' ∧ b = b' ∧ c = c' ∧ d = d' ∧ e = e' ∧ f = f' ∧ g = g' ∧ h = h' := by
  simp only [append_eq_append_iff, and_assoc]

theorem bytesOfBeat_beatOfBytes (b0 b1 b2 b3 b4 b5 b6 b7 : Byte) :
    bytesOfBeat (beatOfBytes b0 b1 b2 b3 b4 b5 b6 b7) = [b0, b1, b2, b3, b4, b5, b6, b7] := by
  obtain ⟨h7, h6, h5, h4, h3, h2, h1, h0⟩ :=
    (eight_append_iff _ _ _ _ _ _ _ _ _ _ _ _ _ _ _ _).1 (beat_bytes (beatOfBytes b0 b1 b2 b3 b4 b5 b6 b7))
  rw [bytesOfBeat_eq, ← h0, ← h1, ← h2, ← h3, ← h4, ← h5, ← h6, ← h7]

/-- Settles O7: byte `k` is the beat's bits from `8k` on, and a beat has no other bits than its bytes'. -/
theorem bytesLittleEndian : Obligations.BytesLittleEndian := by
  refine ⟨fun w => ⟨rfl, fun k i hk hi => ?_⟩, bytesOfBeat_beatOfBytes⟩
  rw [bytesOfBeat_getD w hk, BitVec.getLsbD_extractLsb', decide_eq_true hi, Bool.true_and]

end Sys2Proof

namespace Sys2Proof.Machine

/-! ### Values in beats (spec/20_memory.md R54) -/

/-- Settles O8: a value is the low bits of its beat; in bank 1 they are the whole beat. -/
theorem valuesInBeats : Obligations.ValuesInBeats := by
  refine ⟨fun b i hi => ?_, fun v => ⟨?_, ?_⟩, fun b => BitVec.setWidth_eq b, fun v => BitVec.setWidth_eq v⟩
  · simp [valueOfBeat, Fmt.width, hi]
  · simp [valueOfBeat, beatOfValue, Fmt.width]
  · ext i hi
    simp [beatOfValue, Fmt.width]

end Sys2Proof.Machine

/-! PROOFS. O47: the other bank's contents may be put in before a command's moves or after them (`State.setBank`), since no
operation of a bank's command reads the other bank. -/

namespace Sys2Proof.Machine

variable {F G : Fmt} {s t : State} {b : Bank G}

/-! ### A command as its bank's: the bank is an argument of one case, not one case of two -/

/-- Every command is a fresh INIT, an INIT.R or an APPLY of some bank. -/
theorem command_cases {motive : Instr → Prop} (fresh : ∀ F rows cols, motive (freshInit F rows cols))
    (reuse : ∀ F handle rows cols, motive (reuseInit F handle rows cols))
    (apply : ∀ F handle nsamp, motive (applyCmd F handle nsamp)) (i : Instr) : motive i := by
  cases i with
  | initF32 rows cols => exact fresh .f32 rows cols
  | initF64 rows cols => exact fresh .f64 rows cols
  | initF32R handle rows cols => exact reuse .f32 handle rows cols
  | initF64R handle rows cols => exact reuse .f64 handle rows cols
  | applyF32 handle nsamp => exact apply .f32 handle nsamp
  | applyF64 handle nsamp => exact apply .f64 handle nsamp

section
variable (F : Fmt) (handle rows cols nsamp : Nat) (s : State)

@[simp] theorem freshInit_bank : (freshInit F rows cols).bank = F := by cases F <;> rfl
@[simp] theorem reuseInit_bank : (reuseInit F handle rows cols).bank = F := by cases F <;> rfl
@[simp] theorem applyCmd_bank : (applyCmd F handle nsamp).bank = F := by cases F <;> rfl

theorem startCommand_freshInit : startCommand (freshInit F rows cols) s =
    s.beginInit (encode (freshInit F rows cols)) (rows * cols) (initFreshFinish F rows cols) := by cases F <;> rfl

theorem startCommand_reuseInit : startCommand (reuseInit F handle rows cols) s =
    s.beginInit (encode (reuseInit F handle rows cols)) (rows * cols) (initReuseFinish F handle rows cols) := by
  cases F <;> rfl

theorem startCommand_applyCmd : startCommand (applyCmd F handle nsamp) s =
    s.beginApply F (encode (applyCmd F handle nsamp)) handle nsamp := by cases F <;> rfl

theorem moveCommand_freshInit : moveCommand (freshInit F rows cols) s =
    s.payloadFirst (initFreshVerdict F rows cols s == .ok) (initFreshFinish F rows cols) := by cases F <;> rfl

theorem moveCommand_reuseInit : moveCommand (reuseInit F handle rows cols) s =
    s.payloadFirst (initReuseVerdict F handle rows cols s == .ok) (initReuseFinish F handle rows cols) := by cases F <;> rfl

theorem moveCommand_applyCmd : moveCommand (applyCmd F handle nsamp) s = s.statusFirst (applyConsume F handle) := by
  cases F <;> rfl

end

/-! ### What every command's operations do does not depend on a bank they do not name -/

theorem State.setBank_comm (hne : G ≠ F) (c : Bank F) : (s.setBank G b).setBank F c = (s.setBank F c).setBank G b := by
  cases F <;> cases G
  · exact absurd rfl hne
  · rfl
  · rfl
  · exact absurd rfl hne

@[simp] theorem State.setBank_blocked : (s.setBank G b).blocked = s.blocked := by cases G <;> rfl

@[simp] theorem State.beginCommand_setBank (w : Beat) (len : Nat) :
    (s.setBank G b).beginCommand w len = (s.beginCommand w len).setBank G b := by cases G <;> rfl

@[simp] theorem State.offerBeat_setBank (o : Beat) : (s.setBank G b).offerBeat o = (s.offerBeat o).setBank G b := by
  cases G <;> rfl

@[simp] theorem State.clearGot_setBank : (s.setBank G b).clearGot = s.clearGot.setBank G b := by cases G <;> rfl

@[simp] theorem State.sampleDone_setBank (ops : Nat) : (s.setBank G b).sampleDone ops = (s.sampleDone ops).setBank G b := by
  cases G <;> rfl

@[simp] theorem State.discardBeat_setBank : (s.setBank G b).discardBeat = s.discardBeat.setBank G b := by cases G <;> rfl

@[simp] theorem State.dropBeat_setBank : (s.setBank G b).dropBeat = s.dropBeat.setBank G b := by cases G <;> rfl

@[simp] theorem State.takeBeat_setBank (accepted : Bool) (p : Beat) :
    (s.setBank G b).takeBeat accepted p = (s.takeBeat accepted p).setBank G b := by cases G <;> rfl

@[simp] theorem State.responseTaken_setBank (o : Beat) (r : Ready) :
    (s.setBank G b).responseTaken o r = (s.responseTaken o r).setBank G b := by cases G <;> rfl

@[simp] theorem State.acceptResponse_setBank : (s.setBank G b).acceptResponse = s.acceptResponse.setBank G b := by
  simp only [State.acceptResponse, State.setBank_offer, State.setBank_ready, State.responseTaken_setBank]
  split <;> rfl

section
variable (hne : G ≠ F)
include hne

theorem State.setSlot_setBank (h : Nat) (v : Slot F) : (s.setBank G b).setSlot F h v = (s.setSlot F h v).setBank G b := by
  simp only [State.setSlot, State.bank_setBank_other _ _ hne.symm, State.setBank_comm hne]

theorem State.setCount_setBank (c : Nat) : (s.setBank G b).setCount F c = (s.setCount F c).setBank G b := by
  simp only [State.setCount, State.bank_setBank_other _ _ hne.symm, State.setBank_comm hne]

theorem State.slot_setBank (h : Nat) : (s.setBank G b).slot F h = s.slot F h := by
  simp only [State.slot, State.bank_setBank_other _ _ hne.symm]

theorem initFreshVerdict_setBank (rows cols : Nat) :
    initFreshVerdict F rows cols (s.setBank G b) = initFreshVerdict F rows cols s := by
  simp only [initFreshVerdict, State.bank_setBank_other _ _ hne.symm, State.setBank_maxFilters]

theorem State.validHandle_setBank (h : Nat) : (s.setBank G b).validHandle F h = s.validHandle F h := by
  rw [State.validHandle, State.validHandle, State.bank_setBank_other _ _ hne.symm]

theorem initReuseVerdict_setBank (handle rows cols : Nat) :
    initReuseVerdict F handle rows cols (s.setBank G b) = initReuseVerdict F handle rows cols s := by
  simp only [initReuseVerdict, State.validHandle_setBank hne]

theorem applyVerdict_setBank (handle : Nat) : applyVerdict F handle (s.setBank G b) = applyVerdict F handle s := by
  simp only [applyVerdict, State.validHandle_setBank hne]

theorem applyStatus_setBank (handle nsamp : Nat) :
    applyStatus F handle nsamp (s.setBank G b) = applyStatus F handle nsamp s := by
  simp only [applyStatus, applyVerdict_setBank hne]

theorem initFreshFinish_setBank (rows cols : Nat) :
    initFreshFinish F rows cols (s.setBank G b) = (initFreshFinish F rows cols s).setBank G b := by
  simp only [initFreshFinish, initFreshVerdict_setBank hne]
  split <;> simp [State.bank_setBank_other _ _ hne.symm, State.slot_setBank hne, State.setSlot_setBank hne,
    State.setCount_setBank hne]

theorem initReuseFinish_setBank (handle rows cols : Nat) :
    initReuseFinish F handle rows cols (s.setBank G b) = (initReuseFinish F handle rows cols s).setBank G b := by
  simp only [initReuseFinish, initReuseVerdict_setBank hne]
  split <;> simp [State.slot_setBank hne, State.setSlot_setBank hne]

theorem applyConsume_setBank (handle : Nat) (p : Beat) :
    applyConsume F handle p (s.setBank G b) = (applyConsume F handle p s).setBank G b := by
  simp only [applyConsume, applyVerdict_setBank hne]
  split <;> simp [applySample, State.slot_setBank hne, State.setSlot_setBank hne]

end

/-! ### The starts, the moves and settling -/

theorem State.beginInit_setBank (w : Beat) (len : Nat) {finish : State → State}
    (hf : ∀ t : State, finish (t.setBank G b) = (finish t).setBank G b) :
    (s.setBank G b).beginInit w len finish = (s.beginInit w len finish).setBank G b := by
  unfold State.beginInit
  split <;> simp [hf]

theorem State.payloadFirst_setBank {accepted : Bool} {finish : State → State}
    (hf : ∀ t : State, finish (t.setBank G b) = (finish t).setBank G b) :
    (s.setBank G b).payloadFirst accepted finish = (s.payloadFirst accepted finish).setBank G b := by
  simp only [State.payloadFirst, State.setBank_phase, State.setBank_cmd, State.acceptResponse_setBank, State.takeBeat_setBank,
    State.setBank_left, hf]
  split
  · rfl
  · rfl
  · split
    · rfl
    · split <;> rfl

theorem State.statusFirst_setBank {consume : Beat → State → State}
    (hc : ∀ (p : Beat) (t : State), consume p (t.setBank G b) = (consume p t).setBank G b) :
    (s.setBank G b).statusFirst consume = (s.statusFirst consume).setBank G b := by
  simp only [State.statusFirst, State.setBank_phase, State.setBank_cmd, State.acceptResponse_setBank, State.dropBeat_setBank, hc]
  split
  · rfl
  · rfl
  · split <;> rfl

theorem startCommand_setBank {i : Instr} (hne : G ≠ i.bank) :
    startCommand i (s.setBank G b) = (startCommand i s).setBank G b := by
  cases i using command_cases with
  | fresh F rows cols =>
    rw [freshInit_bank] at hne
    simp only [startCommand_freshInit]
    exact State.beginInit_setBank _ _ fun _ => initFreshFinish_setBank hne rows cols
  | reuse F handle rows cols =>
    rw [reuseInit_bank] at hne
    simp only [startCommand_reuseInit]
    exact State.beginInit_setBank _ _ fun _ => initReuseFinish_setBank hne handle rows cols
  | apply F handle nsamp =>
    rw [applyCmd_bank] at hne
    simp only [startCommand_applyCmd, State.beginApply, applyStatus_setBank hne, State.beginCommand_setBank,
      State.offerBeat_setBank]

theorem moveCommand_setBank {i : Instr} (hne : G ≠ i.bank) :
    moveCommand i (s.setBank G b) = (moveCommand i s).setBank G b := by
  cases i using command_cases with
  | fresh F rows cols =>
    rw [freshInit_bank] at hne
    simp only [moveCommand_freshInit, initFreshVerdict_setBank hne]
    exact State.payloadFirst_setBank fun _ => initFreshFinish_setBank hne rows cols
  | reuse F handle rows cols =>
    rw [reuseInit_bank] at hne
    simp only [moveCommand_reuseInit, initReuseVerdict_setBank hne]
    exact State.payloadFirst_setBank fun _ => initReuseFinish_setBank hne handle rows cols
  | apply F handle nsamp =>
    rw [applyCmd_bank] at hne
    simp only [moveCommand_applyCmd]
    exact State.statusFirst_setBank fun p _ => applyConsume_setBank hne handle p

theorem settleFor_setBank {move : State → State} (hmove : ∀ u : State, move (u.setBank G b) = (move u).setBank G b)
    (fuel : Nat) (s : State) : settleFor move fuel (s.setBank G b) = (settleFor move fuel s).setBank G b := by
  induction fuel generalizing s with
  | zero => rfl
  | succ fuel ih =>
    simp only [settleFor, State.setBank_blocked, hmove, ih]
    split <;> rfl

/-- With the other bank replaced, a command does the same but for that bank. -/
theorem exec_setBank {i : Instr} (hne : G ≠ i.bank) (hex : exec i s = .next t) :
    exec i (s.setBank G b) = .next (t.setBank G b) := by
  rw [exec_eq] at hex ⊢
  cases hex
  rw [startCommand_setBank hne, settle, State.setBank_left, settleFor_setBank fun u => moveCommand_setBank hne]
  rfl

/-- A command leaves the other bank: replacing that bank by itself changes nothing. -/
theorem exec_bank_other {i : Instr} (hne : G ≠ i.bank) (hex : exec i s = .next t) : t.bank G = s.bank G := by
  have hsame := exec_setBank (b := s.bank G) hne hex
  rw [State.setBank_bank, hex] at hsame
  have ht : t = t.setBank G (s.bank G) := by simpa using hsame
  rw [ht, State.bank_setBank_same]

/-- Settles O47: every operation of the command commutes with replacing the other bank. -/
theorem banksIndependent : Obligations.BanksIndependent :=
  fun _ _ _ _ _ hne hex => ⟨exec_setBank hne hex, exec_bank_other hne hex⟩

end Sys2Proof.Machine

/-! PROOFS. What O20, O21 and O22 rest on: the slot that the Coefficient Loader leaves. -/

namespace Sys2Proof.Machine

variable {F : Fmt}

/-! ### The Coefficient Loader, entry by entry (spec/40_init.md R101, R102, R109) -/

/-- What the loader writes into COEF entry `j`: row `j / 5`'s numerator verbatim, its denominator past `a0` negated. -/
def loadedCoef (F : Fmt) (m : List Beat) (j : Nat) : Value F :=
  if j % 5 < 3 then elem F m (6 * (j / 5) + j % 5) else fneg F (elem F m (6 * (j / 5) + j % 5 + 1))

theorem getElem_loadRow (m : List Beat) (coef : Vector (Value F) 80) (i : Nat) {j : Nat} (hj : j < 80) :
    (loadRow F m coef i)[j] = if j / 5 = i then loadedCoef F m j else coef[j] := by
  by_cases hi : j / 5 = i
  · obtain ⟨r, hr, rfl⟩ : ∃ r, r < 5 ∧ j = 5 * i + r := ⟨j % 5, by omega, by omega⟩
    have hdiv : (5 * i + r) / 5 = i := by omega
    have hmod : (5 * i + r) % 5 = r := by omega
    simp only [loadedCoef, hdiv, hmod, if_true, loadRow, Vector.getElem_setIfInBounds]
    interval_cases r <;> simp
  · have hne (r : Nat) (hr : r < 5) : 5 * i + r ≠ j := by omega
    simp [loadRow, hi, hne, show 5 * i ≠ j from hne 0 (by omega)]

theorem getElem_loadRows (m : List Beat) (rows : Nat) (coef : Vector (Value F) 80) {j : Nat} (hj : j < 80) :
    (loadRows F m rows coef)[j] = if j / 5 < rows then loadedCoef F m j else coef[j] := by
  induction rows with
  | zero => simp [loadRows]
  | succ rows ih =>
    rw [loadRows, getElem_loadRow, ih]
    grind

/-- The loader leaves the COEF entries past the matrix. -/
theorem loadSlot_coefAt_of_le (rows : Nat) (m : List Beat) (old : Slot F) {j : Nat} (hj : 5 * rows ≤ j) :
    (loadSlot F rows m old).coefAt j = old.coefAt j := by
  have hdiv : ¬j / 5 < rows := by omega
  by_cases h80 : j < 80
  · simp [Slot.coefAt, Vector.getD, h80, loadSlot, getElem_loadRows, hdiv]
  · simp [Slot.coefAt, Vector.getD, h80]

/-- Loading a matrix a second time changes nothing. -/
theorem loadSlot_loadSlot (rows : Nat) (m : List Beat) (old : Slot F) :
    loadSlot F rows m (loadSlot F rows m old) = loadSlot F rows m old := by
  have hcoef : loadRows F m rows (loadRows F m rows old.coef) = loadRows F m rows old.coef := by
    ext j hj
    simp only [getElem_loadRows]
    split <;> rfl
  simp only [loadSlot, hcoef]

end Sys2Proof.Machine

/-! PROOFS. O21, O22, O25: one frame (`Frame`) for the three commands: of its bank a command writes at most one slot, and it goes
forward on the streams. -/

namespace Sys2Proof.Machine

variable {F : Fmt} {Q : Slot F → Slot F → Prop} {h : Nat} {s t u : State}

/-! ### A command's run -/

/-- What a command's start brings about and its moves keep holds after its run. -/
theorem exec_induct {i : Instr} {P : State → Prop} (hstart : P (startCommand i s))
    (hmove : ∀ u, P u → u.blocked = false → P (moveCommand i u)) (hex : exec i s = .next t) : P t := by
  rw [exec_eq] at hex
  cases hex
  exact settle_induct hmove _ hstart

theorem exec_counted {i : Instr} (hex : exec i s = .next t) (F : Fmt) : t.Counted F s.maxFilters (s.bank F).count :=
  exec_induct (startCommand_counted i s) (fun _ => State.Counted.moveCommand i) hex

/-! ### The frame of a command that writes slot `h` of bank `F` -/

/-- From `s` to `t` every slot of bank `F` but `h` stays, slot `h` changes as `Q` says, responses are only added and command beats
only consumed from the front; and the slot file is still canonical. -/
structure Frame (F : Fmt) (h : Nat) (Q : Slot F → Slot F → Prop) (s t : State) : Prop where
  wf : slotsWf (t.bank F).slots = true
  others : ∀ k, k ≠ h → t.slot F k = s.slot F k
  own : Q (s.slot F h) (t.slot F h)
  rsp : s.rsp <+: t.rsp
  cmd : t.cmd <:+ s.cmd

theorem Frame.refl (hwf : slotsWf (s.bank F).slots = true) (hQ : ∀ v, Q v v) : Frame F h Q s s :=
  ⟨hwf, fun _ _ => rfl, hQ _, List.prefix_rfl, List.suffix_rfl⟩

/-- An operation that leaves the slots and goes forward on the streams. -/
theorem Frame.forward (hf : Frame F h Q s t) (hslots : (u.bank F).slots = (t.bank F).slots) (hrsp : t.rsp <+: u.rsp)
    (hcmd : u.cmd <:+ t.cmd) : Frame F h Q s u where
  wf := by rw [hslots, hf.wf]
  others k hk := by rw [State.slot, hslots]; exact hf.others k hk
  own := by rw [State.slot, State.slot, hslots]; exact hf.own
  rsp := hf.rsp.trans hrsp
  cmd := hcmd.trans hf.cmd

theorem Frame.setSlot (hf : Frame F h Q s t) {v : Slot F} (hv : Q (s.slot F h) v) : Frame F h Q s (t.setSlot F h v) where
  wf := by simpa using slotsWf_slotWrite hf.wf h v
  others k hk := by rw [State.slot_setSlot_other t hk, hf.others k hk]
  own := by rwa [State.slot_setSlot_same hf.wf]
  rsp := by simpa using hf.rsp
  cmd := by simpa using hf.cmd

theorem Frame.beginCommand (hf : Frame F h Q s t) (w : Beat) (len : Nat) : Frame F h Q s (t.beginCommand w len) :=
  hf.forward (by simp) List.prefix_rfl List.suffix_rfl

theorem Frame.offerBeat (hf : Frame F h Q s t) (b : Beat) : Frame F h Q s (t.offerBeat b) :=
  hf.forward (by simp) List.prefix_rfl List.suffix_rfl

theorem Frame.dropBeat (hf : Frame F h Q s t) : Frame F h Q s t.dropBeat :=
  hf.forward (by simp) List.prefix_rfl (List.tail_suffix _)

theorem Frame.takeBeat (hf : Frame F h Q s t) (accepted : Bool) (b : Beat) : Frame F h Q s (t.takeBeat accepted b) :=
  hf.forward (by simp) List.prefix_rfl (List.tail_suffix _)

theorem Frame.sampleDone (hf : Frame F h Q s t) (ops : Nat) : Frame F h Q s (t.sampleDone ops) :=
  hf.forward (by simp) List.prefix_rfl List.suffix_rfl

theorem Frame.discardBeat (hf : Frame F h Q s t) : Frame F h Q s t.discardBeat :=
  hf.forward (by simp) List.prefix_rfl List.suffix_rfl

theorem Frame.clearGot (hf : Frame F h Q s t) : Frame F h Q s t.clearGot :=
  hf.forward (by simp) List.prefix_rfl List.suffix_rfl

theorem Frame.setCount (hf : Frame F h Q s t) (c : Nat) : Frame F h Q s (t.setCount F c) :=
  hf.forward (by simp) (by simp) (by simp)

theorem Frame.acceptResponse (hf : Frame F h Q s t) : Frame F h Q s t.acceptResponse := by
  rcases t.acceptResponse_cases with ⟨b, r, -, -, he⟩ | ⟨-, he⟩ <;> rw [he]
  · exact hf.forward (by simp) (List.prefix_append _ _) List.suffix_rfl
  · exact hf

theorem Frame.beginInit {finish : State → State} {w : Beat} {len : Nat} (hf : Frame F h Q s (s.beginCommand w len))
    (hfin : Frame F h Q s (finish (s.beginCommand w len))) : Frame F h Q s (s.beginInit w len finish) := by
  unfold State.beginInit
  split
  · exact hfin
  · exact hf

theorem Frame.payloadFirst {accepted : Bool} {finish : State → State} (hf : Frame F h Q s t) (hb : t.blocked = false)
    (hfin : ∀ b, t.phase = .payload → Frame F h Q s (finish (t.takeBeat accepted b))) :
    Frame F h Q s (t.payloadFirst accepted finish) := by
  rcases State.payloadFirst_cases hb accepted finish with ⟨hp, b, -, he⟩ | ⟨-, b, -, he⟩ | ⟨-, he⟩ <;> rw [he]
  · exact hfin b hp
  · exact hf.takeBeat accepted b
  · exact hf.acceptResponse

theorem Frame.statusFirst {consume : Beat → State → State} (hf : Frame F h Q s t) (hb : t.blocked = false)
    (hcons : ∀ b, Frame F h Q s (consume b t.dropBeat)) : Frame F h Q s (t.statusFirst consume) := by
  rcases State.statusFirst_cases hb consume with ⟨-, b, he⟩ | ⟨-, he⟩ <;> rw [he]
  · exact hcons b
  · exact hf.acceptResponse

/-! ### INIT -/

/-- The COEF entries from `n` on are the same. -/
def SameCoefFrom (n : Nat) (v w : Slot F) : Prop := ∀ j, n ≤ j → w.coefAt j = v.coefAt j

theorem SameCoefFrom.loadSlot {rows : Nat} {v w : Slot F} (hv : SameCoefFrom (5 * rows) v w) (m : List Beat) :
    SameCoefFrom (5 * rows) v (loadSlot F rows m w) :=
  fun j hj => (loadSlot_coefAt_of_le rows m w hj).trans (hv j hj)

theorem Frame.initFreshFinish {rows : Nat} (hf : Frame F h (SameCoefFrom (5 * rows)) s t) (cols : Nat)
    (hh : (t.bank F).count = h) : Frame F h (SameCoefFrom (5 * rows)) s (initFreshFinish F rows cols t) := by
  unfold Machine.initFreshFinish
  split
  · subst hh
    exact (((hf.setSlot (hf.own.loadSlot _)).setCount _).clearGot).offerBeat _
  · exact hf.offerBeat _

theorem Frame.initReuseFinish {rows : Nat} (hf : Frame F h (SameCoefFrom (5 * rows)) s t) (cols : Nat) :
    Frame F h (SameCoefFrom (5 * rows)) s (initReuseFinish F h rows cols t) := by
  unfold Machine.initReuseFinish
  split
  · exact ((hf.setSlot (hf.own.loadSlot _)).clearGot).offerBeat _
  · exact hf.offerBeat _

/-- A fresh INIT finishes while COUNT has not been advanced, so the slot it writes is the one of the COUNT it began with. -/
theorem exec_freshInit_frame {rows cols : Nat} (hwf : slotsWf (s.bank F).slots = true)
    (hex : exec (freshInit F rows cols) s = .next t) : Frame F (s.bank F).count (SameCoefFrom (5 * rows)) s t := by
  have hbegin (w : Beat) (len : Nat) : Frame F (s.bank F).count (SameCoefFrom (5 * rows)) s (s.beginCommand w len) :=
    (Frame.refl hwf fun _ _ _ => rfl).beginCommand w len
  refine (exec_induct (P := fun u => u.Counted F s.maxFilters (s.bank F).count ∧
    Frame F (s.bank F).count (SameCoefFrom (5 * rows)) s u) ⟨startCommand_counted _ s, ?_⟩ ?_ hex).2
  · rw [startCommand_freshInit]
    exact .beginInit (hbegin _ _) ((hbegin _ _).initFreshFinish cols (by simp))
  · rintro u ⟨hcounted, hf⟩ hb
    refine ⟨hcounted.moveCommand _ hb, ?_⟩
    rw [moveCommand_freshInit]
    exact hf.payloadFirst hb fun b hp => (hf.takeBeat _ b).initFreshFinish cols (by simpa using hcounted.of_payload hp)

theorem exec_reuseInit_frame {rows cols : Nat} (hwf : slotsWf (s.bank F).slots = true)
    (hex : exec (reuseInit F h rows cols) s = .next t) : Frame F h (SameCoefFrom (5 * rows)) s t := by
  refine exec_induct ?_ (fun u hf hb => ?_) hex
  · have hbegin (w : Beat) (len : Nat) : Frame F h (SameCoefFrom (5 * rows)) s (s.beginCommand w len) :=
      (Frame.refl hwf fun _ _ _ => rfl).beginCommand w len
    rw [startCommand_reuseInit]
    exact .beginInit (hbegin _ _) ((hbegin _ _).initReuseFinish cols)
  · rw [moveCommand_reuseInit]
    exact hf.payloadFirst hb fun b _ => (hf.takeBeat _ b).initReuseFinish cols

/-! ### APPLY -/

/-- What filtering keeps of a slot: the stage count, the coefficients, and the delay entries past the live ones. -/
structure SameFilter (v w : Slot F) : Prop where
  numStages : w.numStages = v.numStages
  coef : w.coef = v.coef
  delay : ∀ j, 2 * v.numStages ≤ j → w.delayAt j = v.delayAt j

theorem SameFilter.refl (v : Slot F) : SameFilter v v := ⟨rfl, rfl, fun _ _ => rfl⟩

theorem SameFilter.cascade {v w : Slot F} (hv : SameFilter v w) (d : Nat) (x : Value F) :
    SameFilter v (cascade F d w x).1 where
  numStages := by rw [cascade_numStages, hv.numStages]
  coef := by rw [cascade_coef, hv.coef]
  delay j hj := by
    rw [Machine.cascade, stagesFrom_delayAt_of_le _ _ _ _ _ (by rw [hv.numStages]; omega), hv.delay j hj]

theorem Frame.applyConsume (hf : Frame F h SameFilter s t) (b : Beat) :
    Frame F h SameFilter s (applyConsume F h b t) := by
  unfold Machine.applyConsume
  split
  · exact ((hf.setSlot (hf.own.cascade _ _)).sampleDone _).offerBeat _
  · exact hf.discardBeat

theorem exec_applyCmd_frame {nsamp : Nat} (hwf : slotsWf (s.bank F).slots = true)
    (hex : exec (applyCmd F h nsamp) s = .next t) : Frame F h SameFilter s t := by
  refine exec_induct ?_ (fun u hf hb => ?_) hex
  · rw [startCommand_applyCmd]
    exact ((Frame.refl hwf .refl).beginCommand _ _).offerBeat _
  · rw [moveCommand_applyCmd]
    exact hf.statusFirst hb fun b => hf.dropBeat.applyConsume b

/-! ### What a command leaves, as a function of the state that the sequencer's own operations leave -/

section
variable {α : Type} {f : State → α} {finish : State → State}

/-- The sequencer's operations leave what `f` reads. -/
structure Steady (f : State → α) : Prop where
  begin : ∀ s w len, f (s.beginCommand w len) = f s
  offer : ∀ s b, f (s.offerBeat b) = f s
  drop : ∀ s, f s.dropBeat = f s
  take : ∀ s accepted b, f (s.takeBeat accepted b) = f s
  accept : ∀ s b r, f (s.responseTaken b r) = f s

theorem steady_draws : Steady State.draws := by constructor <;> simp

theorem steady_count (F : Fmt) : Steady fun s => (s.bank F).count := by constructor <;> simp

theorem Steady.acceptResponse (hf : Steady f) (s : State) : f s.acceptResponse = f s := by
  rcases s.acceptResponse_cases with ⟨b, r, -, -, he⟩ | ⟨-, he⟩ <;> rw [he]
  exact hf.accept s b r

theorem Steady.beginInit (hf : Steady f) (hfin : ∀ s, f (finish s) = f s) (s : State) (w : Beat) (len : Nat) :
    f (s.beginInit w len finish) = f s := by
  unfold State.beginInit
  split
  · rw [hfin, hf.begin]
  · exact hf.begin s w len

theorem Steady.payloadFirst (hf : Steady f) (hfin : ∀ s, f (finish s) = f s) (hb : s.blocked = false) (accepted : Bool) :
    f (s.payloadFirst accepted finish) = f s := by
  rcases State.payloadFirst_cases hb accepted finish with ⟨-, b, -, he⟩ | ⟨-, b, -, he⟩ | ⟨-, he⟩ <;> rw [he]
  · rw [hfin, hf.take]
  · exact hf.take s accepted b
  · exact hf.acceptResponse s

theorem exec_freshInit_keeps {rows cols : Nat} (hf : Steady f) (hfin : ∀ s, f (initFreshFinish F rows cols s) = f s)
    (hex : exec (freshInit F rows cols) s = .next t) : f t = f s := by
  refine exec_induct (P := fun u => f u = f s) ?_ (fun u hu hb => ?_) hex
  · rw [startCommand_freshInit, hf.beginInit hfin]
  · rw [moveCommand_freshInit, hf.payloadFirst hfin hb, hu]

theorem exec_reuseInit_keeps {rows cols : Nat} (hf : Steady f) (hfin : ∀ s, f (initReuseFinish F h rows cols s) = f s)
    (hex : exec (reuseInit F h rows cols) s = .next t) : f t = f s := by
  refine exec_induct (P := fun u => f u = f s) ?_ (fun u hu hb => ?_) hex
  · rw [startCommand_reuseInit, hf.beginInit hfin]
  · rw [moveCommand_reuseInit, hf.payloadFirst hfin hb, hu]

theorem exec_applyCmd_keeps {nsamp : Nat} (hf : Steady f) (hcons : ∀ b s, f (applyConsume F h b s) = f s)
    (hex : exec (applyCmd F h nsamp) s = .next t) : f t = f s := by
  refine exec_induct (P := fun u => f u = f s) ?_ (fun u hu hb => ?_) hex
  · rw [startCommand_applyCmd, State.beginApply, hf.offer, hf.begin]
  · rw [moveCommand_applyCmd, ← hu]
    rcases State.statusFirst_cases hb (applyConsume F h) with ⟨-, b, he⟩ | ⟨-, he⟩ <;> rw [he]
    · rw [hcons, hf.drop]
    · exact hf.acceptResponse u

end

@[simp] theorem initFreshFinish_draws (rows cols : Nat) (s : State) : (initFreshFinish F rows cols s).draws = s.draws := by
  unfold initFreshFinish
  split <;> simp

@[simp] theorem initReuseFinish_draws (rows cols : Nat) (s : State) : (initReuseFinish F h rows cols s).draws = s.draws := by
  unfold initReuseFinish
  split <;> simp

@[simp] theorem initReuseFinish_count (G : Fmt) (rows cols : Nat) (s : State) :
    ((initReuseFinish F h rows cols s).bank G).count = (s.bank G).count := by
  unfold initReuseFinish
  split <;> simp

theorem exec_reuseInit_count {rows cols : Nat} (hex : exec (reuseInit F h rows cols) s = .next t) (G : Fmt) :
    (t.bank G).count = (s.bank G).count :=
  exec_reuseInit_keeps (steady_count G) (initReuseFinish_count G rows cols) hex

/-! ### O21, O22 and O25 -/

theorem State.Inv.wf (hs : s.Inv) (F : Fmt) : slotsWf (s.bank F).slots = true :=
  ((s.inv_iff.1 hs).1.bank F).wf

/-- Settles O21: the frame of the slot of handle COUNT. -/
theorem freshInitFrame : Obligations.FreshInitFrame := by
  intro F rows cols s t hs hex
  have hf := exec_freshInit_frame (hs.wf F) hex
  have hcounted := exec_counted hex F
  exact ⟨fun _ hG => exec_bank_other (by simpa using hG) hex, hf.others, hf.own, hcounted.count.imp_right And.left,
    hcounted.maxFilters, exec_freshInit_keeps steady_draws (initFreshFinish_draws rows cols) hex, (exec_header hex).2, hf.rsp,
    hf.cmd⟩

/-- Settles O22: the frame of the named slot, and INIT.R's finish leaves COUNT. -/
theorem reuseInitFrame : Obligations.ReuseInitFrame := by
  intro F h rows cols s t hs hex
  have hf := exec_reuseInit_frame (hs.wf F) hex
  exact ⟨fun _ hG => exec_bank_other (by simpa using hG) hex, hf.others, hf.own, exec_reuseInit_count hex F,
    (exec_counted hex F).maxFilters, exec_reuseInit_keeps steady_draws (initReuseFinish_draws rows cols) hex,
    (exec_header hex).2, hf.rsp, hf.cmd⟩

/-- Settles O25: the frame of the named slot, in which filtering writes live delay entries only. -/
theorem applyFrame : Obligations.ApplyFrame := by
  intro F h nsamp s t hs hex
  have hf := exec_applyCmd_frame (hs.wf F) hex
  exact ⟨fun _ hG => exec_bank_other (by simpa using hG) hex, hf.others,
    exec_applyCmd_keeps (steady_count F) (applyConsume_count F h) hex, hf.own.numStages, hf.own.coef, hf.own.delay,
    (exec_counted hex F).maxFilters, (exec_header hex).2, hf.rsp, hf.cmd⟩

end Sys2Proof.Machine

/-! PROOFS. O20: an INIT.R whose payload is offered whole, to a host that accepts, ends in its finish; and the loader, run again on
the slot it has left, leaves that slot. -/

namespace Sys2Proof.Machine

variable {F : Fmt} {s t u : State} {pay rest : List Beat}

/-! ### An INIT whose payload is offered whole -/

/-- A finished INIT's response is taken, and its packet is over. -/
theorem settleFor_finish {move finish : State → State} (hoff : Offers finish)
    (hresp : ∀ u : State, u.phase = .respond → move u = u.acceptResponse) (hready : (finish u).ready = .always)
    (hl : u.left = 0) (k : Nat) : ∃ b, settleFor move (k + 1) (finish u) = (finish u).responseTaken b .always := by
  obtain ⟨b, hb⟩ := Option.isSome_iff_exists.1 (hoff.offer u)
  have hover : ((finish u).responseTaken b .always).phase = .header := by
    rw [State.responseTaken_phase, hoff.left, hl, phaseAfter, if_pos rfl]
  refine ⟨b, ?_⟩
  rw [settleFor_response k (hresp _ (hoff.phase u)) (hoff.phase u) hb (by rw [hready]; rfl),
    settleFor_of_blocked (State.blocked_of_header hover)]

/-- The payload is consumed, the command finished and its response taken. `P` holds while payload is awaited and says that `move`
is the INIT's. -/
theorem settle_beginInit {move finish : State → State} {acc : Bool} {P : State → Prop} {w : Beat} {len : Nat}
    (hoff : Offers finish) (hready : ∀ u, (finish u).ready = u.ready)
    (hresp : ∀ u : State, u.phase = .respond → move u = u.acceptResponse) (hP : ∀ u b, P u → P (u.takeBeat acc b))
    (hmove : ∀ u, P u → move u = u.payloadFirst acc finish) (hs : P (s.beginCommand w len)) (hr : s.ready = .always)
    (hc : s.cmd = pay ++ rest) (hl : pay.length = len) :
    ∃ b, settle move (s.beginInit w len finish) =
      (finish ((s.beginCommand w len).drained acc pay rest)).responseTaken b .always := by
  have hfinish := settleFor_finish hoff hresp (u := (s.beginCommand w len).drained acc pay rest)
    (by rw [hready]; exact hr) (by simp [State.drained, hl])
  unfold State.beginInit
  split
  · next h0 =>
    subst h0
    have hnil : pay = [] := List.eq_nil_of_length_eq_zero hl
    have hdrained : (s.beginCommand w 0).drained acc pay rest = s.beginCommand w 0 := by
      simp [State.drained, State.beginCommand, hnil, hc]
    rw [hdrained] at hfinish ⊢
    rw [settle, hoff.left, State.beginCommand_left]
    exact hfinish 0
  · next h0 =>
    have hne : pay ≠ [] := fun hnil => h0 (by rw [← hl, hnil, List.length_nil])
    rw [settle, State.beginCommand_left, show 2 * len + 1 = pay.length + (len + 1) by omega,
      settleFor_drain hP hmove pay rest _ _ hs rfl hc hne hl.symm]
    exact hfinish len

/-! ### INIT.R -/

/-- INIT.R's verdict reads COUNT. -/
theorem initReuseVerdict_congr (hcount : (t.bank F).count = (s.bank F).count) (handle rows cols : Nat) :
    initReuseVerdict F handle rows cols t = initReuseVerdict F handle rows cols s := by
  have hvalid : t.validHandle F handle = s.validHandle F handle := by rw [State.validHandle, State.validHandle, hcount]
  simp only [initReuseVerdict, hvalid]

@[simp] theorem State.drained_bank (acc : Bool) (pay rest : List Beat) (F : Fmt) :
    (s.drained acc pay rest).bank F = s.bank F := by cases F <;> rfl

@[simp] theorem State.drained_slot (acc : Bool) (pay rest : List Beat) (F : Fmt) (h : Nat) :
    (s.drained acc pay rest).slot F h = s.slot F h := by simp [State.slot]

@[simp] theorem State.drained_got (acc : Bool) (pay rest : List Beat) :
    (s.drained acc pay rest).got = if acc then s.got ++ pay else s.got := rfl

@[simp] theorem initReuseFinish_ready (handle rows cols : Nat) (s : State) :
    (initReuseFinish F handle rows cols s).ready = s.ready := by
  unfold initReuseFinish
  split <;> simp

theorem initReuseFinish_bank (handle rows cols : Nat) (s : State) :
    (initReuseFinish F handle rows cols s).bank F = if initReuseVerdict F handle rows cols s = .ok then
      { s.bank F with slots := slotWrite (s.bank F).slots handle (loadSlot F rows s.got (s.slot F handle)) } else s.bank F := by
  unfold initReuseFinish
  split
  · next hok => simp [hok]
  · next hne => rw [if_neg hne, State.offerBeat_bank]

/-- What a whole INIT.R packet leaves of its bank (spec/40_init.md R105): the named slot loaded, or nothing written. -/
theorem exec_reuseInit_bank {h rows cols : Nat} (hr : s.ready = .always) (hc : s.cmd = pay ++ rest)
    (hl : pay.length = rows * cols) (hex : exec (reuseInit F h rows cols) s = .next t) :
    t.ready = .always ∧ t.bank F = if initReuseVerdict F h rows cols s = .ok then
      { s.bank F with slots := slotWrite (s.bank F).slots h (loadSlot F rows pay (s.slot F h)) } else s.bank F := by
  obtain ⟨b, hb⟩ := settle_beginInit (w := encode (reuseInit F h rows cols))
    (P := fun u => initReuseVerdict F h rows cols u = initReuseVerdict F h rows cols s)
    (move := moveCommand (reuseInit F h rows cols)) (acc := initReuseVerdict F h rows cols s == .ok)
    (initReuseFinish_offers F h rows cols) (initReuseFinish_ready h rows cols)
    (fun u hu => by rw [moveCommand_reuseInit, State.payloadFirst, hu]) (fun u b hu => hu)
    (fun u hu => by rw [moveCommand_reuseInit, hu]) (initReuseVerdict_congr (by simp) h rows cols) hr hc hl
  rw [exec_eq, startCommand_reuseInit, hb] at hex
  cases hex
  refine ⟨rfl, ?_⟩
  rw [State.responseTaken_bank, initReuseFinish_bank, initReuseVerdict_congr (s := s) (by simp)]
  split
  · next hok => simp [hok]
  · simp

/-- Settles O20: the second packet is answered as the first, and loads the slot that is there. -/
theorem reuseInitIdempotent : Obligations.ReuseInitIdempotent := by
  intro F h rows cols s t u pay rest hs hr hc hl hex hex'
  obtain ⟨hready, ht⟩ := exec_reuseInit_bank hr hc hl hex
  obtain ⟨-, hu⟩ := exec_reuseInit_bank (s := { t with cmd := pay ++ rest }) hready rfl hl hex'
  have hbank (G : Fmt) : ({ t with cmd := pay ++ rest } : State).bank G = t.bank G := by cases G <;> rfl
  have hown : u.bank F = t.bank F := by
    rw [State.slot, hbank, initReuseVerdict_congr (s := s) (by rw [hbank, exec_reuseInit_count hex])] at hu
    rw [hu]
    split
    · next hok =>
      rw [if_pos hok] at ht
      have hloaded : slotRead (t.bank F).slots h = loadSlot F rows pay (s.slot F h) := by
        rw [ht, slotRead_slotWrite_same (hs.wf F)]
      have hreload : loadSlot F rows pay (slotRead (t.bank F).slots h) = slotRead (t.bank F).slots h := by
        rw [hloaded, loadSlot_loadSlot]
      rw [hreload, slotWrite_slotRead (exec_reuseInit_frame (hs.wf F) hex).wf]
    · rfl
  have hall (G : Fmt) : u.bank G = t.bank G := by
    by_cases hG : G = F
    · rw [hG, hown]
    · rw [exec_bank_other (by simpa using hG) hex', hbank]
  exact ⟨hall .f32, hall .f64⟩

end Sys2Proof.Machine

/-! PROOFS. O1, O2, O3 and O6: a beat is its fields appended, so a legal header is the encoding of the command it decodes to, and
a status beat's fields are what was put there. -/

namespace Sys2Proof

/-! ### The header that decodes is the header of its command (spec/30_encoding.md R72, R77, R78) -/

section
variable {w : Beat} {i : Instr}

/-- A beat with the fixed fields of format I is the header of its other fields. -/
theorem initHeader_of_fields {p ru : BitVec 1} {handle : Nat} (hop : opField w = 0x1#4) (hp : pField w = p)
    (hru : ruField w = ru) (hz0 : z0Field w = 0#2) (hz1 : z1Field w = 0#8) (hz2 : z2Field w = 0#16)
    (hh : w.extractLsb' 32 16 = BitVec.ofNat 16 handle) : initHeader p ru handle (rowsField w) (colsField w) = w := by
  conv => rhs; rw [beat_fields w, hop, hp, hru, hz0, hz1, hz2, hh]
  simp only [initHeader, rowsField, colsField, BitVec.ofNat_toNat, BitVec.setWidth_eq]

/-- A beat is its fields in format A too. -/
theorem beat_apply_fields (w : Beat) :
    w = z2Field w ++ w.extractLsb' 32 16 ++ w.extractLsb' 8 24 ++ z0Field w ++ ruField w ++ pField w ++ opField w := by
  apply BitVec.eq_of_getLsbD_eq
  intro i hi
  simp only [z2Field, z0Field, ruField, pField, opField, BitVec.getLsbD_append, BitVec.getLsbD_extractLsb']
  interval_cases i <;> simp

/-- A beat with the fixed fields of format A is the header of its other fields. -/
theorem applyHeader_of_fields {p : BitVec 1} (hop : opField w = 0x2#4) (hp : pField w = p) (hru : ruField w = 0#1)
    (hz0 : z0Field w = 0#2) (hz2 : z2Field w = 0#16) : applyHeader p (handleField w) (nsampField w) = w := by
  conv => rhs; rw [beat_apply_fields w, hop, hp, hru, hz0, hz2]
  simp only [applyHeader, handleField, nsampField, BitVec.ofNat_toNat, BitVec.setWidth_eq]

/-- A beat that decodes is the encoding of what it decodes to. -/
theorem encode_of_decode (hd : decode w = .ok i) : encode i = w := by
  have fresh {p : BitVec 1} (h : opField w = 0x1#4 ∧ pField w = p ∧ ruField w = 0#1 ∧ z0Field w = 0#2 ∧ z1Field w = 0#8 ∧
      w.extractLsb' 32 16 = 0#16 ∧ z2Field w = 0#16) : initHeader p 0#1 0 (rowsField w) (colsField w) = w := by
    obtain ⟨hop, hp, hru, hz0, hz1, hh, hz2⟩ := h
    exact initHeader_of_fields hop hp hru hz0 hz1 hz2 hh
  have reuse {p : BitVec 1} (h : opField w = 0x1#4 ∧ pField w = p ∧ ruField w = 1#1 ∧ z0Field w = 0#2 ∧ z1Field w = 0#8 ∧
      z2Field w = 0#16) : initHeader p 1#1 (handleField w) (rowsField w) (colsField w) = w := by
    obtain ⟨hop, hp, hru, hz0, hz1, hz2⟩ := h
    exact initHeader_of_fields hop hp hru hz0 hz1 hz2 (by rw [handleField, BitVec.ofNat_toNat, BitVec.setWidth_eq])
  have apply {p : BitVec 1} (h : opField w = 0x2#4 ∧ pField w = p ∧ ruField w = 0#1 ∧ z0Field w = 0#2 ∧ z2Field w = 0#16) :
      applyHeader p (handleField w) (nsampField w) = w := by
    obtain ⟨hop, hp, hru, hz0, hz2⟩ := h
    exact applyHeader_of_fields hop hp hru hz0 hz2
  rw [decode_eq] at hd
  split_ifs at hd with h h h h h h <;> cases hd
  · exact fresh h
  · exact fresh h
  · exact reuse h
  · exact reuse h
  · exact apply h
  · exact apply h

/-- R71 reads the payload length from the fields that the decoder reads it from. -/
theorem payloadLen_of_decode (hd : decode w = .ok i) : payloadLen w = i.payloadBeats := by
  rw [decode_eq] at hd
  split_ifs at hd with h h h h h h <;> cases hd <;> simp [payloadLen, h.1, Instr.payloadBeats]

end

/-- Settles O1: a well-formed operand loses nothing in its field, so the fields lead to the command's own row. -/
theorem decodeOfEncode : Obligations.DecodeOfEncode := fun _ => decode_encode

/-- Settles O2: the fields that the matched row fixes and those it leaves open make up the beat. -/
theorem encodeOfDecode : Obligations.EncodeOfDecode := fun _ _ hd =>
  ⟨(decode_ok hd).1, encode_of_decode hd, payloadLen_of_decode hd⟩

/-! ### The rows of the decode table -/

/-- Two rows that match one beat ask the same of the bits that both look at. -/
theorem OpRow.patterns_agree {a b : OpRow} {w : Beat} (ha : a.hits w = true) (hb : b.hits w = true) :
    a.pattern &&& b.mask = b.pattern &&& a.mask := by
  rw [OpRow.hits, beq_iff_eq] at ha hb
  rw [← ha, ← hb, BitVec.and_assoc, BitVec.and_assoc, BitVec.and_comm a.mask]

/-- Settles O3: any two rows ask different things of some bit that both look at. -/
theorem decodeRowsDisjoint : Obligations.DecodeRowsDisjoint := by
  have hdiffer : opTable.Pairwise fun a b => a.pattern &&& b.mask ≠ b.pattern &&& a.mask := by decide
  exact hdiffer.imp fun hne w ⟨ha, hb⟩ => hne (OpRow.patterns_agree ha hb)

end Sys2Proof

namespace Sys2Proof.Machine

/-! ### Status beats (spec/30_encoding.md R82) -/

/-- A beat is the fields of a status beat. -/
theorem beat_status_fields (w : Beat) :
    w = w.extractLsb' 52 12 ++ w.extractLsb' 48 4 ++ w.extractLsb' 32 16 ++ w.extractLsb' 8 24 ++ w.extractLsb' 5 3 ++
      w.extractLsb' 4 1 ++ w.extractLsb' 0 4 := by
  apply BitVec.eq_of_getLsbD_eq
  intro i hi
  simp only [BitVec.getLsbD_append, BitVec.getLsbD_extractLsb']
  interval_cases i <;> simp

/-- The parts of a status beat, pairwise. -/
theorem status_append_iff (a a' : BitVec 12) (b b' : BitVec 4) (c c' : BitVec 16) (d d' : BitVec 24) (e e' : BitVec 3)
    (f f' : BitVec 1) (g g' : BitVec 4) : a ++ b ++ c ++ d ++ e ++ f ++ g = a' ++ b' ++ c' ++ d' ++ e' ++ f' ++ g' ↔
      a = a' ∧ b = b' ∧ c = c' ∧ d = d' ∧ e = e' ∧ f = f' ∧ g = g' := by
  simp only [append_eq_append_iff, and_assoc]

/-- Settles O6: a status beat's fields are pairwise those that `statusBeat` appends, and NOUT and HANDLE fit theirs. -/
theorem statusBeatFields : Obligations.StatusBeatFields := by
  intro e pe nout handle ope hnout hhandle b
  obtain ⟨hz, hope, hh, hn, hz', hpe, he⟩ := (status_append_iff _ _ _ _ _ _ _ _ _ _ _ _ _ _).1 (beat_status_fields b)
  refine ⟨he.symm, hpe.symm, hz'.symm, ?_, ?_, hope.symm, hz.symm⟩
  · rw [← hn, BitVec.toNat_ofNat, Nat.mod_eq_of_lt hnout]
  · rw [← hh, BitVec.toNat_ofNat, Nat.mod_eq_of_lt hhandle]

end Sys2Proof.Machine

/-! PROOFS. O53: the moves of an illegal packet, like a command's, could as well be made with more beats already offered. -/

namespace Sys2Proof.Machine

section
variable {s : State} {more : List Beat}

theorem startIllegal_feed (w : Beat) : startIllegal w (s.feed more) = (startIllegal w s).feed more := by
  by_cases hfirst : opField w = 0x2#4 ∨ payloadLen w = 0 <;> simp [startIllegal, hfirst]

theorem moveIllegal_feed (w : Beat) (hb : s.blocked = false) : moveIllegal w (s.feed more) = (moveIllegal w s).feed more := by
  unfold moveIllegal
  split
  · exact State.statusFirst_feed (fun _ _ => State.discardBeat_feed) hb
  · exact State.payloadFirst_feed (fun _ => State.offerBeat_feed _) hb

/-- An illegal packet settled leaves its header in HDR, and `rst` as it was. -/
theorem settle_illegal_header (w : Beat) (s : State) :
    (settle (moveIllegal w) (startIllegal w s)).hdr = w ∧ (settle (moveIllegal w) (startIllegal w s)).rst = s.rst :=
  settle_induct (P := fun u => u.hdr = w ∧ u.rst = s.rst)
    (fun u ⟨hh, hr⟩ _ => ⟨(moveIllegal_unwritten w u).hdr.trans hh, (moveIllegal_unwritten w u).rst.trans hr⟩) _
    (startIllegal_header w s)

end

/-- Settles O53: as O29 does for a command. -/
theorem illegalPayloadInPieces : Obligations.IllegalPayloadInPieces := by
  intro s t w pay more e hr hp hc hd hstep hpt
  let u : State := { s with cmd := pay }
  have hsettled : settle (moveIllegal w) (startIllegal w u) = t := by simpa [step_illegal hr hp hc hd] using hstep
  obtain ⟨hhdr, hrst⟩ := settle_illegal_header w u
  have hblocked := (settle_illegal_blocked w u).2
  rw [hsettled] at hhdr hrst hblocked
  have hcmd : t.cmd = [] := by simpa [State.blocked, hpt] using hblocked
  have hresume : settle (moveIllegal w) (t.feed more) = settle (moveIllegal w) ((startIllegal w u).feed more) := by
    rw [← hsettled]
    exact settle_feed_settleFor (fun _ => moveIllegal_good w) (fun _ => moveIllegal_feed w) _ (startIllegal_tidy w u)
  calc step { t with cmd := more }
      = step (t.feed more) := by rw [State.feed_of_cmd_nil hcmd]
    _ = .next (resumeCurrent (t.feed more)) := step_of_payload (hrst.trans hr) hpt
    _ = .next (settle (moveIllegal w) (startIllegal w (u.feed more))) := by
      rw [resumeCurrent_illegal (s := t.feed more) hhdr hd, hresume, startIllegal_feed]
    _ = step { s with cmd := s.cmd ++ more } :=
      (step_illegal (s := { s with cmd := s.cmd ++ more }) hr hp (by rw [hc, List.cons_append]) hd).symm

end Sys2Proof.Machine

/-! PROOFS. O27 and O51: a packet whose status follows its payload (`StatusLast`: every INIT, and an illegal header whose OP is not
`0x2`) sends nothing before the whole payload is consumed; one whose status comes first waits with it offered. -/

namespace Sys2Proof.Machine

section
variable {s : State}

/-! ### A host that accepts no response -/

theorem State.blocked_of_unready (hp : s.phase = .respond) (hr : s.ready = .atMost 0) : s.blocked = true := by
  simp [State.blocked, hp, hr]

/-- A packet whose status comes first waits with it offered (spec/70_reset_and_hazards.md R206). -/
theorem settle_beginOffer_unready {move : State → State} (hr : s.ready = .atMost 0) (w : Beat) (len : Nat) (b : Beat) :
    settle move ((s.beginCommand w len).offerBeat b) = (s.beginCommand w len).offerBeat b :=
  settle_of_blocked (State.blocked_of_unready rfl hr)

/-! ### Packets whose status follows their payload (spec/30_encoding.md R81) -/

/-- A finish that offers a response and goes no further on the streams. -/
structure Answers (finish : State → State) : Prop extends Offers finish where
  cmd : ∀ t, (finish t).cmd = t.cmd
  ready : ∀ t, (finish t).ready = t.ready
  rsp : ∀ t, (finish t).rsp = t.rsp

theorem initFreshFinish_answers (F : Fmt) (rows cols : Nat) : Answers (initFreshFinish F rows cols) where
  toOffers := initFreshFinish_offers F rows cols
  cmd _ := by unfold initFreshFinish; split <;> simp
  ready _ := by unfold initFreshFinish; split <;> simp
  rsp _ := by unfold initFreshFinish; split <;> simp

theorem initReuseFinish_answers (F : Fmt) (handle rows cols : Nat) : Answers (initReuseFinish F handle rows cols) where
  toOffers := initReuseFinish_offers F handle rows cols
  cmd _ := by unfold initReuseFinish; split <;> simp
  ready := initReuseFinish_ready handle rows cols
  rsp _ := by unfold initReuseFinish; split <;> simp

theorem illegal_answers (w : Beat) : Answers (fun t => t.offerBeat (illegalStatus w)) where
  toOffers := illegal_offers w
  cmd _ := rfl
  ready _ := rfl
  rsp _ := rfl

/-- `start` and `move` run a packet of header `w` and `len` payload beats whose status follows its payload: `accepted` says whether
the payload is kept, which consuming it does not change, and `finish` answers. -/
structure StatusLast (w : Beat) (len : Nat) (accepted : State → Bool) (finish start move : State → State) : Prop where
  answers : Answers finish
  start_eq : ∀ s, start s = s.beginInit w len finish
  move_eq : ∀ s, move s = s.payloadFirst (accepted s) finish
  accepted_stays : ∀ s kept b, accepted (s.takeBeat kept b) = accepted s

theorem freshInit_statusLast (F : Fmt) (rows cols : Nat) :
    StatusLast (encode (freshInit F rows cols)) (freshInit F rows cols).payloadBeats
      (fun s => initFreshVerdict F rows cols s == .ok) (initFreshFinish F rows cols)
      (startCommand (freshInit F rows cols)) (moveCommand (freshInit F rows cols)) where
  answers := initFreshFinish_answers F rows cols
  start_eq s := by rw [startCommand_freshInit]; cases F <;> rfl
  move_eq := moveCommand_freshInit F rows cols
  accepted_stays _ _ _ := rfl

theorem reuseInit_statusLast (F : Fmt) (handle rows cols : Nat) :
    StatusLast (encode (reuseInit F handle rows cols)) (reuseInit F handle rows cols).payloadBeats
      (fun s => initReuseVerdict F handle rows cols s == .ok) (initReuseFinish F handle rows cols)
      (startCommand (reuseInit F handle rows cols)) (moveCommand (reuseInit F handle rows cols)) where
  answers := initReuseFinish_answers F handle rows cols
  start_eq s := by rw [startCommand_reuseInit]; cases F <;> rfl
  move_eq := moveCommand_reuseInit F handle rows cols
  accepted_stays _ _ _ := rfl

/-- Every INIT's status follows its payload. -/
theorem init_statusLast (i : Instr) (hi : isInit i = true) :
    ∃ accepted finish, StatusLast (encode i) i.payloadBeats accepted finish (startCommand i) (moveCommand i) := by
  induction i using command_cases with
  | fresh F rows cols => exact ⟨_, _, freshInit_statusLast F rows cols⟩
  | reuse F handle rows cols => exact ⟨_, _, reuseInit_statusLast F handle rows cols⟩
  | apply F handle nsamp => cases F <;> cases hi

/-- So does the status of an illegal header whose OP is not `0x2`. -/
theorem illegal_statusLast {w : Beat} (hop : opField w ≠ 0x2#4) :
    StatusLast w (payloadLen w) (fun _ => false) (fun t => t.offerBeat (illegalStatus w)) (startIllegal w) (moveIllegal w) where
  answers := illegal_answers w
  start_eq s := by simp [startIllegal, State.beginInit, hop]
  move_eq s := by simp [moveIllegal, hop]
  accepted_stays _ _ _ := rfl

end

section
variable {w : Beat} {len : Nat} {accepted : State → Bool} {finish start move : State → State} {s : State}

/-- Offered its whole payload, the packet consumes it and is finished before anything is sent. -/
theorem StatusLast.settle_whole (h : StatusLast w len accepted finish start move) {pay rest : List Beat}
    (hc : s.cmd = pay ++ rest) (hl : pay.length = len) :
    settle move (start s) = settleFor move (len + 1)
      (finish ((s.beginCommand w len).drained (accepted (s.beginCommand w len)) pay rest)) := by
  rw [h.start_eq]
  unfold State.beginInit
  split
  · next h0 =>
    subst h0
    have hnil : pay = [] := List.eq_nil_of_length_eq_zero hl
    have hdrained (acc : Bool) : (s.beginCommand w 0).drained acc pay rest = s.beginCommand w 0 := by
      simp [State.drained, State.beginCommand, hnil, hc]
    rw [hdrained, settle, h.answers.left, State.beginCommand_left]
  · next h0 =>
    have hne : pay ≠ [] := fun hnil => h0 (by rw [← hl, hnil, List.length_nil])
    rw [settle, State.beginCommand_left, show 2 * len + 1 = pay.length + (len + 1) by omega]
    exact settleFor_drain (P := fun u => accepted u = accepted (s.beginCommand w len))
      (fun u b hu => (h.accepted_stays u _ b).trans hu) (fun u hu => by rw [h.move_eq, hu]) pay rest _ _ rfl rfl hc hne hl.symm

/-- With a host that accepts no response it then waits with its status offered. -/
theorem StatusLast.offers_after_payload (h : StatusLast w len accepted finish start move) {pay rest : List Beat}
    (hr : s.ready = .atMost 0) (hc : s.cmd = pay ++ rest) (hl : pay.length = len) :
    ∃ u, settle move (start s) = finish u ∧ u.cmd = rest ∧ u.left = 0 ∧ u.rsp = s.rsp := by
  refine ⟨_, (h.settle_whole hc hl).trans (settleFor_of_blocked ?_ _), rfl, by simp [State.drained, hl], rfl⟩
  exact State.blocked_of_unready (h.answers.phase _) (by rw [h.answers.ready]; exact hr)

/-- The packet awaits `missing` payload beats more than the host offers, and has sent nothing more than `out`. -/
structure State.Starved (s : State) (missing : Nat) (out : List Beat) : Prop where
  phase : s.phase = .payload
  offer : s.offer = none
  missing_pos : 0 < missing
  left : s.left = s.cmd.length + missing
  rsp : s.rsp = out

theorem State.Starved.tidy {missing : Nat} {out : List Beat} (h : s.Starved missing out) : s.Tidy where
  header hp := by rw [h.phase] at hp; cases hp
  payload _ := ⟨by have := h.left; have := h.missing_pos; omega, h.offer⟩
  respond hp := by rw [h.phase] at hp; cases hp

/-- Another payload beat is not the last one. -/
theorem State.Starved.payloadFirst {missing : Nat} {out : List Beat} (h : s.Starved missing out) (hb : s.blocked = false)
    (kept : Bool) : (s.payloadFirst kept finish).Starved missing out := by
  obtain ⟨hp, ho, hpos, hl, hrsp⟩ := h
  rcases s.not_blocked_iff.1 hb with ⟨-, b, rest, hc⟩ | ⟨hp', -⟩
  · rw [hc, List.length_cons] at hl
    have hmore : ¬(s.takeBeat kept b).left = 0 := by rw [State.takeBeat_left]; omega
    have he : s.payloadFirst kept finish = s.takeBeat kept b := by simp only [State.payloadFirst, hp, hc, if_neg hmore]
    rw [he]
    exact ⟨hp, ho, hpos, by rw [State.takeBeat_left, State.takeBeat_cmd, hc, List.tail_cons]; omega, hrsp⟩
  · rw [hp] at hp'; cases hp'

/-- Offered less than its payload, the packet consumes what there is and waits, and has sent nothing. -/
theorem StatusLast.settle_short (h : StatusLast w len accepted finish start move) (hshort : s.cmd.length < len) :
    (settle move (start s)).cmd = [] ∧ (settle move (start s)).Starved (len - s.cmd.length) s.rsp := by
  have hstart : start s = s.beginCommand w len := by rw [h.start_eq, State.beginInit, if_neg (by omega)]
  have hbegin : (start s).Starved (len - s.cmd.length) s.rsp := by
    rw [hstart]
    exact ⟨rfl, rfl, by omega, by rw [State.beginCommand_left, State.beginCommand_cmd]; omega, rfl⟩
  have hmove (u : State) (hu : u.Starved (len - s.cmd.length) s.rsp) (hb : u.blocked = false) :
      (move u).Starved (len - s.cmd.length) s.rsp ∧ (move u).transfers < u.transfers := by
    rw [h.move_eq]
    exact ⟨hu.payloadFirst hb _, (State.payloadFirst_good h.answers.toOffers hu.tidy hb).transfers_lt⟩
  have hstarved := settle_induct (fun u hu hb => (hmove u hu hb).1) _ hbegin
  have hblocked := settle_blocked (fun u hu => hu.tidy) hmove hbegin
  exact ⟨by simpa [State.blocked, hstarved.phase] using hblocked, hstarved⟩

end

/-! ### O27 and O51 -/

/-- The status of an APPLY, by its handle (spec/41_apply.md R143). -/
theorem applyStatus_eq (F : Fmt) (h nsamp : Nat) (s : State) : applyStatus F h nsamp s =
    if h < (s.bank F).count then statusBeat .ok (bankBit F) nsamp h 0x2#4 else statusBeat .invalidHandle (bankBit F) 0 0 0x2#4 := by
  by_cases hv : h < (s.bank F).count <;> simp [applyStatus, applyVerdict, State.validHandle, errorStatus, hv]

/-- With a host that accepts no response an APPLY waits as it began. -/
theorem exec_applyCmd_unready {s : State} (hr : s.ready = .atMost 0) (F : Fmt) (h nsamp : Nat) :
    exec (applyCmd F h nsamp) s = .next (s.beginApply F (encode (applyCmd F h nsamp)) h nsamp) := by
  rw [exec_eq, startCommand_applyCmd, State.beginApply, settle_beginOffer_unready hr]

/-- An illegal packet with OP `0x2` begins with its status offered. -/
theorem startIllegal_offer {w : Beat} (hop : opField w = 0x2#4) (s : State) :
    startIllegal w s = (s.beginCommand w (payloadLen w)).offerBeat (illegalStatus w) := by simp [startIllegal, hop]

/-- Settles O27: an APPLY begins with its status offered; an INIT's finish, which alone offers one, needs the last payload beat. -/
theorem statusOrder : Obligations.StatusOrder := by
  refine ⟨fun F h nsamp s hr => ?_, fun i s pay rest hi hr hc hl => ?_, fun i s hi hshort => ?_⟩
  · exact ⟨_, exec_applyCmd_unready hr F h nsamp, rfl, rfl, rfl, rfl, congrArg some (applyStatus_eq F h nsamp s)⟩
  · obtain ⟨accepted, finish, hlast⟩ := init_statusLast i hi
    obtain ⟨u, he, hcmd, hleft, hrsp⟩ := hlast.offers_after_payload hr hc hl
    obtain ⟨b, hb⟩ := Option.isSome_iff_exists.1 (hlast.answers.offer u)
    exact ⟨finish u, b, by rw [exec_eq, he], hlast.answers.phase u, (hlast.answers.cmd u).trans hcmd,
      (hlast.answers.left u).trans hleft, (hlast.answers.rsp u).trans hrsp, hb⟩
  · obtain ⟨accepted, finish, hlast⟩ := init_statusLast i hi
    obtain ⟨hcmd, hstarved⟩ := hlast.settle_short hshort
    exact ⟨_, exec_eq i s, hstarved.phase, hcmd, hstarved.rsp, hstarved.offer⟩

/-- Settles O51: OP `0x2` begins with the status offered; any other OP runs like an INIT. -/
theorem illegalStatusOrder : Obligations.IllegalStatusOrder := by
  intro s w pay rest e hrst hp hc hd
  refine ⟨_, step_illegal hrst hp hc hd, fun hr hop => ?_, fun hr hop hl => ?_, fun hop hrest hshort => ?_⟩
  · rw [startIllegal_offer hop, settle_beginOffer_unready (s := { s with cmd := pay ++ rest }) hr]
    exact ⟨rfl, rfl, rfl, rfl, by rw [State.offerBeat_offer, illegalStatus, hop, errorStatus]⟩
  · obtain ⟨u, he, hcmd, hleft, hrsp⟩ :=
      (illegal_statusLast hop).offers_after_payload (s := { s with cmd := pay ++ rest }) hr rfl hl
    rw [he]
    exact ⟨rfl, hcmd, hleft, hrsp, rfl⟩
  · subst hrest
    obtain ⟨hcmd, hstarved⟩ :=
      (illegal_statusLast hop).settle_short (s := { s with cmd := pay ++ [] }) (by simpa using hshort)
    exact ⟨hstarved.phase, hcmd, hstarved.rsp, hstarved.offer⟩

end Sys2Proof.Machine

/-! PROOFS. O17 and O18: every COEF entry of a row is `loadedCoef`, which reads no element of column 3. -/

namespace Sys2Proof.Machine

variable {F : Fmt}

theorem loadSlot_coefAt_of_lt {rows : Nat} (hrows : rows ≤ 16) (m : List Beat) (old : Slot F) {j : Nat} (hj : j < 5 * rows) :
    (loadSlot F rows m old).coefAt j = loadedCoef F m j := by
  have h80 : j < 80 := by omega
  have hdiv : j / 5 < rows := by omega
  simp [Slot.coefAt, Vector.getD, h80, loadSlot, getElem_loadRows, hdiv]

/-- Coefficient `r` of stage `i` (spec/10_state.md R24, spec/40_init.md R101). -/
theorem loadedCoef_row (m : List Beat) (i : Nat) {r : Nat} (hr : r < 5) :
    loadedCoef F m (5 * i + r) = if r < 3 then elem F m (6 * i + r) else fneg F (elem F m (6 * i + r + 1)) := by
  have hdiv : (5 * i + r) / 5 = i := by omega
  have hmod : (5 * i + r) % 5 = r := by omega
  rw [loadedCoef, hdiv, hmod]

/-- No entry of COEF is loaded from column 3. -/
theorem loadedCoef_congr {m m' : List Beat} (h : ∀ k, k % 6 ≠ 3 → elem F m k = elem F m' k) (j : Nat) :
    loadedCoef F m j = loadedCoef F m' j := by
  unfold loadedCoef
  split
  · rw [h _ (by omega)]
  · rw [h _ (by omega)]

/-- Settles O17: a row's five entries, one value of `r` each. -/
theorem loadSlotContents : Obligations.LoadSlotContents := by
  intro F rows m old hrows v
  have hrow (i r : Nat) (hi : i < rows) (hr : r < 5) : v.coefAt (5 * i + r) =
      if r < 3 then elem F m (6 * i + r) else fneg F (elem F m (6 * i + r + 1)) := by
    rw [loadSlot_coefAt_of_lt hrows m old (by omega), loadedCoef_row m i hr]
  refine ⟨fun i hi => ⟨?_, ?_, ?_, ?_, ?_⟩, fun _ hj => loadSlot_coefAt_of_le rows m old hj, delayAt_of_cleared rfl, rfl⟩
  · exact hrow i 0 hi (by decide)
  · exact hrow i 1 hi (by decide)
  · exact hrow i 2 hi (by decide)
  · exact hrow i 3 hi (by decide)
  · exact hrow i 4 hi (by decide)

/-- Settles O18: COEF is the same entry by entry, and the rest of the slot does not read the matrix. -/
theorem leadingCoefficientIgnored : Obligations.LeadingCoefficientIgnored := by
  intro F rows m m' old h
  have hcoef : loadRows F m rows old.coef = loadRows F m' rows old.coef := by
    ext1 j hj
    rw [getElem_loadRows, getElem_loadRows, loadedCoef_congr h]
  rw [loadSlot, loadSlot, hcoef]

end Sys2Proof.Machine

/-! PROOFS. O15 and O16: an INIT whose payload is offered whole, to a host that accepts, ends as its finish says (`StatusLast`),
and the finish goes by the verdict. -/

namespace Sys2Proof.Machine

variable {F : Fmt} {s t : State} {w b : Beat} {len : Nat} {pay rest : List Beat}

/-! ### A packet whose status follows its payload, offered whole -/

/-- The payload discarded and the error sent, the packet is over and has written nothing. -/
theorem State.completed_of_rejected (hr : s.ready = .always) (hl : pay.length = len) :
    (((s.beginCommand w len).drained false pay rest).offerBeat b).responseTaken b .always = s.completed w 0 rest [b] := by
  simp [State.completed, State.responseTaken, State.offerBeat, State.drained, State.beginCommand, phaseAfter, hl, hr]

/-- The payload kept and used and the status sent, the packet is over and has written its bank. -/
theorem State.completed_of_loaded (hr : s.ready = .always) (hl : pay.length = len) (c : Bank F) :
    ((((s.beginCommand w len).drained true pay rest).setBank F c).clearGot.offerBeat b).responseTaken b .always =
      (s.setBank F c).completed w 0 rest [b] := by
  cases F <;>
    simp [State.completed, State.responseTaken, State.offerBeat, State.clearGot, State.drained, State.beginCommand, phaseAfter,
      hl, hr]

section
variable {accepted : State → Bool} {finish start move : State → State} (h : StatusLast w len accepted finish start move)
  (hr : s.ready = .always) (hc : s.cmd = pay ++ rest) (hl : pay.length = len)
include h hr hc hl

/-- Its whole payload offered to a host that accepts, the packet consumes it, is finished, and its response is taken. -/
theorem StatusLast.settle_answered
    (hfin : finish ((s.beginCommand w len).drained (accepted (s.beginCommand w len)) pay rest) = t.offerBeat b) :
    settle move (start s) = (t.offerBeat b).responseTaken b .always := by
  have hresp : move (t.offerBeat b) = (t.offerBeat b).acceptResponse := by
    simp only [h.move_eq, State.payloadFirst, State.offerBeat_phase]
  have hready : (t.offerBeat b).ready.accept = some .always := by
    rw [← hfin, h.answers.ready]
    simp [State.drained, hr]
  have hleft : (t.offerBeat b).left = 0 := by
    rw [← hfin, h.answers.left]
    simp [State.drained, hl]
  have hover : ((t.offerBeat b).responseTaken b .always).phase = .header := by
    rw [State.responseTaken_phase, hleft, phaseAfter, if_pos rfl]
  rw [h.settle_whole hc hl, hfin, settleFor_response len hresp rfl rfl hready,
    settleFor_of_blocked (State.blocked_of_header hover)]

theorem StatusLast.settle_rejected (hacc : accepted (s.beginCommand w len) = false)
    (hfin : finish ((s.beginCommand w len).drained false pay rest) =
      ((s.beginCommand w len).drained false pay rest).offerBeat b) :
    settle move (start s) = s.completed w 0 rest [b] := by
  rw [h.settle_answered hr hc hl (by rw [hacc, hfin]), State.completed_of_rejected hr hl]

theorem StatusLast.settle_loaded (hacc : accepted (s.beginCommand w len) = true) {c : Bank F}
    (hfin : finish ((s.beginCommand w len).drained true pay rest) =
      (((s.beginCommand w len).drained true pay rest).setBank F c).clearGot.offerBeat b) :
    settle move (start s) = (s.setBank F c).completed w 0 rest [b] := by
  rw [h.settle_answered hr hc hl (by rw [hacc, hfin]), State.completed_of_loaded hr hl]

end

/-! ### The verdicts (spec/60_exceptions.md R173 to R176) -/

theorem shapeOk_eq_false_iff (rows cols : Nat) : shapeOk rows cols = false ↔ cols ≠ 6 ∨ rows < 1 ∨ 16 < rows := by
  simp only [shapeOk, Bool.and_eq_false_iff, beq_eq_false_iff_ne, decide_eq_false_iff_not, Nat.not_le]
  omega

theorem initFreshVerdict_eq (F : Fmt) (rows cols : Nat) (s : State) : initFreshVerdict F rows cols s =
    if cols ≠ 6 ∨ rows < 1 ∨ 16 < rows then .shapeError
    else if (s.bank F).count = s.maxFilters then .capacityExceeded else .ok := by
  simp only [initFreshVerdict, shapeOk_eq_false_iff]

theorem initReuseVerdict_eq (F : Fmt) (h rows cols : Nat) (s : State) : initReuseVerdict F h rows cols s =
    if cols ≠ 6 ∨ rows < 1 ∨ 16 < rows then .shapeError
    else if (s.bank F).count ≤ h then .invalidHandle else .ok := by
  simp only [initReuseVerdict, shapeOk_eq_false_iff, State.validHandle, decide_eq_false_iff_not, Nat.not_lt]

theorem initFreshVerdict_congr (hcount : (t.bank F).count = (s.bank F).count) (hmax : t.maxFilters = s.maxFilters)
    (rows cols : Nat) : initFreshVerdict F rows cols t = initFreshVerdict F rows cols s := by
  simp only [initFreshVerdict, hcount, hmax]

@[simp] theorem initFreshVerdict_beginCommand (w : Beat) (len rows cols : Nat) :
    initFreshVerdict F rows cols (s.beginCommand w len) = initFreshVerdict F rows cols s :=
  initFreshVerdict_congr (by simp) rfl rows cols

@[simp] theorem initFreshVerdict_drained (acc : Bool) (pay rest : List Beat) (rows cols : Nat) :
    initFreshVerdict F rows cols (s.drained acc pay rest) = initFreshVerdict F rows cols s :=
  initFreshVerdict_congr (by simp) rfl rows cols

@[simp] theorem initReuseVerdict_beginCommand (w : Beat) (len h rows cols : Nat) :
    initReuseVerdict F h rows cols (s.beginCommand w len) = initReuseVerdict F h rows cols s :=
  initReuseVerdict_congr (by simp) h rows cols

@[simp] theorem initReuseVerdict_drained (acc : Bool) (pay rest : List Beat) (h rows cols : Nat) :
    initReuseVerdict F h rows cols (s.drained acc pay rest) = initReuseVerdict F h rows cols s :=
  initReuseVerdict_congr (by simp) h rows cols

/-! ### The finishes, by verdict -/

theorem initFreshFinish_of_ok {rows cols : Nat} (hv : initFreshVerdict F rows cols s = .ok) :
    initFreshFinish F rows cols s =
      ((s.setSlot F (s.bank F).count (loadSlot F rows s.got (s.slot F (s.bank F).count))).setCount F
        ((s.bank F).count + 1)).clearGot.offerBeat (statusBeat .ok (bankBit F) 0 (s.bank F).count 0x1#4) := by
  simp only [initFreshFinish, hv]

theorem initFreshFinish_of_error {rows cols : Nat} {e : Ecode} (hv : initFreshVerdict F rows cols s = e) (he : e ≠ .ok) :
    initFreshFinish F rows cols s = s.offerBeat (errorStatus e (bankBit F) 0x1#4) := by
  subst hv
  unfold initFreshFinish
  split
  · next hok => exact absurd hok he
  · rfl

theorem initReuseFinish_of_ok {h rows cols : Nat} (hv : initReuseVerdict F h rows cols s = .ok) :
    initReuseFinish F h rows cols s =
      (s.setSlot F h (loadSlot F rows s.got (s.slot F h))).clearGot.offerBeat (statusBeat .ok (bankBit F) 0 h 0x1#4) := by
  simp only [initReuseFinish, hv]

theorem initReuseFinish_of_error {h rows cols : Nat} {e : Ecode} (hv : initReuseVerdict F h rows cols s = e) (he : e ≠ .ok) :
    initReuseFinish F h rows cols s = s.offerBeat (errorStatus e (bankBit F) 0x1#4) := by
  subst hv
  unfold initReuseFinish
  split
  · next hok => exact absurd hok he
  · rfl

/-! ### A whole INIT packet -/

section
variable {h rows cols : Nat} {e : Ecode} (hr : s.ready = .always) (hc : s.cmd = pay ++ rest) (hl : pay.length = rows * cols)
include hr hc hl

theorem exec_freshInit_error (hv : initFreshVerdict F rows cols s = e) (he : e ≠ .ok) : exec (freshInit F rows cols) s =
    .next (s.completed (encode (freshInit F rows cols)) 0 rest [errorStatus e (bankBit F) 0x1#4]) := by
  rw [exec_eq, (freshInit_statusLast F rows cols).settle_rejected hr hc (by cases F <;> exact hl)]
  · simpa [hv] using he
  · exact initFreshFinish_of_error (by simpa using hv) he

theorem exec_freshInit_ok (hv : initFreshVerdict F rows cols s = .ok) : exec (freshInit F rows cols) s =
    .next (((s.setSlot F (s.bank F).count (loadSlot F rows pay (s.slot F (s.bank F).count))).setCount F
      ((s.bank F).count + 1)).completed (encode (freshInit F rows cols)) 0 rest
        [statusBeat .ok (bankBit F) 0 (s.bank F).count 0x1#4]) := by
  rw [State.setSlot_setCount, exec_eq, (freshInit_statusLast F rows cols).settle_loaded hr hc (by cases F <;> exact hl)]
  · simp [hv]
  · simp [initFreshFinish_of_ok, hv, State.setSlot_setCount]

theorem exec_reuseInit_error (hv : initReuseVerdict F h rows cols s = e) (he : e ≠ .ok) : exec (reuseInit F h rows cols) s =
    .next (s.completed (encode (reuseInit F h rows cols)) 0 rest [errorStatus e (bankBit F) 0x1#4]) := by
  rw [exec_eq, (reuseInit_statusLast F h rows cols).settle_rejected hr hc (by cases F <;> exact hl)]
  · simpa [hv] using he
  · exact initReuseFinish_of_error (by simpa using hv) he

theorem exec_reuseInit_ok (hv : initReuseVerdict F h rows cols s = .ok) : exec (reuseInit F h rows cols) s =
    .next ((s.setSlot F h (loadSlot F rows pay (s.slot F h))).completed (encode (reuseInit F h rows cols)) 0 rest
      [statusBeat .ok (bankBit F) 0 h 0x1#4]) := by
  rw [State.setSlot, exec_eq, (reuseInit_statusLast F h rows cols).settle_loaded hr hc (by cases F <;> exact hl)]
  · simp [hv]
  · simp [initReuseFinish_of_ok, hv, State.setSlot]

end

/-- Settles O15: the verdict's branches are the statement's. -/
theorem freshInitEffect : Obligations.FreshInitEffect := by
  intro F rows cols s pay rest hr hc hl
  dsimp only
  split_ifs with hshape hfull
  · exact exec_freshInit_error hr hc hl (by rw [initFreshVerdict_eq, if_pos hshape]) (by decide)
  · exact exec_freshInit_error hr hc hl (by rw [initFreshVerdict_eq, if_neg hshape, if_pos hfull]) (by decide)
  · exact exec_freshInit_ok hr hc hl (by rw [initFreshVerdict_eq, if_neg hshape, if_neg hfull])

/-- Settles O16: the verdict's branches are the statement's. -/
theorem reuseInitEffect : Obligations.ReuseInitEffect := by
  intro F h rows cols s pay rest hr hc hl
  dsimp only
  split_ifs with hshape hinvalid
  · exact exec_reuseInit_error hr hc hl (by rw [initReuseVerdict_eq, if_pos hshape]) (by decide)
  · exact exec_reuseInit_error hr hc hl (by rw [initReuseVerdict_eq, if_neg hshape, if_pos hinvalid]) (by decide)
  · exact exec_reuseInit_ok hr hc hl (by rw [initReuseVerdict_eq, if_neg hshape, if_neg hinvalid])

end Sys2Proof.Machine

/-! PROOFS. O19: one accepted fresh INIT packet takes one step, gives out handle COUNT and leaves the block between commands, so
a row of them is an induction. -/

namespace Sys2Proof.Machine

/-- A step that accepts a fresh INIT's header runs the whole packet. -/
theorem step_freshInit_ok {F : Fmt} {rows : Nat} {s : State} {pay rest : List Beat} (hrst : s.rst = false)
    (hp : s.phase = .header) (hr : s.ready = .always) (hrows : 1 ≤ rows ∧ rows ≤ 16) (hl : pay.length = 6 * rows)
    (hc : s.cmd = encode (freshInit F rows 6) :: (pay ++ rest)) (hcount : (s.bank F).count < s.maxFilters) :
    ∃ t, step s = .next t ∧ t.rst = false ∧ t.phase = .header ∧ t.ready = .always ∧ t.cmd = rest ∧
      t.maxFilters = s.maxFilters ∧ (t.bank F).count = (s.bank F).count + 1 ∧
      t.rsp = s.rsp ++ [statusBeat .ok (bankBit F) 0 (s.bank F).count 0x1#4] := by
  have hfits : shapeFits rows 6 = true := by simpa [shapeFits] using hrows.2.trans_lt (by decide : 16 < 256)
  have hbank : State.bank { s with cmd := pay ++ rest } F = s.bank F := by cases F <;> rfl
  have hok : initFreshVerdict F rows 6 { s with cmd := pay ++ rest } = .ok := by
    rw [initFreshVerdict_eq, hbank, if_neg (by omega), if_neg (by simpa using hcount.ne)]
  refine ⟨_, (step_of_header_phase hrst hp hc (decode_encode_freshInit F hfits)).trans
    (exec_freshInit_ok (s := { s with cmd := pay ++ rest }) hr rfl (by omega) hok), ?_⟩
  exact ⟨by simpa using hrst, rfl, by simpa using hr, rfl, by simp, by simp [hbank], by simp [hbank]⟩

/-- A run whose first step answers a next state goes on from there. -/
theorem run_of_step {s t : State} (h : step s = .next t) (k : Nat) : Host.Core.run core (k + 1) s = Host.Core.run core k t := by
  have hcore : core.step s = .next t := h
  simp only [Host.Core.run, hcore]

/-- Settles O19, by induction on the packets. -/
theorem freshHandlesInOrder : Obligations.FreshHandlesInOrder := by
  intro F packets
  induction packets with
  | nil =>
    intro s rest _ _ _ _ hc _
    exact ⟨s, rfl, rfl, hc, by simp⟩
  | cons p packets ih =>
    intro s rest hrst hp hr hpackets hc hcount
    obtain ⟨⟨hpos, hle, hl⟩, hpackets⟩ := List.forall_mem_cons.1 hpackets
    rw [List.length_cons] at hcount
    obtain ⟨t, hstep, hrst, hp, hr, hcmd, hmax, hcount', hrsp⟩ := step_freshInit_ok
      (rest := packets.flatMap (fun p => encode (freshInit F p.1 6) :: p.2) ++ rest) hrst hp hr ⟨hpos, hle⟩ hl
      (by simpa using hc) (by omega)
    obtain ⟨u, hrun, hcountu, hcmdu, hrspu⟩ := ih t rest hrst hp hr hpackets hcmd (by omega)
    refine ⟨u, ?_, by rw [hcountu, hcount', List.length_cons]; omega, hcmdu, ?_⟩
    · exact (run_of_step hstep _).trans hrun
    · rw [hrspu, hrsp, hcount', List.length_cons, List.range_succ_eq_map]
      simp [Function.comp_def, Nat.add_assoc, Nat.add_comm 1]

end Sys2Proof.Machine

/-! PROOFS. O33: an APPLY whose payload is offered whole, to a host that accepts, ends as filtering its samples in order does
(`exec_applyCmd_ok`); and from a slot at rest with finite coefficients, zeros in are zeros out (`AtRest`). -/

namespace Sys2Proof.Machine

variable {F : Fmt} {h : Nat} {s : State} {pay rest : List Beat} {b : Beat}

/-! ### A whole APPLY packet on a valid handle (spec/41_apply.md R143) -/

/-- Between two samples of an APPLY on slot `h`, to a host that accepts. -/
structure State.Sampling (s : State) (F : Fmt) (h : Nat) : Prop where
  valid : h < (s.bank F).count
  wf : slotsWf (s.bank F).slots = true
  phase : s.phase = phaseAfter s.left
  offer : s.offer = none
  ready : s.ready = .always

/-- `s` once `k` more samples are done, of `ops` operations: they leave slot `h` as `v`, the stream at `rest`, and have sent
`out`. -/
def State.sampled (s : State) (F : Fmt) (h : Nat) (v : Slot F) (k ops : Nat) (rest out : List Beat) : State :=
  { s.setSlot F h v with
    phase := phaseAfter (s.left - k), left := s.left - k, n := s.n + k, draws := s.draws + ops, cmd := rest
    rsp := s.rsp ++ out }

theorem State.sampled_bank (v : Slot F) (k ops : Nat) (rest out : List Beat) :
    (s.sampled F h v k ops rest out).bank F = { s.bank F with slots := slotWrite (s.bank F).slots h v } := by
  cases F <;> rfl

theorem State.Sampling.sampled (hs : s.Sampling F h) (v : Slot F) (k ops : Nat) (rest out : List Beat) :
    (s.sampled F h v k ops rest out).Sampling F h where
  valid := by simpa [State.sampled_bank] using hs.valid
  wf := by simpa [State.sampled_bank] using slotsWf_slotWrite hs.wf h v
  phase := rfl
  offer := by simpa [State.sampled] using hs.offer
  ready := by simpa [State.sampled] using hs.ready

theorem State.sampled_slot (hs : s.Sampling F h) (v : Slot F) (k ops : Nat) (rest out : List Beat) :
    (s.sampled F h v k ops rest out).slot F h = v := by
  rw [State.slot, State.sampled_bank, slotRead_slotWrite_same hs.wf]

theorem State.sampled_none (hs : s.Sampling F h) : s.sampled F h (s.slot F h) 0 0 s.cmd [] = s := by
  simp [State.sampled, State.setSlot_slot hs.wf, ← hs.phase]

theorem State.sampled_sampled (hs : s.Sampling F h) (v v' : Slot F) (k k' ops ops' : Nat) (rest rest' out out' : List Beat) :
    (s.sampled F h v k ops rest out).sampled F h v' k' ops' rest' out' =
      s.sampled F h v' (k + k') (ops + ops') rest' (out ++ out') := by
  have hslots := slotWrite_slotWrite hs.wf h v v'
  cases F <;> simpa [State.sampled, State.setSlot, Nat.sub_sub, Nat.add_assoc] using hslots

theorem moveCommand_applyCmd_respond (hp : s.phase = .respond) (nsamp : Nat) :
    moveCommand (applyCmd F h nsamp) s = s.acceptResponse := by
  simp only [moveCommand_applyCmd, State.statusFirst, hp]

/-- One sample filtered and its output accepted. -/
theorem State.responseTaken_applySample (hs : s.Sampling F h) (hc : s.cmd = b :: rest) :
    let r := cascade F s.draws (s.slot F h) (valueOfBeat F b)
    (applySample F h b s.dropBeat).responseTaken (beatOfValue r.2) .always =
      s.sampled F h r.1 1 (stageOps * (s.slot F h).numStages) rest [beatOfValue r.2] := by
  simp only [applySample, State.dropBeat_slot, State.dropBeat_draws]
  cases F <;> simp [State.responseTaken, State.offerBeat, State.sampleDone, State.setSlot, State.dropBeat, State.sampled,
    hc, hs.offer, hs.ready]

/-- A sample and its output are two moves. -/
theorem settleFor_sample {nsamp : Nat} (k : Nat) (hs : s.Sampling F h) (hleft : 0 < s.left) (hc : s.cmd = b :: rest) :
    let r := cascade F s.draws (s.slot F h) (valueOfBeat F b)
    settleFor (moveCommand (applyCmd F h nsamp)) (k + 2) s = settleFor (moveCommand (applyCmd F h nsamp)) k
      (s.sampled F h r.1 1 (stageOps * (s.slot F h).numStages) rest [beatOfValue r.2]) := by
  intro r
  have hp : s.phase = .payload := by rw [hs.phase, phaseAfter, if_neg (by omega)]
  have hb : s.blocked = false := s.not_blocked_iff.2 (.inl ⟨hp, b, rest, hc⟩)
  have hok : applyVerdict F h s.dropBeat = .ok := by simp [applyVerdict, State.validHandle, hs.valid]
  have hmove : moveCommand (applyCmd F h nsamp) s = applySample F h b s.dropBeat := by
    simp only [moveCommand_applyCmd, State.statusFirst, hp, hc, applyConsume_of_ok hok]
  have hoffer : (applySample F h b s.dropBeat).offer = some (beatOfValue r.2) := by simp [applySample, r]
  have hready : (applySample F h b s.dropBeat).ready.accept = some .always := by simp [applySample, hs.ready]
  rw [settleFor_succ hb, hmove, settleFor_response k (moveCommand_applyCmd_respond rfl nsamp) rfl hoffer hready,
    State.responseTaken_applySample hs hc]

/-- The samples that the host offers are filtered in order (spec/41_apply.md R142). -/
theorem settleFor_samples {nsamp : Nat} (hs : s.Sampling F h) (hc : s.cmd = pay ++ rest) (hl : pay.length ≤ s.left) :
    let r := filterSamples F s.draws (s.slot F h) (pay.map (valueOfBeat F))
    settleFor (moveCommand (applyCmd F h nsamp)) (2 * pay.length) s =
      s.sampled F h r.1 pay.length (stageOps * (s.slot F h).numStages * pay.length) rest (r.2.map beatOfValue) := by
  induction pay generalizing s with
  | nil =>
    obtain rfl : s.cmd = rest := hc
    simp [settleFor, filterSamples, State.sampled_none hs]
  | cons b pay ih =>
    rw [List.length_cons] at hl
    have hfuel : 2 * (b :: pay).length = 2 * pay.length + 2 := by rw [List.length_cons]; omega
    have hnext := hs.sampled (cascade F s.draws (s.slot F h) (valueOfBeat F b)).1 1 (stageOps * (s.slot F h).numStages)
      (pay ++ rest) [beatOfValue (cascade F s.draws (s.slot F h) (valueOfBeat F b)).2]
    have hleft : pay.length ≤ s.left - 1 := by omega
    rw [hfuel, settleFor_sample _ hs (by omega) (rest := pay ++ rest) hc, ih hnext rfl hleft, State.sampled_sampled hs,
      State.sampled_slot hs]
    simp [State.sampled, filterSamples, Nat.mul_add, Nat.add_comm]

/-- The status and every output accepted, the packet is over. -/
theorem State.completed_of_sampled (hr : s.ready = .always) (w : Beat) (v : Slot F) (k ops : Nat) (out : List Beat) :
    (((s.beginCommand w k).offerBeat b).responseTaken b .always).sampled F h v k ops rest out =
      { s.setSlot F h v with draws := s.draws + ops }.completed w k rest (b :: out) := by
  cases F <;>
    simp [State.sampled, State.completed, State.beginCommand, State.offerBeat, State.responseTaken, State.setSlot, phaseAfter, hr]

/-- A whole APPLY packet on a valid handle: its status, then one output a sample. -/
theorem exec_applyCmd_ok (hwf : slotsWf (s.bank F).slots = true) (hv : h < (s.bank F).count) (hr : s.ready = .always)
    (hc : s.cmd = pay ++ rest) :
    let r := filterSamples F s.draws (s.slot F h) (pay.map (valueOfBeat F))
    exec (applyCmd F h pay.length) s = .next
      ({ s.setSlot F h r.1 with draws := s.draws + stageOps * (s.slot F h).numStages * pay.length }.completed
        (encode (applyCmd F h pay.length)) pay.length rest
        (statusBeat .ok (bankBit F) pay.length h 0x2#4 :: r.2.map beatOfValue)) := by
  intro r
  have hbegun (w b : Beat) : (((s.beginCommand w pay.length).offerBeat b).responseTaken b .always).Sampling F h :=
    ⟨by simpa using hv, by simpa using hwf, rfl, rfl, rfl⟩
  rw [exec_eq, startCommand_applyCmd, State.beginApply, applyStatus_eq, if_pos hv, settle, State.offerBeat_left,
    State.beginCommand_left, settleFor_response _ (moveCommand_applyCmd_respond rfl _) rfl rfl (r := .always) (by simp [hr]),
    settleFor_samples (hbegun _ _) hc le_rfl]
  simp [State.completed_of_sampled hr, r]

/-! ### Zeros in, zeros out (spec/40_init.md R112) -/

theorem isFinite_of_isZero {a : Value F} (ha : isZero a = true) : isFinite a = true := by
  have hmag : magOf a = 0 := by simpa [isZero] using ha
  cases F <;> simp [isFinite, hmag, infMag, expBits, fracBits]

theorem unitsOf_of_isZero {a : Value F} (ha : isZero a = true) : unitsOf a = 0 := by
  have hmag : magOf a = 0 := by simpa [isZero] using ha
  simp [unitsOf, hmag]

theorem isZero_pack_zero (sign : Bool) : isZero (pack F sign 0) = true := by
  simp [isZero, magOf_pack sign (signWeight_pos F)]

/-- A finite value is no NaN and no infinity. -/
theorem isNaN_isInf_of_isFinite {a : Value F} (ha : isFinite a = true) : isNaN a = false ∧ isInf a = false := by
  simp only [isFinite, isNaN, isInf, decide_eq_true_eq, decide_eq_false_iff_not, beq_eq_false_iff_ne] at ha ⊢
  omega

/-- A finite value times a zero is a zero, of either sign. -/
theorem isZero_fmul {a b : Value F} (ha : isFinite a = true) (hb : isZero b = true) (d : Nat) : isZero (fmul F d a b) = true := by
  obtain ⟨hna, hia⟩ := isNaN_isInf_of_isFinite ha
  obtain ⟨hnb, hib⟩ := isNaN_isInf_of_isFinite (isFinite_of_isZero hb)
  simp [fmul, hna, hia, hnb, hib, unitsOf_of_isZero hb, roundMag, isZero_pack_zero]

/-- The sum of two zeros is a zero. -/
theorem isZero_fadd {a b : Value F} (ha : isZero a = true) (hb : isZero b = true) (d : Nat) : isZero (fadd F d a b) = true := by
  obtain ⟨hna, hia⟩ := isNaN_isInf_of_isFinite (isFinite_of_isZero ha)
  obtain ⟨hnb, hib⟩ := isNaN_isInf_of_isFinite (isFinite_of_isZero hb)
  simp [fadd, faddFinite, intOf, hna, hia, hnb, hib, unitsOf_of_isZero ha, unitsOf_of_isZero hb, isZero_pack_zero]

/-- The slot's live coefficients are finite and its delay entries zeros, of either sign. -/
structure AtRest (v : Slot F) : Prop where
  coef : ∀ j, j < 5 * v.numStages → isFinite (v.coefAt j) = true
  delay : ∀ j, isZero (v.delayAt j) = true

theorem isZero_delayAt_set {v : Slot F} (hv : ∀ j, isZero (v.delayAt j) = true) (i : Nat) {a : Value F} (ha : isZero a = true)
    (j : Nat) : isZero (Slot.delayAt { v with delay := v.delay.setIfInBounds i a } j) = true := by
  by_cases hj : j < 32
  · by_cases hi : i = j
    · simpa [Slot.delayAt, Vector.getD, hj, hi] using ha
    · simpa [Slot.delayAt, Vector.getD, hj, hi] using hv j
  · simpa [Slot.delayAt, Vector.getD, hj] using hv j

/-- A live stage of a slot at rest answers a zero with a zero, and leaves the slot at rest. -/
theorem AtRest.stage {v : Slot F} (hv : AtRest v) {k : Nat} (hk : k < v.numStages) {x : Value F} (hx : isZero x = true)
    (d : Nat) : AtRest (stage F d k v x).1 ∧ isZero (stage F d k v x).2 = true := by
  have hmul {i : Nat} (hi : i < 5) {y : Value F} (hy : isZero y = true) (d : Nat) :
      isZero (fmul F d (v.coefAt (5 * k + i)) y) = true := isZero_fmul (hv.coef _ (by omega)) hy d
  have hy : isZero (Machine.stage F d k v x).2 = true := isZero_fadd (hmul (by decide : 0 < 5) hx d) (hv.delay _) _
  have hd1 := isZero_fadd (isZero_fadd (hmul (by decide : 1 < 5) hx (d + 2)) (hmul (by decide : 3 < 5) hy (d + 3)) (d + 4))
    (hv.delay (2 * k + 1)) (d + 5)
  have hd2 := isZero_fadd (hmul (by decide : 2 < 5) hx (d + 6)) (hmul (by decide : 4 < 5) hy (d + 7)) (d + 8)
  refine ⟨⟨hv.coef, fun j => ?_⟩, hy⟩
  exact isZero_delayAt_set (isZero_delayAt_set hv.delay _ hd1) _ hd2 j

theorem AtRest.stagesFrom {v : Slot F} (hv : AtRest v) {m k : Nat} (hk : k + m ≤ v.numStages) {x : Value F}
    (hx : isZero x = true) (d : Nat) :
    AtRest (stagesFrom F m d k v x).1 ∧ isZero (stagesFrom F m d k v x).2 = true := by
  induction m generalizing v k x d with
  | zero => exact ⟨hv, hx⟩
  | succ m ih =>
    obtain ⟨hrest, hzero⟩ := hv.stage (by omega : k < v.numStages) hx d
    exact ih hrest (by rw [stage_numStages]; omega) hzero _

theorem AtRest.filterSamples {v : Slot F} (hv : AtRest v) {xs : List (Value F)} (hxs : ∀ x ∈ xs, isZero x = true) (d : Nat) :
    ∀ y ∈ (filterSamples F d v xs).2, isZero y = true := by
  induction xs generalizing v d with
  | nil => simp [Machine.filterSamples]
  | cons x xs ih =>
    obtain ⟨hx, hxs⟩ := List.forall_mem_cons.1 hxs
    obtain ⟨hrest, hzero⟩ := hv.stagesFrom (by omega : 0 + v.numStages ≤ v.numStages) hx d
    exact List.forall_mem_cons.2 ⟨hzero, ih hrest hxs _⟩

theorem isZero_zero : isZero (0#F.width : Value F) = true := by simp [isZero, magOf]

/-- The loader leaves a slot at rest, its live coefficients finite. -/
theorem atRest_loadSlot {rows : Nat} {m : List Beat} {old : Slot F}
    (hfin : ∀ j, j < 5 * rows → isFinite ((loadSlot F rows m old).coefAt j) = true) : AtRest (loadSlot F rows m old) where
  coef := hfin
  delay j := by rw [delayAt_of_cleared rfl, isZero_zero]

/-- Settles O33: the loader leaves a slot at rest, and filtering zeros keeps it there. -/
theorem zeroInputGivesZeros : Obligations.ZeroInputGivesZeros := by
  intro F h rows nsamp m old s rest hwf hv hr _ hslot hfin hc
  have hexec := exec_applyCmd_ok hwf hv hr hc
  rw [List.length_replicate] at hexec
  refine ⟨_, (filterSamples F s.draws (s.slot F h) ((List.replicate nsamp 0#64).map (valueOfBeat F))).2, hexec, by simp,
    by simp, ?_⟩
  rw [hslot] at hfin ⊢
  refine (atRest_loadSlot hfin).filterSamples (fun x hx => ?_) s.draws
  rw [List.map_replicate] at hx
  rw [List.eq_of_mem_replicate hx, valueOfBeat, BitVec.setWidth_zero, isZero_zero]

end Sys2Proof.Machine

/-! PROOFS. O39, O41, O42 and O43: a product or a sum is a drawn NaN when R133 calls it invalid, and otherwise a value that no draw
touches (`fmul_eq`, `fadd_eq`); `fneg` is the sign bit inverted. -/

namespace Sys2Proof.Machine

variable {F : Fmt} {a b : Value F}

/-! ### The kinds of values (spec/41_apply.md R130) -/

theorem infMag_pos (F : Fmt) : 0 < infMag F := by cases F <;> simp [infMag, expBits, fracBits]

theorem isZero_eq_false_of_isInf (ha : isInf a = true) : isZero a = false := by
  have hpos := infMag_pos F
  simp only [isInf, isZero, beq_iff_eq, beq_eq_false_iff_ne] at ha ⊢
  omega

theorem isInf_pack_infMag (sign : Bool) : isInf (pack F sign (infMag F)) = true := by
  simp [isInf, magOf_pack sign (infMag_lt_signWeight F)]

/-- An infinity is its sign. -/
theorem pack_infMag_of_isInf (ha : isInf a = true) : pack F (signOf a) (infMag F) = a := by
  have hmag : magOf a = infMag F := by simpa [isInf] using ha
  rw [← hmag, pack_signOf_magOf]

theorem isNaN_pack_of_le (sign : Bool) {mag : Nat} (h : mag ≤ infMag F) : isNaN (pack F sign mag) = false := by
  rw [isNaN, magOf_pack sign (h.trans_lt (infMag_lt_signWeight F)), decide_eq_false (not_lt.2 h)]

/-! ### `fmul`: invalid, or the product of the magnitudes with the product of the signs (spec/41_apply.md R131, R133) -/

/-- The operands of an invalid product: a NaN, or an infinity and a zero. -/
def mulInvalid (a b : Value F) : Bool := isNaN a || isNaN b || (isInf a || isInf b) && (isZero a || isZero b)

/-- The magnitude field of a valid product. -/
def mulMag (a b : Value F) : Nat :=
  if isInf a || isInf b then infMag F else roundMag F (unitsOf a * unitsOf b) (unitExp F)

theorem fmul_eq (d : Nat) (a b : Value F) :
    fmul F d a b = if mulInvalid a b then quietNaN F d else pack F (signOf a != signOf b) (mulMag a b) := by
  unfold fmul mulInvalid mulMag
  cases hnan : isNaN a || isNaN b
  · cases hinf : isInf a || isInf b <;> simp
  · simp

theorem mulMag_le (a b : Value F) : mulMag a b ≤ infMag F := by
  unfold mulMag
  split
  · exact le_rfl
  · exact roundMag_le _ _ _

/-- A product is a NaN just when its operands are invalid. -/
@[simp] theorem isNaN_fmul (d : Nat) (a b : Value F) : isNaN (fmul F d a b) = mulInvalid a b := by
  rw [fmul_eq]
  cases mulInvalid a b
  · exact isNaN_pack_of_le _ (mulMag_le a b)
  · exact isNaN_quietNaN F d

theorem mulInvalid_comm (a b : Value F) : mulInvalid a b = mulInvalid b a := by
  simp only [mulInvalid, Bool.or_comm (isNaN a), Bool.or_comm (isInf a), Bool.or_comm (isZero a)]

theorem mulMag_comm (a b : Value F) : mulMag a b = mulMag b a := by
  rw [mulMag, mulMag, Bool.or_comm, Nat.mul_comm]

theorem fmul_comm (d : Nat) (a b : Value F) : fmul F d a b = fmul F d b a := by
  rw [fmul_eq, fmul_eq, mulInvalid_comm, mulMag_comm, bne_comm]

/-! ### `fadd`: invalid, or a sum that no draw touches (spec/41_apply.md R132, R133) -/

/-- The operands of an invalid sum: a NaN, or two infinities of opposite signs. -/
def addInvalid (a b : Value F) : Bool := isNaN a || isNaN b || isInf a && (isInf b && signOf a != signOf b)

/-- A valid sum. -/
def addValid (a b : Value F) : Value F := if isInf a then a else if isInf b then b else faddFinite F a b

theorem fadd_eq (d : Nat) (a b : Value F) : fadd F d a b = if addInvalid a b then quietNaN F d else addValid a b := by
  unfold fadd addInvalid addValid
  cases hnan : isNaN a || isNaN b
  · cases ha : isInf a
    · cases hb : isInf b
      · simp
      · simp [pack_infMag_of_isInf hb]
    · simp [pack_infMag_of_isInf ha]
  · simp

theorem isNaN_faddFinite (a b : Value F) : isNaN (faddFinite F a b) = false := by
  unfold faddFinite
  dsimp only
  split
  · exact isNaN_pack_of_le _ (Nat.zero_le _)
  · exact isNaN_pack_roundMag _ _ _ _

theorem isNaN_addValid (ha : isNaN a = false) (hb : isNaN b = false) : isNaN (addValid a b) = false := by
  unfold addValid
  split
  · exact ha
  · split
    · exact hb
    · exact isNaN_faddFinite a b

/-- A sum is a NaN just when its operands are invalid. -/
@[simp] theorem isNaN_fadd (d : Nat) (a b : Value F) : isNaN (fadd F d a b) = addInvalid a b := by
  rw [fadd_eq]
  cases h : addInvalid a b
  · obtain ⟨hnan, -⟩ := Bool.or_eq_false_iff.1 h
    obtain ⟨ha, hb⟩ := Bool.or_eq_false_iff.1 hnan
    exact isNaN_addValid ha hb
  · exact isNaN_quietNaN F d

theorem faddFinite_comm (a b : Value F) : faddFinite F a b = faddFinite F b a := by
  unfold faddFinite
  rw [add_comm (intOf a), Bool.and_comm (signOf a)]

theorem addInvalid_comm (a b : Value F) : addInvalid a b = addInvalid b a := by
  simp only [addInvalid, Bool.or_comm (isNaN a), bne_comm (a := signOf a), ← Bool.and_assoc, Bool.and_comm (isInf a)]

theorem addValid_comm (h : addInvalid a b = false) : addValid a b = addValid b a := by
  unfold addValid
  cases ha : isInf a
  · simp [faddFinite_comm a b]
  · cases hb : isInf b
    · simp
    · have hs : signOf a = signOf b := by simpa [ha, hb] using (Bool.or_eq_false_iff.1 h).2
      have hab : a = b := by rw [← pack_infMag_of_isInf ha, ← pack_infMag_of_isInf hb, hs]
      simp [hab]

theorem fadd_comm (d : Nat) (a b : Value F) : fadd F d a b = fadd F d b a := by
  rw [fadd_eq, fadd_eq, addInvalid_comm b a]
  cases h : addInvalid a b
  · exact addValid_comm h
  · rfl

/-! ### O39, O41 and O42 -/

/-- Settles O41: only a draw is a NaN, and every draw is quiet. -/
theorem nanResultsAreQuiet : Obligations.NanResultsAreQuiet := by
  intro F d a b
  rw [isNaN_fmul, isNaN_fadd]
  refine ⟨fun h => ?_, fun h => ?_⟩
  · rw [fmul_eq, if_pos h, isQuietNaN_quietNaN]
  · rw [fadd_eq, if_pos h, isQuietNaN_quietNaN]

/-- One product at two draws. -/
theorem sameValue_fmul_draw (d d' : Nat) (a b : Value F) : sameValue (fmul F d a b) (fmul F d' a b) := by
  cases h : mulInvalid a b
  · exact .inl (by simp [fmul_eq, h])
  · exact .inr (by simp [h])

/-- One sum at two draws. -/
theorem sameValue_fadd_draw (d d' : Nat) (a b : Value F) : sameValue (fadd F d a b) (fadd F d' a b) := by
  cases h : addInvalid a b
  · exact .inl (by simp [fadd_eq, h])
  · exact .inr (by simp [h])

/-- Settles O42: at one draw both orders give the same encoding. -/
theorem operandsCommute : Obligations.OperandsCommute := by
  intro F d d' a b
  rw [fmul_comm d' b a, fadd_comm d' b a]
  exact ⟨sameValue_fmul_draw d d' a b, sameValue_fadd_draw d d' a b⟩

/-- Settles O39, row by row. -/
theorem mulSpecialCases : Obligations.MulSpecialCases := by
  intro F d a b
  refine ⟨fun h => ?_, fun ha hb => ?_, fun ha hb => ?_, fun h => ?_, fun ha hb hb0 => ?_, fun ha ha0 hb => ?_, fun ha hb => ?_⟩
  · rcases h with h | h <;> simp [mulInvalid, h]
  · simp [mulInvalid, ha, hb]
  · simp [mulInvalid, ha, hb]
  · rw [isNaN_fmul] at h
    rw [fmul_eq, h, if_neg (by simp), signOf_pack _ ((mulMag_le a b).trans_lt (infMag_lt_signWeight F))]
  · have hvalid : mulInvalid a b = false := by
      simp [mulInvalid, (isNaN_eq_false_iff a).2 (.inr ha), hb, hb0, isZero_eq_false_of_isInf ha]
    rw [fmul_eq, hvalid, if_neg (by simp), mulMag, ha, Bool.true_or, if_pos rfl, isInf_pack_infMag]
  · have hvalid : mulInvalid a b = false := by
      simp [mulInvalid, (isNaN_eq_false_iff b).2 (.inr hb), ha, ha0, isZero_eq_false_of_isInf hb]
    rw [fmul_eq, hvalid, if_neg (by simp), mulMag, hb, Bool.or_true, if_pos rfl, isInf_pack_infMag]
  · rw [fmul_comm, isZero_fmul hb ha]

/-! ### O43: `fneg` (spec/41_apply.md R138) -/

/-- The mask that `fneg` applies is the sign bit alone. -/
theorem fneg_getLsbD (a : Value F) (i : Nat) : (fneg F a).getLsbD i = (a.getLsbD i != decide (i = F.width - 1)) := by
  have hmask : BitVec.ofNat F.width (signWeight F) = BitVec.twoPow F.width (F.width - 1) := by cases F <;> rfl
  have hlast : F.width - 1 < F.width := by cases F <;> decide
  rw [fneg, hmask, BitVec.getLsbD_xor, BitVec.getLsbD_twoPow]
  simp [hlast, eq_comm]

theorem signOf_fneg (a : Value F) : signOf (fneg F a) = !signOf a := by
  rw [signOf, signOf, BitVec.msb_eq_getLsbD_last, BitVec.msb_eq_getLsbD_last, fneg_getLsbD, decide_eq_true rfl, Bool.bne_true]

theorem fneg_getLsbD_of_lt (a : Value F) {i : Nat} (hi : i < F.width - 1) : (fneg F a).getLsbD i = a.getLsbD i := by
  rw [fneg_getLsbD, decide_eq_false (by omega), Bool.bne_false]

theorem magOf_fneg (a : Value F) : magOf (fneg F a) = magOf a := by
  have hweight : signWeight F = 2 ^ (F.width - 1) := by cases F <;> rfl
  rw [magOf, magOf, hweight]
  refine Nat.eq_of_testBit_eq fun i => ?_
  rw [Nat.testBit_mod_two_pow, Nat.testBit_mod_two_pow]
  by_cases hi : i < F.width - 1
  · exact congrArg _ (fneg_getLsbD_of_lt a hi)
  · simp [hi]

/-- Settles O43: the mask of `fneg` is the sign bit alone. -/
theorem negFlipsSignBit : Obligations.NegFlipsSignBit := fun F a =>
  ⟨signOf_fneg a, magOf_fneg a, fun _ => fneg_getLsbD_of_lt a, by rw [isNaN, isNaN, magOf_fneg]⟩

end Sys2Proof.Machine

/-! PROOFS. O37, O38 and O40: a rounded magnitude is a significand `q` in the place `2^e` (`Parts`), nearest to the exact value there
(`Nearest`); every finite value is a multiple of that place or too small to be as near (`magUnits_multiple`). -/

namespace Sys2Proof.Machine

variable {F : Fmt} {m k q e p : Nat}

/-! ### Rounding to a whole number (spec/41_apply.md R131) -/

/-- `q` is a whole number nearest to `m / p`, the even one of two. -/
structure Nearest (m p q : Nat) : Prop where
  le : 2 * (q * p) ≤ 2 * m + p
  ge : 2 * m ≤ 2 * (q * p) + p
  even : 2 * (q * p) = 2 * m + p ∨ 2 * m = 2 * (q * p) + p → q % 2 = 0

theorem roundTiesToEven_nearest (m k : Nat) : Nearest m (2 ^ k) (roundTiesToEven m k) := by
  have hdiv : m / 2 ^ k * 2 ^ k + m % 2 ^ k = m := Nat.div_add_mod' m (2 ^ k)
  have hmod : m % 2 ^ k < 2 ^ k := Nat.mod_lt _ (Nat.two_pow_pos k)
  unfold roundTiesToEven
  simp only [pow2_eq]
  split
  · next h => constructor <;> rw [Nat.add_mul, one_mul] <;> omega
  · next h => constructor <;> omega

/-- No integer is nearer, and another as near leaves an even one. -/
theorem Nearest.int (h : Nearest m p q) (z : ℤ) :
    |(q * p : ℤ) - m| ≤ |z * p - m| ∧ (|(q * p : ℤ) - m| = |z * p - m| → z ≠ q → q % 2 = 0) := by
  obtain ⟨hle, hge, heven⟩ := h
  rcases eq_or_ne z q with rfl | hne
  · exact ⟨le_rfl, fun _ h => absurd rfl h⟩
  have hp : (0 : ℤ) ≤ p := Int.natCast_nonneg p
  have hfar : z * p ≤ (q * p : ℕ) - p ∨ (q * p : ℕ) + p ≤ z * p := by
    push_cast
    rcases lt_or_gt_of_ne hne with hz | hz
    · exact .inl (by nlinarith)
    · exact .inr (by nlinarith)
  simp only [abs_eq_max_neg, ← Nat.cast_mul]
  exact ⟨by omega, fun _ _ => heven (by omega)⟩

section
variable {c : Nat}

theorem Nearest.le_of_le (h : Nearest m p q) (hp : 0 < p) (hm : m ≤ c * p) : q ≤ c := by
  have hle := h.le
  by_contra hlt
  have := Nat.mul_le_mul_right p (not_le.1 hlt)
  rw [Nat.succ_mul] at this
  omega

theorem Nearest.ge_of_ge (h : Nearest m p q) (hp : 0 < p) (hm : c * p ≤ m) : c ≤ q := by
  have hge := h.ge
  by_contra hlt
  have := Nat.mul_le_mul_right p (not_le.1 hlt)
  rw [Nat.succ_mul] at this
  omega

/-- Past the middle below `c`, or at it and `c` even, rounding goes up to `c`. -/
theorem Nearest.ge_of_half (h : Nearest m p q) (hp : 0 < p) (hc : c % 2 = 0) (hm : 2 * (c * p) ≤ 2 * m + p) : c ≤ q := by
  obtain ⟨-, hge, heven⟩ := h
  by_contra hlt
  obtain ⟨d, rfl⟩ := Nat.exists_eq_add_of_lt (not_le.1 hlt)
  rw [add_mul, add_mul, one_mul] at hm
  rcases d.eq_zero_or_pos with rfl | hd
  · have := heven (.inr (by omega))
    omega
  · have := Nat.le_mul_of_pos_left p hd
    omega

/-- Short of the middle below `c`, rounding stays below `c`. -/
theorem Nearest.lt_of_half (h : Nearest m p q) (hm : 2 * m + p < 2 * (c * p)) : q < c := by
  have hle := h.le
  by_contra hge
  have := Nat.mul_le_mul_right p (not_lt.1 hge)
  omega

end

/-! ### Magnitude fields as numbers of units (spec/41_apply.md R130, R135) -/

/-- The units of the finite magnitude field `mag`. -/
def magUnits (F : Fmt) (mag : Nat) : Nat :=
  if mag / pow2 (fracBits F) = 0 then mag % pow2 (fracBits F)
  else (pow2 (fracBits F) + mag % pow2 (fracBits F)) * pow2 (mag / pow2 (fracBits F) - 1)

theorem unitsOf_eq (v : Value F) : unitsOf v = magUnits F (magOf v) := rfl

/-- A significand `q` and an exponent field one above `e`; `e = 0` for the subnormals too. A significand that has just
overflowed counts. -/
structure Parts (F : Fmt) (e q : Nat) : Prop where
  le : q ≤ 2 ^ (fracBits F + 1)
  normal : e = 0 ∨ 2 ^ fracBits F ≤ q

theorem magUnits_fields (e : Nat) {frac : Nat} (h : frac < 2 ^ fracBits F) :
    magUnits F (e * 2 ^ fracBits F + frac) = if e = 0 then frac else (2 ^ fracBits F + frac) * 2 ^ (e - 1) := by
  have hdiv : (e * 2 ^ fracBits F + frac) / 2 ^ fracBits F = e := by
    rw [Nat.add_comm, Nat.add_mul_div_right _ _ (Nat.two_pow_pos _), Nat.div_eq_of_lt h, Nat.zero_add]
  simp only [magUnits, pow2_eq, hdiv, Nat.mul_add_mod', Nat.mod_eq_of_lt h]

theorem magUnits_parts (h : Parts F e q) : magUnits F (e * 2 ^ fracBits F + q) = q * 2 ^ e := by
  obtain ⟨hle, hnormal⟩ := h
  rcases lt_or_ge q (2 ^ fracBits F) with hsub | hge
  · obtain rfl : e = 0 := by omega
    rw [magUnits_fields 0 hsub, if_pos rfl, pow_zero, mul_one]
  · obtain ⟨r, rfl⟩ := Nat.exists_eq_add_of_le hge
    rcases lt_or_ge r (2 ^ fracBits F) with hr | hr
    · rw [← add_assoc, ← Nat.succ_mul, magUnits_fields _ hr, if_neg e.succ_ne_zero, Nat.succ_sub_one]
    · obtain rfl : r = 2 ^ fracBits F := by omega
      have hcarry := magUnits_fields (F := F) (e + 2) (Nat.two_pow_pos _)
      rw [if_neg (by omega), add_zero, add_mul, two_mul, add_zero] at hcarry
      rw [hcarry, Nat.add_sub_assoc (by decide)]
      ring

theorem exists_parts (F : Fmt) (mag : Nat) :
    ∃ e q, Parts F e q ∧ q < 2 ^ (fracBits F + 1) ∧ mag = e * 2 ^ fracBits F + q := by
  have hdiv := Nat.div_add_mod' mag (2 ^ fracBits F)
  have hmod := Nat.mod_lt mag (Nat.two_pow_pos (fracBits F))
  rcases lt_or_ge mag (2 ^ fracBits F) with hlt | hge
  · exact ⟨0, mag, ⟨by omega, .inl rfl⟩, by omega, by omega⟩
  · refine ⟨mag / 2 ^ fracBits F - 1, 2 ^ fracBits F + mag % 2 ^ fracBits F, ⟨by omega, .inr (by omega)⟩, by omega, ?_⟩
    have := Nat.div_pos hge (Nat.two_pow_pos _)
    rw [Nat.sub_mul, one_mul]
    have := Nat.mul_le_mul_right (2 ^ fracBits F) this
    omega

/-! ### `roundMag` -/

/-- `roundMag` rounds `m` to `q` times `2^(e+k)`, the place of the significand's last bit or, if that is more, of a unit. -/
theorem roundMag_parts (F : Fmt) (m k : Nat) : ∃ e q, Parts F e q ∧ Nearest m (2 ^ (e + k)) q ∧
    (e = 0 ∨ 2 ^ fracBits F * 2 ^ (e + k) ≤ m) ∧ roundMag F m k = min (infMag F) (e * 2 ^ fracBits F + q) := by
  unfold roundMag
  split
  · next hm =>
    subst hm
    exact ⟨0, 0, ⟨Nat.zero_le _, .inl rfl⟩, ⟨by simp, by simp, fun _ => rfl⟩, .inl rfl, by simp⟩
  · next hm =>
    dsimp only
    set cut := max (m.log2 + 1 - (fracBits F + 1)) k with hcut
    have hek : cut - k + k = cut := Nat.sub_add_cancel (Nat.le_max_right _ _)
    have hnear := roundTiesToEven_nearest m cut
    have hlt : m < 2 ^ (fracBits F + 1) * 2 ^ cut := by
      rw [← pow_add]
      exact lt_of_lt_of_le Nat.lt_log2_self (Nat.pow_le_pow_right (by decide) (by omega))
    have hlow : cut - k = 0 ∨ 2 ^ fracBits F * 2 ^ cut ≤ m := by
      rcases Nat.eq_zero_or_pos (cut - k) with h0 | hpos
      · exact .inl h0
      · refine .inr ?_
        rw [← pow_add]
        exact (Nat.pow_le_pow_right (by decide) (by omega)).trans (Nat.log2_self_le hm)
    have hpos := Nat.two_pow_pos cut
    exact ⟨cut - k, roundTiesToEven m cut, ⟨hnear.le_of_le hpos hlt.le, hlow.imp_right fun h => hnear.ge_of_ge hpos h⟩,
      by rwa [hek], by rwa [hek], by rw [pow2_eq]⟩

/-- The exponent field of the largest finite values, less one. -/
def topExp (F : Fmt) : Nat := 2 ^ expBits F - 3

theorem infMag_eq (F : Fmt) : infMag F = (topExp F + 2) * 2 ^ fracBits F := by
  cases F <;> simp [infMag, topExp, expBits]

/-- The overflow bound is half a unit of the last place below the power of two past the largest finite value. -/
theorem overflowUnits_eq (F : Fmt) (k : Nat) :
    2 * (overflowUnits F * 2 ^ k) + 2 ^ (topExp F + k) = 2 * (2 ^ (fracBits F + 1) * 2 ^ (topExp F + k)) := by
  have htop : topExp F + k = (2 ^ expBits F - 4) + k + 1 := by cases F <;> simp [topExp, expBits] <;> omega
  have hsig : 2 ^ (fracBits F + 2) - 1 + 1 = 2 * 2 ^ (fracBits F + 1) := by
    rw [Nat.sub_add_cancel Nat.one_le_two_pow, pow_succ', pow_succ']
  rw [overflowUnits, htop]
  generalize 2 ^ (fracBits F + 2) - 1 = c at hsig ⊢
  linear_combination (2 * (2 ^ (2 ^ expBits F - 4) * 2 ^ k)) * hsig

/-- At the overflow bound and past it, rounding goes past the largest finite value. -/
theorem infMag_le_of_overflow (hparts : Parts F e q) (hnear : Nearest m (2 ^ (e + k)) q)
    (hm : overflowUnits F * 2 ^ k ≤ m) : infMag F ≤ e * 2 ^ fracBits F + q := by
  obtain ⟨hle, hnormal⟩ := hparts
  have hbound := overflowUnits_eq F k
  have hpos := Nat.two_pow_pos (e + k)
  rw [infMag_eq, add_mul]
  rcases lt_trichotomy e (topExp F) with he | rfl | he
  · have hplace : 2 * 2 ^ (e + k) ≤ 2 ^ (topExp F + k) := by
      rw [← pow_succ']
      exact Nat.pow_le_pow_right (by decide) (by omega)
    have hfar : (2 ^ (fracBits F + 1) + 1) * 2 ^ (e + k) ≤ m := by
      have : 1 ≤ 2 ^ fracBits F := Nat.one_le_two_pow
      rw [pow_succ] at hbound ⊢
      nlinarith
    have := hnear.ge_of_ge hpos hfar
    omega
  · have := hnear.ge_of_half hpos (c := 2 ^ (fracBits F + 1)) (by omega) (by omega)
    omega
  · have := Nat.mul_le_mul_right (2 ^ fracBits F) he
    rw [Nat.succ_mul] at this
    omega

/-- Short of the overflow bound, rounding gives a finite magnitude. -/
theorem lt_infMag_of_not_overflow (hparts : Parts F e q) (hnear : Nearest m (2 ^ (e + k)) q)
    (hlow : e = 0 ∨ 2 ^ fracBits F * 2 ^ (e + k) ≤ m) (hm : m < overflowUnits F * 2 ^ k) :
    e * 2 ^ fracBits F + q < infMag F := by
  obtain ⟨hle, -⟩ := hparts
  have hbound := overflowUnits_eq F k
  have hpos := Nat.two_pow_pos (fracBits F)
  have htop : e ≤ topExp F := by
    rcases hlow with rfl | hlow
    · exact Nat.zero_le _
    by_contra he
    have hplace : 2 * 2 ^ (topExp F + k) ≤ 2 ^ (e + k) := by
      rw [← pow_succ']
      exact Nat.pow_le_pow_right (by decide) (by omega)
    have := Nat.mul_le_mul_left (2 ^ fracBits F) hplace
    rw [pow_succ] at hbound
    nlinarith
  rw [infMag_eq, add_mul]
  rcases Nat.lt_or_eq_of_le htop with he | rfl
  · have := Nat.mul_le_mul_right (2 ^ fracBits F) he
    rw [Nat.succ_mul] at this
    omega
  · have := hnear.lt_of_half (c := 2 ^ (fracBits F + 1)) (by omega)
    omega

/-! ### The rounded value -/

/-- Every finite magnitude is a multiple of the place `2^e` that `m` was rounded to, or below the significands of that place. -/
theorem magUnits_multiple (F : Fmt) (e mag : Nat) :
    2 ^ e ∣ magUnits F mag ∨ e ≠ 0 ∧ magUnits F mag < 2 ^ fracBits F * 2 ^ e := by
  obtain ⟨e', q, hparts, hlt, rfl⟩ := exists_parts F mag
  rw [magUnits_parts hparts]
  rcases le_or_gt e e' with he | he
  · exact .inl ((pow_dvd_pow 2 he).mul_left q)
  · refine .inr ⟨by omega, ?_⟩
    calc q * 2 ^ e' < 2 ^ (fracBits F + 1) * 2 ^ e' := Nat.mul_lt_mul_of_pos_right hlt (Nat.two_pow_pos _)
      _ = 2 ^ fracBits F * 2 ^ (e' + 1) := by ring
      _ ≤ 2 ^ fracBits F * 2 ^ e := Nat.mul_le_mul_left _ (Nat.pow_le_pow_right (by decide) he)

/-- No finite value, of either sign, is nearer to `m` than the rounded magnitude, and another as near leaves an even significand. -/
theorem nearest_of_parts (hnear : Nearest m (2 ^ (e + k)) q) (hlow : e = 0 ∨ 2 ^ fracBits F * 2 ^ (e + k) ≤ m) {z : ℤ}
    {mag : Nat} (hz : z.natAbs = magUnits F mag) :
    |(q * 2 ^ e : ℤ) * 2 ^ k - m| ≤ |z * 2 ^ k - m| ∧
      (|(q * 2 ^ e : ℤ) * 2 ^ k - m| = |z * 2 ^ k - m| → z ≠ q * 2 ^ e → q % 2 = 0) := by
  have hint := hnear.int
  push_cast at hint
  rw [mul_assoc, ← pow_add]
  rcases magUnits_multiple F e mag with hdvd | ⟨he, hlt⟩
  · obtain ⟨c, rfl⟩ := Int.natCast_dvd.2 (hz ▸ hdvd)
    obtain ⟨hle, heven⟩ := hint c
    push_cast [mul_comm _ c]
    rw [mul_assoc, ← pow_add]
    exact ⟨hle, fun h hne => heven h fun hc => hne (by rw [hc])⟩
  · have hm : (2 : ℤ) ^ fracBits F * 2 ^ (e + k) ≤ m := by exact_mod_cast hlow.resolve_left he
    have hbelow : z * 2 ^ k < 2 ^ fracBits F * 2 ^ (e + k) := by
      have : z < 2 ^ fracBits F * 2 ^ e := lt_of_le_of_lt Int.le_natAbs (by rw [hz]; exact_mod_cast hlt)
      rw [pow_add, ← mul_assoc]
      exact mul_lt_mul_of_pos_right this (by positivity)
    have hstrict : |(q : ℤ) * 2 ^ (e + k) - m| < |z * 2 ^ k - m| := by
      refine (hint (2 ^ fracBits F)).1.trans_lt ?_
      rw [abs_of_nonpos (by omega), abs_of_nonpos (by omega)]
      omega
    exact ⟨hstrict.le, fun h => absurd h hstrict.ne⟩

theorem intOf_pack (sign : Bool) {mag : Nat} (h : mag < infMag F) :
    intOf (pack F sign mag) = if sign then -(magUnits F mag : ℤ) else magUnits F mag := by
  have hlt := h.trans (infMag_lt_signWeight F)
  rw [intOf, signOf_pack _ hlt, unitsOf_eq, magOf_pack _ hlt]

theorem natAbs_intOf (v : Value F) : (intOf v).natAbs = magUnits F (magOf v) := by
  unfold intOf
  split <;> simp [unitsOf_eq]

/-- `r` is the number `exact / 2^k` of units, rounded to nearest, ties to even; past the range it is an infinity. -/
def Rounds (k : Nat) (exact : ℤ) (r : Value F) : Prop :=
  ((overflowUnits F : ℤ) * 2 ^ k ≤ |exact| → isInf r = true) ∧
  (|exact| < (overflowUnits F : ℤ) * 2 ^ k → isFinite r = true ∧
    ∀ c : Value F, isFinite c = true →
      |intOf r * 2 ^ k - exact| ≤ |intOf c * 2 ^ k - exact| ∧
      (|intOf r * 2 ^ k - exact| = |intOf c * 2 ^ k - exact| → intOf c ≠ intOf r → magOf r % 2 = 0))

theorem rounds_pack_roundMag (sign : Bool) (m k : Nat) :
    Rounds k (if sign then -(m : ℤ) else m) (pack F sign (roundMag F m k)) := by
  obtain ⟨e, q, hparts, hnear, hlow, hround⟩ := roundMag_parts F m k
  have habs : |(if sign then -(m : ℤ) else m)| = m := by cases sign <;> simp
  rw [Rounds, habs]
  refine ⟨fun hm => ?_, fun hm => ?_⟩
  · rw [hround, min_eq_left (infMag_le_of_overflow hparts hnear (by exact_mod_cast hm)), isInf_pack_infMag]
  · have hfin := lt_infMag_of_not_overflow hparts hnear hlow (by exact_mod_cast hm)
    have hlt := hfin.trans (infMag_lt_signWeight F)
    rw [hround, min_eq_right hfin.le, isFinite, magOf_pack sign hlt, intOf_pack sign hfin, magUnits_parts hparts]
    have hparity : (e * 2 ^ fracBits F + q) % 2 = q % 2 := by
      have hfrac : 2 ^ fracBits F % 2 = 0 := by cases F <;> rfl
      rw [Nat.add_mod, Nat.mul_mod, hfrac, Nat.mul_zero, Nat.zero_mod, Nat.zero_add, Nat.mod_mod]
    rw [hparity]
    refine ⟨decide_eq_true hfin, fun c _ => ?_⟩
    cases sign
    · simpa using nearest_of_parts hnear hlow (natAbs_intOf c)
    · have hneg (x : ℤ) : |x + m| = |-x - m| := by rw [← abs_neg, neg_add']
      have hne (x : ℤ) : intOf c ≠ -x ↔ -intOf c ≠ x := neg_eq_iff_eq_neg.not.symm
      simpa [hneg, hne] using nearest_of_parts hnear hlow ((Int.natAbs_neg _).trans (natAbs_intOf c))

/-! ### O37 and O38 -/

theorem intOf_mul_intOf (a b : Value F) :
    intOf a * intOf b = if signOf a != signOf b then -((unitsOf a * unitsOf b : ℕ) : ℤ) else (unitsOf a * unitsOf b : ℕ) := by
  unfold intOf
  cases signOf a <;> cases signOf b <;> simp

theorem fmul_of_finite {a b : Value F} (ha : isFinite a = true) (hb : isFinite b = true) (d : Nat) :
    fmul F d a b = pack F (signOf a != signOf b) (roundMag F (unitsOf a * unitsOf b) (unitExp F)) := by
  simp [fmul, isNaN_isInf_of_isFinite ha, isNaN_isInf_of_isFinite hb]

theorem fadd_of_finite {a b : Value F} (ha : isFinite a = true) (hb : isFinite b = true) (d : Nat) :
    fadd F d a b = faddFinite F a b := by
  simp [fadd, isNaN_isInf_of_isFinite ha, isNaN_isInf_of_isFinite hb]

theorem signOf_pack_roundMag (sign : Bool) (m k : Nat) : signOf (pack F sign (roundMag F m k)) = sign :=
  signOf_pack _ ((roundMag_le _ _ _).trans_lt (infMag_lt_signWeight F))

/-- Settles O37: the exact product's magnitude, rounded once. -/
theorem mulRoundsToNearestEven : Obligations.MulRoundsToNearestEven := by
  intro F d a b ha hb
  have hround := rounds_pack_roundMag (F := F) (signOf a != signOf b) (unitsOf a * unitsOf b) (unitExp F)
  rw [← intOf_mul_intOf] at hround
  simp only [fmul_of_finite ha hb]
  exact ⟨signOf_pack_roundMag _ _ _, hround⟩

theorem rounds_faddFinite (a b : Value F) : Rounds 0 (intOf a + intOf b) (faddFinite F a b) := by
  unfold faddFinite
  dsimp only
  split
  · next hsum =>
    have hround := rounds_pack_roundMag (F := F) (signOf a && signOf b) 0 0
    rw [hsum]
    simpa [roundMag] using hround
  · have hsum : (if decide (intOf a + intOf b < 0) then -((intOf a + intOf b).natAbs : ℤ) else (intOf a + intOf b).natAbs) =
        intOf a + intOf b := by
      simp only [decide_eq_true_eq]
      omega
    have hround := rounds_pack_roundMag (F := F) (decide (intOf a + intOf b < 0)) (intOf a + intOf b).natAbs 0
    rwa [hsum] at hround

theorem signOf_faddFinite {a b : Value F} (h : intOf a + intOf b ≠ 0) :
    signOf (faddFinite F a b) = decide (intOf a + intOf b < 0) := by
  simp only [faddFinite, if_neg h, signOf_pack_roundMag]

/-- Settles O38: the exact sum's magnitude, rounded once. -/
theorem addRoundsToNearestEven : Obligations.AddRoundsToNearestEven := by
  intro F d a b ha hb
  simp only [fadd_of_finite ha hb]
  refine ⟨signOf_faddFinite, ?_⟩
  simpa only [Rounds, pow_zero, mul_one] using rounds_faddFinite a b

/-! ### O40: a finite value is rounded to itself (spec/41_apply.md R133) -/

theorem roundTiesToEven_mul (q k : Nat) : roundTiesToEven (q * 2 ^ k) k = q := by
  simp [roundTiesToEven, (Nat.two_pow_pos k).ne]

theorem roundMag_magUnits {mag : Nat} (h : mag < infMag F) : roundMag F (magUnits F mag) 0 = mag := by
  obtain ⟨e, q, hparts, hlt, rfl⟩ := exists_parts F mag
  rw [magUnits_parts hparts]
  unfold roundMag
  split
  · next hzero =>
    have hq : q = 0 := by simpa using hzero
    have hfrac := Nat.two_pow_pos (fracBits F)
    rcases hparts.normal with rfl | hge
    · simp [hq]
    · omega
  · next hne =>
    have hcut : max ((q * 2 ^ e).log2 + 1 - (fracBits F + 1)) 0 = e := by
      rcases hparts.normal with rfl | hge
      · have := (Nat.log2_lt (by simpa using hne)).2 hlt
        rw [pow_zero, mul_one]
        omega
      · have hlog : (q * 2 ^ e).log2 = fracBits F + e := by
          rw [Nat.log2_eq_iff hne, pow_add, add_right_comm, pow_add]
          exact ⟨Nat.mul_le_mul_right _ hge, Nat.mul_lt_mul_of_pos_right hlt (Nat.two_pow_pos e)⟩
        omega
    simp only [hcut]
    rw [roundTiesToEven_mul, pow2_eq, Nat.sub_zero, min_eq_right h.le]

theorem unitsOf_eq_zero_iff {a : Value F} (ha : isFinite a = true) : unitsOf a = 0 ↔ isZero a = true := by
  refine ⟨fun h => ?_, unitsOf_of_isZero⟩
  have hmag := roundMag_magUnits (F := F) (mag := magOf a) (by simpa [isFinite] using ha)
  rw [← unitsOf_eq, h] at hmag
  simp [isZero, ← hmag, roundMag]

theorem intOf_of_isZero {a : Value F} (ha : isZero a = true) : intOf a = 0 := by simp [intOf, unitsOf_of_isZero ha]

theorem fadd_inf_left {a b : Value F} (ha : isInf a = true) (hb : isNaN b = false) (hs : isInf b = true → signOf a = signOf b)
    (d : Nat) : fadd F d a b = a := by
  have hvalid : addInvalid a b = false := by
    simp only [addInvalid, (isNaN_eq_false_iff a).2 (.inr ha), hb]
    cases hib : isInf b
    · simp
    · simp [hs hib]
  rw [fadd_eq, hvalid, if_neg (by simp), addValid, if_pos ha]

theorem fadd_zero_left {a b : Value F} (ha : isZero a = true) (hb : isNaN b = false) (hb0 : isZero b = false) (d : Nat) :
    fadd F d a b = b := by
  have hfin := isFinite_of_isZero ha
  rcases (isNaN_eq_false_iff b).1 hb with hb | hb
  · have hunits : unitsOf b ≠ 0 := fun h => by simp [(unitsOf_eq_zero_iff hb).1 h] at hb0
    have hround : roundMag F (unitsOf b) 0 = magOf b := roundMag_magUnits (by simpa [isFinite] using hb)
    have hint : intOf b ≠ 0 ∧ (intOf b).natAbs = unitsOf b ∧ decide (intOf b < 0) = signOf b := by
      unfold intOf
      cases signOf b <;> simp <;> omega
    obtain ⟨hne, hnat, hsign⟩ := hint
    rw [fadd_of_finite hfin hb, faddFinite, intOf_of_isZero ha, zero_add, if_neg hne, hnat, hsign, hround, pack_signOf_magOf]
  · obtain ⟨hna, hia⟩ := isNaN_isInf_of_isFinite hfin
    rw [fadd_comm, fadd_inf_left hb hna (by simp [hia])]

theorem fadd_fneg {a : Value F} (ha : isFinite a = true) (d : Nat) : fadd F d a (fneg F a) = pack F false 0 := by
  have hfin : isFinite (fneg F a) = true := by rwa [isFinite, magOf_fneg]
  have hsum : intOf a + intOf (fneg F a) = 0 := by
    simp only [intOf, unitsOf_eq, magOf_fneg, signOf_fneg]
    cases signOf a <;> simp
  rw [fadd_of_finite ha hfin, faddFinite, if_pos hsum, signOf_fneg, Bool.and_not_self]

/-- Settles O40, row by row; the second operand's rows are the first's, with the operands exchanged. -/
theorem addSpecialCases : Obligations.AddSpecialCases := by
  intro F d a b
  refine ⟨fun h => ?_, fun ha hb hs => ?_, fun ha hb hs => ?_, fun hb ha hs => ?_, fun ha hb hb0 => ?_, fun hb ha ha0 => ?_,
    fun ha _ => ?_, fun ha hb => ?_⟩
  · rcases h with h | h <;> simp [addInvalid, h]
  · simp [addInvalid, ha, hb, hs]
  · exact fadd_inf_left ha hb hs d
  · rw [fadd_comm, fadd_inf_left hb ha fun hia => (hs hia).symm]
  · exact fadd_zero_left ha hb hb0 d
  · rw [fadd_comm, fadd_zero_left hb ha ha0]
  · exact fadd_fneg ha d
  · rw [fadd_of_finite (isFinite_of_isZero ha) (isFinite_of_isZero hb), faddFinite, intOf_of_isZero ha, intOf_of_isZero hb,
      add_zero, if_pos rfl]

end Sys2Proof.Machine

/-! PROOFS. O32, O34, O35 and O36: what one stage evaluation leaves in each delay entry; the cascade, taken from its last stage;
and that stages, cascades and filtering carry equality up to which NaN from slot and input to slot and output. -/

namespace Sys2Proof.Machine

variable {F : Fmt} {v w : Slot F} {x y : Value F}

/-! ### One stage (spec/41_apply.md R139, R140) -/

theorem delayAt_of_lt (v : Slot F) {i : Nat} (hi : i < 32) : v.delayAt i = v.delay[i] := by
  simp [Slot.delayAt, Vector.getD, hi]

theorem stage_output (d s : Nat) (v : Slot F) (x : Value F) :
    (stage F d s v x).2 = fadd F (d + 1) (fmul F d (v.coefAt (5 * s)) x) (v.delayAt (2 * s)) := rfl

theorem stage_delayAt_d1 (d : Nat) {s : Nat} (hs : s < 16) (v : Slot F) (x : Value F) :
    (stage F d s v x).1.delayAt (2 * s) =
      fadd F (d + 5) (fadd F (d + 4) (fmul F (d + 2) (v.coefAt (5 * s + 1)) x)
        (fmul F (d + 3) (v.coefAt (5 * s + 3)) (stage F d s v x).2)) (v.delayAt (2 * s + 1)) := by
  rw [delayAt_of_lt _ (by omega : 2 * s < 32)]
  simp [stage]

theorem stage_delayAt_d2 (d : Nat) {s : Nat} (hs : s < 16) (v : Slot F) (x : Value F) :
    (stage F d s v x).1.delayAt (2 * s + 1) =
      fadd F (d + 8) (fmul F (d + 6) (v.coefAt (5 * s + 2)) x)
        (fmul F (d + 7) (v.coefAt (5 * s + 4)) (stage F d s v x).2) := by
  rw [delayAt_of_lt _ (by omega : 2 * s + 1 < 32)]
  simp [stage]

theorem stage_delayAt_other (d : Nat) {s j : Nat} (h1 : j ≠ 2 * s) (h2 : j ≠ 2 * s + 1) (v : Slot F) (x : Value F) :
    (stage F d s v x).1.delayAt j = v.delayAt j := by
  simp [stage, Slot.delayAt, Vector.getD, h1.symm, h2.symm]

/-- Settles O35: the nine operations take the draws from `d` on. -/
theorem stageRecursion : Obligations.StageRecursion := fun _ d _ v x hs =>
  ⟨d, d + 1, d + 2, d + 3, d + 4, d + 5, d + 6, d + 7, d + 8, stage_output d _ v x, stage_delayAt_d1 d hs v x,
    stage_delayAt_d2 d hs v x, fun _ h1 h2 => stage_delayAt_other d h1 h2 v x, rfl, rfl⟩

/-! ### The cascade from its last stage (spec/41_apply.md R141) -/

theorem stagesFrom_succ_last (k d s : Nat) (v : Slot F) (x : Value F) :
    stagesFrom F (k + 1) d s v x =
      stage F (d + k * stageOps) (s + k) (stagesFrom F k d s v x).1 (stagesFrom F k d s v x).2 := by
  induction k generalizing d s v x with
  | zero => simp [stagesFrom]
  | succ k ih =>
    have hlast := ih (d + stageOps) (s + 1) (stage F d s v x).1 (stage F d s v x).2
    rwa [add_assoc d, add_comm stageOps, ← Nat.succ_mul, add_assoc s, add_comm 1 k] at hlast

/-- Settles O36: the stages are counted from the first and taken from the last. -/
theorem cascadeChainsStages : Obligations.CascadeChainsStages := fun _ d v x =>
  ⟨rfl, fun k => ⟨d + k * stageOps, by rw [stagesFrom_succ_last, Nat.zero_add]⟩, rfl⟩

/-! ### A NaN in a live `d1` (spec/41_apply.md R143) -/

theorem isNaN_fadd_of_left (h : isNaN x = true) (d : Nat) (y : Value F) : isNaN (fadd F d x y) = true := by
  simp [addInvalid, h]

theorem isNaN_fadd_of_right (h : isNaN y = true) (d : Nat) (x : Value F) : isNaN (fadd F d x y) = true := by
  simp [addInvalid, h]

theorem isNaN_fmul_of_right (h : isNaN y = true) (d : Nat) (x : Value F) : isNaN (fmul F d x y) = true := by
  simp [mulInvalid, h]

theorem isNaN_stage_of_input (h : isNaN x = true) (d s : Nat) (v : Slot F) : isNaN (stage F d s v x).2 = true :=
  isNaN_fadd_of_left (isNaN_fmul_of_right h _ _) _ _

theorem isNaN_stage_of_d1 {s : Nat} (h : isNaN (v.delayAt (2 * s)) = true) (d : Nat) (x : Value F) :
    isNaN (stage F d s v x).2 = true := isNaN_fadd_of_right h _ _

/-- No stage clears a NaN `d1`: its own makes a NaN output and feeds that back, and the others leave it. -/
theorem isNaN_stage_d1 {k : Nat} (hk : k < 16) (h : isNaN (v.delayAt (2 * k)) = true) (d s : Nat) (x : Value F) :
    isNaN ((stage F d s v x).1.delayAt (2 * k)) = true := by
  rcases eq_or_ne s k with rfl | hne
  · rw [stage_delayAt_d1 d hk]
    exact isNaN_fadd_of_left (isNaN_fadd_of_right (isNaN_fmul_of_right (isNaN_stage_of_d1 h d x) _ _) _ _) _ _
  · rwa [stage_delayAt_other d (by omega) (by omega)]

/-- From stage `k` on, every stage's output is a NaN. -/
theorem isNaN_stagesFrom {k : Nat} (hk : k < 16) (h : isNaN (v.delayAt (2 * k)) = true) (m d : Nat) (x : Value F) :
    isNaN ((stagesFrom F m d 0 v x).1.delayAt (2 * k)) = true ∧ (k < m → isNaN (stagesFrom F m d 0 v x).2 = true) := by
  induction m with
  | zero => exact ⟨h, fun hlt => absurd hlt (Nat.not_lt_zero k)⟩
  | succ m ih =>
    obtain ⟨hdelay, hout⟩ := ih
    rw [stagesFrom_succ_last, Nat.zero_add]
    refine ⟨isNaN_stage_d1 hk hdelay _ _ _, fun hlt => ?_⟩
    rcases Nat.lt_or_eq_of_le (Nat.le_of_lt_succ hlt) with hlt | rfl
    · exact isNaN_stage_of_input (hout hlt) _ _ _
    · exact isNaN_stage_of_d1 hdelay _ _

/-- Settles O34: by induction on the samples, each of which meets the NaN in its live stage. -/
theorem nanPersists : Obligations.NanPersists := by
  intro F d k v xs hk hstages hnan
  induction xs generalizing d v with
  | nil => exact ⟨by simp [filterSamples], hnan⟩
  | cons x xs ih =>
    obtain ⟨hdelay, hout⟩ := isNaN_stagesFrom (by omega) hnan v.numStages d x
    obtain ⟨houts, hlast⟩ := ih (d + stageOps * v.numStages) (cascade F d v x).1 (by simpa using hk)
      (by simpa using hstages) hdelay
    exact ⟨List.forall_mem_cons.2 ⟨hout hk, houts⟩, hlast⟩

/-! ### Equality up to which NaN (spec/41_apply.md R134, R146, R150) -/

theorem sameValue.refl (x : Value F) : sameValue x x := .inl rfl

theorem sameSlot.refl (v : Slot F) : sameSlot v v := ⟨rfl, rfl, fun _ _ => .refl _⟩

variable {x' y' : Value F}

theorem sameValue_fmul (hx : sameValue x x') (hy : sameValue y y') (d d' : Nat) : sameValue (fmul F d x y) (fmul F d' x' y') := by
  rcases hx with rfl | ⟨hx, hx'⟩
  · rcases hy with rfl | ⟨hy, hy'⟩
    · exact sameValue_fmul_draw d d' x y
    · exact .inr ⟨isNaN_fmul_of_right hy _ _, isNaN_fmul_of_right hy' _ _⟩
  · exact .inr (by simp [mulInvalid, hx, hx'])

theorem sameValue_fadd (hx : sameValue x x') (hy : sameValue y y') (d d' : Nat) : sameValue (fadd F d x y) (fadd F d' x' y') := by
  rcases hx with rfl | ⟨hx, hx'⟩
  · rcases hy with rfl | ⟨hy, hy'⟩
    · exact sameValue_fadd_draw d d' x y
    · exact .inr ⟨isNaN_fadd_of_right hy _ _, isNaN_fadd_of_right hy' _ _⟩
  · exact .inr ⟨isNaN_fadd_of_left hx _ _, isNaN_fadd_of_left hx' _ _⟩

theorem sameSlot.delayAt (h : sameSlot v w) (i : Nat) : sameValue (v.delayAt i) (w.delayAt i) := by
  obtain ⟨-, -, hdelay⟩ := h
  by_cases hi : i < 32
  · exact hdelay i hi
  · exact .inl (by simp [Slot.delayAt, Vector.getD, hi])

theorem sameSlot.coefAt (h : sameSlot v w) (i : Nat) : v.coefAt i = w.coefAt i := by
  obtain ⟨-, hcoef, -⟩ := h
  rw [Slot.coefAt, hcoef, Slot.coefAt]

theorem sameSlot.stage (h : sameSlot v w) (hx : sameValue x y) (d d' s : Nat) :
    sameSlot (stage F d s v x).1 (stage F d' s w y).1 ∧ sameValue (stage F d s v x).2 (stage F d' s w y).2 := by
  have hmul {x y : Value F} (hx : sameValue x y) (i d d' : Nat) :
      sameValue (fmul F d (v.coefAt i) x) (fmul F d' (w.coefAt i) y) := sameValue_fmul (.inl (h.coefAt i)) hx d d'
  have hout : sameValue (Machine.stage F d s v x).2 (Machine.stage F d' s w y).2 :=
    sameValue_fadd (hmul hx _ _ _) (h.delayAt _) _ _
  obtain ⟨hnum, hcoef, -⟩ := id h
  refine ⟨⟨hnum, hcoef, fun j hj => ?_⟩, hout⟩
  by_cases h1 : j = 2 * s
  · subst h1
    rw [stage_delayAt_d1 d (by omega), stage_delayAt_d1 d' (by omega)]
    exact sameValue_fadd (sameValue_fadd (hmul hx _ _ _) (hmul hout _ _ _) _ _) (h.delayAt _) _ _
  by_cases h2 : j = 2 * s + 1
  · subst h2
    rw [stage_delayAt_d2 d (by omega), stage_delayAt_d2 d' (by omega)]
    exact sameValue_fadd (hmul hx _ _ _) (hmul hout _ _ _) _ _
  · rw [stage_delayAt_other d h1 h2, stage_delayAt_other d' h1 h2]
    exact h.delayAt j

theorem sameSlot.stagesFrom (h : sameSlot v w) (hx : sameValue x y) (k d d' s : Nat) :
    sameSlot (stagesFrom F k d s v x).1 (stagesFrom F k d' s w y).1 ∧
      sameValue (stagesFrom F k d s v x).2 (stagesFrom F k d' s w y).2 := by
  induction k generalizing d d' s v w x y with
  | zero => exact ⟨h, hx⟩
  | succ k ih =>
    obtain ⟨hslot, hout⟩ := h.stage hx d d' s
    exact ih hslot hout _ _ _

theorem sameSlot.cascade (h : sameSlot v w) (hx : sameValue x y) (d d' : Nat) :
    sameSlot (cascade F d v x).1 (cascade F d' w y).1 ∧ sameValue (cascade F d v x).2 (cascade F d' w y).2 := by
  obtain ⟨hnum, -, -⟩ := id h
  rw [Machine.cascade, Machine.cascade, ← hnum]
  exact h.stagesFrom hx _ _ _ _

theorem sameSlot.filterSamples (h : sameSlot v w) (d d' : Nat) (xs : List (Value F)) :
    sameSlot (filterSamples F d v xs).1 (filterSamples F d' w xs).1 ∧
      sameValues (filterSamples F d v xs).2 (filterSamples F d' w xs).2 := by
  induction xs generalizing d d' v w with
  | nil => exact ⟨h, .nil⟩
  | cons x xs ih =>
    obtain ⟨hslot, hout⟩ := h.cascade (.refl x) d d'
    obtain ⟨hslots, houts⟩ := ih hslot _ _
    exact ⟨hslots, .cons hout houts⟩

/-- Filtering `xs ++ ys` is filtering `xs` and then `ys`. -/
theorem filterSamples_append (d : Nat) (v : Slot F) (xs ys : List (Value F)) :
    let r := filterSamples F d v xs
    let r' := filterSamples F (d + stageOps * v.numStages * xs.length) r.1 ys
    filterSamples F d v (xs ++ ys) = (r'.1, r.2 ++ r'.2) := by
  induction xs generalizing d v with
  | nil => rfl
  | cons x xs ih =>
    have hdraws : d + stageOps * v.numStages * (x :: xs).length =
        d + stageOps * v.numStages + stageOps * v.numStages * xs.length := by
      rw [List.length_cons]
      ring
    simp only [List.cons_append, filterSamples, ih, cascade_numStages, hdraws]

/-- Settles O32: filtering the longer sequence begins with filtering the shorter one. -/
theorem outputsAreCausal : Obligations.OutputsAreCausal := by
  intro F d d' v xs ys
  rw [filterSamples_append, List.take_left' (filterSamples_length d v xs)]
  exact ((sameSlot.refl v).filterSamples d d' xs).2

end Sys2Proof.Machine

/-! PROOFS. O23, O24, O26, O30 and O31: an APPLY on an invalid handle discards its payload beat by beat; one whose host stops
accepting runs as far as that (`State.Offering`); and two whole APPLYs compare as their filterings do. -/

namespace Sys2Proof.Machine

variable {F : Fmt} {h : Nat} {s : State} {pay rest : List Beat}

/-! ### The status, then the payload of an invalid handle (spec/41_apply.md R143, R144, spec/60_exceptions.md R177) -/

/-- An APPLY whose host accepts has its status accepted first. -/
theorem exec_applyCmd_status (hr : s.ready = .always) (F : Fmt) (h nsamp : Nat) :
    let b := applyStatus F h nsamp s
    exec (applyCmd F h nsamp) s = .next (settleFor (moveCommand (applyCmd F h nsamp)) (2 * nsamp)
      (((s.beginCommand (encode (applyCmd F h nsamp)) nsamp).offerBeat b).responseTaken b .always)) := by
  intro b
  rw [exec_eq, startCommand_applyCmd, State.beginApply, settle, State.offerBeat_left, State.beginCommand_left,
    settleFor_response _ (moveCommand_applyCmd_respond rfl nsamp) rfl rfl (r := .always) (by simp [hr])]

/-- Settles O24: with no samples the status is all there is. -/
theorem emptyApply : Obligations.EmptyApply := fun F h s hr =>
  ⟨_, exec_applyCmd_status hr F h 0, rfl, rfl, rfl, rfl, congrArg (s.rsp ++ [·]) (applyStatus_eq F h 0 s)⟩

theorem applyConsume_of_invalid (hv : (s.bank F).count ≤ h) (b : Beat) : applyConsume F h b s = s.discardBeat := by
  simp [applyConsume, applyVerdict, State.validHandle, hv]

/-- `s` with its whole payload discarded. -/
def State.discarded (s : State) (rest : List Beat) : State := { s with phase := .header, left := 0, cmd := rest }

/-- A payload offered whole, of an APPLY on an invalid handle, is discarded. -/
theorem settleFor_discards {nsamp : Nat} (hv : (s.bank F).count ≤ h) (hp : s.phase = phaseAfter s.left)
    (hc : s.cmd = pay ++ rest) (hl : s.left = pay.length) {k : Nat} (hk : pay.length ≤ k) :
    settleFor (moveCommand (applyCmd F h nsamp)) k s = s.discarded rest := by
  induction pay generalizing s k with
  | nil =>
    have hhead : s.phase = .header := by rw [hp, hl]; rfl
    rw [settleFor_of_blocked (State.blocked_of_header hhead), State.discarded, ← hhead, show 0 = s.left from hl.symm,
      show rest = s.cmd from hc.symm]
  | cons b pay ih =>
    rw [List.length_cons] at hl hk
    obtain ⟨k, rfl⟩ : ∃ n, k = n + 1 := ⟨k - 1, by omega⟩
    have hpay : s.phase = .payload := by rw [hp, hl]; rfl
    have hb : s.blocked = false := s.not_blocked_iff.2 (.inl ⟨hpay, b, pay ++ rest, hc⟩)
    have hmove : moveCommand (applyCmd F h nsamp) s = s.dropBeat.discardBeat := by
      simp only [moveCommand_applyCmd, State.statusFirst, hpay, hc, List.cons_append]
      exact applyConsume_of_invalid (by simpa using hv) b
    rw [settleFor_succ hb, hmove, ih (by simpa using hv) (by simp) (by simp [hc]) (by simp [hl]) (by omega)]
    rfl

/-- A whole APPLY packet on an invalid handle: its status, and nothing else. -/
theorem exec_applyCmd_invalid (hv : (s.bank F).count ≤ h) (hr : s.ready = .always) (hc : s.cmd = pay ++ rest) :
    exec (applyCmd F h pay.length) s = .next
      (s.completed (encode (applyCmd F h pay.length)) 0 rest [statusBeat .invalidHandle (bankBit F) 0 0 0x2#4]) := by
  have hbegun (w b : Beat) := settleFor_discards (F := F) (h := h) (nsamp := pay.length) (k := 2 * pay.length)
    (s := ((s.beginCommand w pay.length).offerBeat b).responseTaken b .always) (by simpa using hv) rfl hc rfl (by omega)
  rw [exec_applyCmd_status hr, hbegun, applyStatus_eq, if_neg (not_lt.2 hv)]
  simp [State.discarded, State.completed, State.responseTaken, State.offerBeat, State.beginCommand, hr]

/-- Settles O23, by the handle. -/
theorem applyEffect : Obligations.ApplyEffect := by
  rintro F h _ s pay rest hwf hr hc rfl
  dsimp only
  split
  · next hv => exact exec_applyCmd_invalid hv hr hc
  · next hv => exact exec_applyCmd_ok hwf (not_le.1 hv) hr hc

/-! ### Two whole APPLYs (spec/41_apply.md R145, R150) -/

/-- What a whole APPLY on a valid handle leaves of what the next one on that handle reads. -/
theorem exec_applyCmd_filters (hwf : slotsWf (s.bank F).slots = true) (hv : h < (s.bank F).count) (hr : s.ready = .always)
    (hc : s.cmd = pay ++ rest) :
    let r := filterSamples F s.draws (s.slot F h) (pay.map (valueOfBeat F))
    ∃ t, exec (applyCmd F h pay.length) s = .next t ∧
      t.rsp = s.rsp ++ statusBeat .ok (bankBit F) pay.length h 0x2#4 :: r.2.map beatOfValue ∧ t.slot F h = r.1 ∧
      slotsWf (t.bank F).slots = true ∧ h < (t.bank F).count ∧ t.ready = .always ∧ t.cmd = rest := by
  intro r
  have hbank : ({ s.setSlot F h r.1 with draws := s.draws + stageOps * (s.slot F h).numStages * pay.length } : State).bank F =
      { s.bank F with slots := slotWrite (s.bank F).slots h r.1 } := by cases F <;> rfl
  refine ⟨_, exec_applyCmd_ok hwf hv hr hc, ?_, ?_, ?_, ?_, ?_, rfl⟩
  · rw [State.completed_rsp, State.setSlot_rsp]
  · rw [State.completed_slot, State.slot, hbank, slotRead_slotWrite_same hwf]
  · rw [State.completed_bank, hbank, slotsWf_slotWrite hwf]
  · rwa [State.completed_bank, hbank]
  · rw [State.completed_ready, State.setSlot_ready, hr]

/-- Settles O31: equal slots filter equal inputs alike. -/
theorem applyDeterministic : Obligations.ApplyDeterministic := by
  intro F h h' s s' pay rest rest' hwf hwf' hv hv' hr hr' hc hc' hslot
  obtain ⟨t, hexec, hrsp, hout, -⟩ := exec_applyCmd_filters hwf hv hr hc
  obtain ⟨t', hexec', hrsp', hout', -⟩ := exec_applyCmd_filters hwf' hv' hr' hc'
  obtain ⟨hslots, houts⟩ := (sameSlot.refl (s.slot F h)).filterSamples s.draws s'.draws (pay.map (valueOfBeat F))
  refine ⟨t, t', _, _, hexec, hexec', hrsp, hrsp', ?_, ?_⟩
  · rwa [← hslot]
  · rwa [hout, hout', ← hslot]

/-- Settles O30: filtering `xs ++ ys` is filtering `xs` and then `ys`, and the draws do not matter up to which NaN. -/
theorem applyContinues : Obligations.ApplyContinues := by
  intro F h d s xs ys rest hwf hv hr hc
  have hbank : ({ s with draws := d } : State).bank F = s.bank F := by cases F <;> rfl
  have hsame : ({ s with draws := d } : State).slot F h = s.slot F h := congrArg (fun b : Bank F => slotRead b.slots h) hbank
  obtain ⟨t, hexec, hrsp, hout, -⟩ := exec_applyCmd_filters hwf hv hr hc
  obtain ⟨u1, hexec1, hrsp1, hout1, hwf1, hv1, hr1, hc1⟩ := exec_applyCmd_filters (s := { s with draws := d }) (pay := xs)
    (rest := ys ++ rest) (by rwa [hbank]) (by rwa [hbank]) hr (hc.trans (List.append_assoc _ _ _))
  obtain ⟨u2, hexec2, hrsp2, hout2, -⟩ := exec_applyCmd_filters hwf1 hv1 hr1 hc1
  rw [hsame] at hrsp1 hout1
  obtain ⟨hslot1, houts1⟩ := (sameSlot.refl (s.slot F h)).filterSamples s.draws d (xs.map (valueOfBeat F))
  rw [← hout1] at hslot1
  obtain ⟨hslot2, houts2⟩ := hslot1.filterSamples
    (s.draws + stageOps * (s.slot F h).numStages * (xs.map (valueOfBeat F)).length) u1.draws (ys.map (valueOfBeat F))
  rw [List.map_append, filterSamples_append] at hrsp hout
  refine ⟨t, u1, u2, _, _, _, hexec, hexec1, hexec2, hrsp, hrsp1, hrsp2, List.rel_append houts1 houts2, ?_⟩
  rwa [hout, hout2]

/-! ### A host that accepts `k` responses (spec/41_apply.md R146, spec/70_reset_and_hazards.md R206) -/

/-- An APPLY on slot `h` offers the response `b`, with the samples `pay` to come, to a host that accepts `k` responses. -/
structure State.Offering (s : State) (F : Fmt) (h k : Nat) (b : Beat) (pay rest : List Beat) : Prop where
  valid : h < (s.bank F).count
  wf : slotsWf (s.bank F).slots = true
  phase : s.phase = .respond
  offer : s.offer = some b
  ready : s.ready = .atMost k
  left : s.left = pay.length
  cmd : s.cmd = pay ++ rest

/-- The offered response is accepted and the next sample filtered: its output is offered. -/
theorem State.Offering.next {nsamp k : Nat} {b p : Beat} (hs : s.Offering F h (k + 1) b (p :: pay) rest) (fuel : Nat) :
    let r := cascade F s.draws (s.slot F h) (valueOfBeat F p)
    ∃ t, settleFor (moveCommand (applyCmd F h nsamp)) (fuel + 2) s = settleFor (moveCommand (applyCmd F h nsamp)) fuel t ∧
      t.Offering F h k (beatOfValue r.2) pay rest ∧ t.slot F h = r.1 ∧
      t.draws = s.draws + stageOps * (s.slot F h).numStages ∧ t.rsp = s.rsp ++ [b] ∧ t.n = s.n + 1 := by
  intro r
  obtain ⟨hvalid, hwf, hphase, hoffer, hready, hleft, hcmd⟩ := hs
  let u := s.responseTaken b (.atMost k)
  have hp : u.phase = .payload := by rw [State.responseTaken_phase, hleft]; rfl
  have hb : u.blocked = false := u.not_blocked_iff.2 (.inl ⟨hp, p, pay ++ rest, hcmd⟩)
  have hok : applyVerdict F h u.dropBeat = .ok := by simp [applyVerdict, State.validHandle, u, hvalid]
  have hmove : moveCommand (applyCmd F h nsamp) u = applySample F h p u.dropBeat := by
    have hcmd' : u.cmd = p :: (pay ++ rest) := hcmd
    simp only [moveCommand_applyCmd, State.statusFirst, hp, hcmd', applyConsume_of_ok hok]
  refine ⟨applySample F h p u.dropBeat, ?_, ?_, ?_, ?_, ?_, ?_⟩
  · rw [settleFor_response _ (moveCommand_applyCmd_respond hphase nsamp) hphase hoffer (r := .atMost k) (by rw [hready]; rfl),
      settleFor_succ hb, hmove]
  · constructor <;> simp [applySample, u, hvalid, hleft, hcmd, r, slotsWf_slotWrite hwf]
  · simp [applySample, u, r, State.slot, slotRead_slotWrite_same hwf]
  · simp [applySample, u]
  · simp [applySample, u]
  · simp [applySample, u]

/-- The `k` responses are accepted, each but the last followed by a sample, and the next one is offered. -/
theorem State.Offering.settleFor {nsamp k : Nat} {b : Beat} (hs : s.Offering F h k b pay rest) (hk : k ≤ pay.length) {fuel : Nat}
    (hfuel : 2 * k ≤ fuel) :
    let beats := b :: (filterSamples F s.draws (s.slot F h) (pay.map (valueOfBeat F))).2.map beatOfValue
    let t := settleFor (moveCommand (applyCmd F h nsamp)) fuel s
    t.phase = .respond ∧ t.rsp = s.rsp ++ beats.take k ∧ t.offer = beats[k]? ∧ t.cmd = pay.drop k ++ rest ∧
      t.left = pay.length - k ∧ t.n = s.n + k := by
  induction k generalizing s b pay fuel with
  | zero =>
    have hblocked := State.blocked_of_unready hs.phase hs.ready
    simp [settleFor_of_blocked hblocked, hs.phase, hs.offer, hs.cmd, hs.left]
  | succ k ih =>
    cases pay with
    | nil => exact absurd hk (Nat.not_succ_le_zero k)
    | cons p pay =>
      obtain ⟨fuel, rfl⟩ : ∃ n, fuel = n + 2 := ⟨fuel - 2, by omega⟩
      obtain ⟨t, hsettle, ht, hslot, hdraws, hrsp, hn⟩ := hs.next (nsamp := nsamp) fuel
      obtain ⟨hphase, hrsp', hoffer, hcmd, hleft, hn'⟩ := ih ht (Nat.le_of_succ_le_succ hk) (by omega : 2 * k ≤ fuel)
      rw [hslot, hdraws] at hrsp' hoffer
      intro beats
      rw [hsettle]
      refine ⟨hphase, ?_, hoffer, hcmd, ?_, ?_⟩
      · rw [hrsp', hrsp, List.append_assoc]; rfl
      · rw [hleft, List.length_cons, Nat.add_sub_add_right]
      · rw [hn', hn]; omega

/-- Settles O26: from the status on, the block offers one response after another. -/
theorem applyAlternatesBeats : Obligations.ApplyAlternatesBeats := by
  intro F h k s pay rest hwf hv hr hc hk r beats
  have hstart : (startCommand (applyCmd F h pay.length) s).Offering F h k (statusBeat .ok (bankBit F) pay.length h 0x2#4) pay
      rest := by
    rw [startCommand_applyCmd, State.beginApply, applyStatus_eq, if_pos hv]
    constructor <;> simp [hv, hwf, hr, hc]
  have hexec := exec_eq (applyCmd F h pay.length) s
  obtain ⟨hphase, hrsp, hoffer, hcmd, hleft, hn⟩ := hstart.settleFor (nsamp := pay.length) hk
    (show 2 * k ≤ 2 * (startCommand (applyCmd F h pay.length) s).left + 1 by rw [hstart.left]; omega)
  have hbegun : (startCommand (applyCmd F h pay.length) s).draws = s.draws ∧
      (startCommand (applyCmd F h pay.length) s).slot F h = s.slot F h ∧
      (startCommand (applyCmd F h pay.length) s).rsp = s.rsp ∧ (startCommand (applyCmd F h pay.length) s).n = 0 := by
    simp [startCommand_applyCmd, State.beginApply]
  obtain ⟨hdraws, hslot, hrsp0, hn0⟩ := hbegun
  rw [hdraws, hslot, hrsp0] at hrsp
  rw [hdraws, hslot] at hoffer
  rw [hn0, Nat.zero_add] at hn
  refine ⟨_, hexec, hphase, hrsp, hoffer, hcmd, hleft, hn, fun hrst => ?_⟩
  have hinside := step_of_inside ((exec_header hexec).2.trans hrst) (by simp [settle, hphase])
  rw [hinside, resumeCurrent, settle_of_blocked (exec_blocked hexec).2]

end Sys2Proof.Machine

/-! PROOFS. O48 and O54: no move of a rejected packet, illegal or decoded with an error for its verdict, writes what `Unwritten`
names, so neither does a run of such moves. -/

namespace Sys2Proof.Machine

variable {s t : State} {i : Instr}

/-! ### A verdict reads nothing that a rejected packet could write -/

theorem Unwritten.bank (h : Unwritten s t) (F : Fmt) : t.bank F = s.bank F := by
  cases F with
  | f32 => exact h.f32
  | f64 => exact h.f64

theorem Unwritten.verdict_eq (h : Unwritten s t) (i : Instr) : verdict i t = verdict i s :=
  verdict_congr i h.maxFilters fun F => congrArg Bank.count (h.bank F)

theorem Unwritten.offerBeat (h : Unwritten s t) (b : Beat) : Unwritten s (t.offerBeat b) :=
  h.trans ⟨rfl, rfl, rfl, rfl, rfl, rfl⟩

theorem Unwritten.discardBeat (h : Unwritten s t) : Unwritten s t.discardBeat := h.trans ⟨rfl, rfl, rfl, rfl, rfl, rfl⟩

theorem verdict_freshInit (F : Fmt) (rows cols : Nat) (s : State) :
    verdict (freshInit F rows cols) s = initFreshVerdict F rows cols s := by cases F <;> rfl

theorem verdict_reuseInit (F : Fmt) (handle rows cols : Nat) (s : State) :
    verdict (reuseInit F handle rows cols) s = initReuseVerdict F handle rows cols s := by cases F <;> rfl

/-! ### The start, the moves and the run of a rejected command (spec/60_exceptions.md R177) -/

/-- An INIT that begins writes only the sequencer's registers, if its finish does not write. -/
theorem State.beginInit_unwritten {finish : State → State} {w : Beat} {len : Nat}
    (hf : Unwritten (s.beginCommand w len) (finish (s.beginCommand w len))) :
    Unwritten (s.beginCommand w len) (s.beginInit w len finish) := by
  unfold State.beginInit
  split
  · exact hf
  · exact .refl _

theorem Unwritten.initFreshFinish {F : Fmt} {rows cols : Nat} (h : Unwritten s t)
    (hv : verdict (freshInit F rows cols) s ≠ .ok) : Unwritten s (initFreshFinish F rows cols t) := by
  rw [← h.verdict_eq, verdict_freshInit] at hv
  rw [initFreshFinish_of_error rfl hv]
  exact h.offerBeat _

theorem Unwritten.initReuseFinish {F : Fmt} {handle rows cols : Nat} (h : Unwritten s t)
    (hv : verdict (reuseInit F handle rows cols) s ≠ .ok) : Unwritten s (initReuseFinish F handle rows cols t) := by
  rw [← h.verdict_eq, verdict_reuseInit] at hv
  rw [initReuseFinish_of_error rfl hv]
  exact h.offerBeat _

theorem Unwritten.applyConsume {F : Fmt} {handle nsamp : Nat} (h : Unwritten s t)
    (hv : verdict (applyCmd F handle nsamp) s ≠ .ok) (b : Beat) : Unwritten s (applyConsume F handle b t) := by
  rw [← h.verdict_eq, verdict_applyCmd] at hv
  have hinvalid : (t.bank F).count ≤ handle := by simpa [applyVerdict, State.validHandle] using hv
  rw [applyConsume_of_invalid hinvalid]
  exact h.discardBeat

theorem verdict_beginCommand (i : Instr) (s : State) (w : Beat) (len : Nat) : verdict i (s.beginCommand w len) = verdict i s :=
  verdict_congr i rfl fun F => by rw [State.beginCommand_bank]

theorem startCommand_unwritten (hv : verdict i s ≠ .ok) : ∃ w len, Unwritten (s.beginCommand w len) (startCommand i s) := by
  have hbegun (w : Beat) (len : Nat) : verdict i (s.beginCommand w len) ≠ .ok := by rwa [verdict_beginCommand]
  induction i using command_cases with
  | fresh F rows cols =>
    rw [startCommand_freshInit]
    exact ⟨_, _, State.beginInit_unwritten ((Unwritten.refl _).initFreshFinish (hbegun _ _))⟩
  | reuse F handle rows cols =>
    rw [startCommand_reuseInit]
    exact ⟨_, _, State.beginInit_unwritten ((Unwritten.refl _).initReuseFinish (hbegun _ _))⟩
  | apply F handle nsamp =>
    rw [startCommand_applyCmd]
    exact ⟨_, _, (Unwritten.refl _).offerBeat _⟩

theorem moveCommand_unwritten (hv : verdict i s ≠ .ok) : Unwritten s (moveCommand i s) := by
  induction i using command_cases with
  | fresh F rows cols =>
    rw [moveCommand_freshInit]
    exact State.payloadFirst_unwritten fun _ h => h.initFreshFinish hv
  | reuse F handle rows cols =>
    rw [moveCommand_reuseInit]
    exact State.payloadFirst_unwritten fun _ h => h.initReuseFinish hv
  | apply F handle nsamp =>
    rw [moveCommand_applyCmd]
    exact State.statusFirst_unwritten fun b _ h => h.applyConsume hv b

/-- Settles O48: the verdict stays an error, so no move writes. -/
theorem rejectedCommandWritesNothing : Obligations.RejectedCommandWritesNothing := by
  intro i s t hv hex
  obtain ⟨w, len, hstart⟩ := startCommand_unwritten hv
  have ht : Unwritten (s.beginCommand w len) t := exec_induct hstart
    (fun u hu _ => hu.trans (moveCommand_unwritten (by rwa [hu.verdict_eq, verdict_beginCommand]))) hex
  exact ⟨ht.f32, ht.f64, ht.draws, ht.maxFilters⟩

/-! ### The packet of HDR, when it is rejected -/

/-- The packet whose header HDR holds is answered with an error: no command, or one whose verdict is an error. -/
def State.Rejecting (s : State) : Prop := ∀ i, decode s.hdr = .ok i → verdict i s ≠ .ok

theorem State.rejecting_of_illegal {e : Reject} (hd : decode s.hdr = .error e) : s.Rejecting :=
  fun i hi => by rw [hd] at hi; cases hi

theorem State.rejecting_of_verdict (hd : decode s.hdr = .ok i) (hv : verdict i s ≠ .ok) : s.Rejecting :=
  fun j hj => by rw [hd] at hj; cases hj; exact hv

theorem State.Rejecting.of_unwritten (hs : s.Rejecting) (h : Unwritten s t) : t.Rejecting :=
  fun i hi => by rw [h.verdict_eq]; exact hs i (by rwa [← h.hdr])

theorem State.Rejecting.moveCurrent_unwritten (hs : s.Rejecting) : Unwritten s (moveCurrent s) := by
  unfold moveCurrent
  split
  · next i hd => exact moveCommand_unwritten (hs i hd)
  · exact moveIllegal_unwritten s.hdr s

theorem State.Rejecting.resumeCurrent_unwritten (hs : s.Rejecting) : Unwritten s (resumeCurrent s) :=
  settle_induct (P := Unwritten s) (fun _ hu _ => hu.trans (hs.of_unwritten hu).moveCurrent_unwritten) s (.refl s)

theorem startIllegal_unwritten (w : Beat) (s : State) : Unwritten (s.beginCommand w (payloadLen w)) (startIllegal w s) := by
  unfold startIllegal
  split
  · exact (Unwritten.refl _).offerBeat _
  · exact .refl _

/-- A step inside a rejected packet writes nothing. -/
theorem State.Rejecting.step_unwritten (hs : s.Rejecting) (hr : s.rst = false) (hp : s.phase ≠ .header)
    (hstep : step s = .next t) : Unwritten s t := by
  obtain rfl : resumeCurrent s = t := by simpa [step_of_inside hr hp] using hstep
  exact hs.resumeCurrent_unwritten

/-- A step that accepts an illegal header writes the sequencer's registers and the streams. -/
theorem step_illegal_unwritten {w : Beat} {rest : List Beat} {e : Reject} (hr : s.rst = false) (hp : s.phase = .header)
    (hc : s.cmd = w :: rest) (hd : decode w = .error e) (hstep : step s = .next t) :
    Unwritten (s.beginCommand w (payloadLen w)) t := by
  obtain rfl : settle (moveIllegal w) (startIllegal w { s with cmd := rest }) = t := by
    simpa [step_illegal hr hp hc hd] using hstep
  have ht : Unwritten (State.beginCommand { s with cmd := rest } w (payloadLen w))
      (settle (moveIllegal w) (startIllegal w { s with cmd := rest })) :=
    settle_induct (fun u hu _ => hu.trans (moveIllegal_unwritten w u)) _ (startIllegal_unwritten w _)
  exact ⟨ht.f32, ht.f64, ht.draws, ht.maxFilters, ht.hdr, ht.rst⟩

/-- Settles O54: an illegal header begins a rejected packet, and the other two steps go on with one. -/
theorem rejectedPacketWritesNothing : Obligations.RejectedPacketWritesNothing := by
  rintro s t hr hstep (⟨w, rest, e, hp, hc, hd⟩ | ⟨hp, e, hd⟩ | ⟨hp, i, hd, hv⟩)
  · have ht := step_illegal_unwritten hr hp hc hd hstep
    exact ⟨ht.f32, ht.f64, ht.draws, ht.maxFilters⟩
  · have ht := (State.rejecting_of_illegal hd).step_unwritten hr hp hstep
    exact ⟨ht.f32, ht.f64, ht.draws, ht.maxFilters⟩
  · have ht := (State.rejecting_of_verdict hd hv).step_unwritten hr hp hstep
    exact ⟨ht.f32, ht.f64, ht.draws, ht.maxFilters⟩

end Sys2Proof.Machine

/-! PROOFS. O13 and O14: an illegal packet with OP `0x2` moves as an APPLY on an invalid handle, any other as a rejected INIT;
and a command that begins reads nothing of the sequencer's registers. -/

namespace Sys2Proof.Machine

variable {s : State} {w : Beat} {pay rest : List Beat}

/-! ### A whole illegal packet -/

/-- An APPLY on an invalid handle and an illegal packet with OP `0x2` both discard what the payload brings. -/
theorem moveCommand_applyCmd_eq_moveIllegal {F : Fmt} {h : Nat} (hop : opField w = 0x2#4) (hv : (s.bank F).count ≤ h)
    (nsamp : Nat) : moveCommand (applyCmd F h nsamp) s = moveIllegal w s := by
  have hconsume (b : Beat) : applyConsume F h b s.dropBeat = s.dropBeat.discardBeat :=
    applyConsume_of_invalid (by simpa using hv) b
  simp only [moveIllegal, if_pos hop, moveCommand_applyCmd, State.statusFirst, hconsume]

/-- A payload offered whole, of an illegal packet whose status came first, is discarded. -/
theorem settleFor_illegal_discards (hop : opField w = 0x2#4) (hp : s.phase = phaseAfter s.left) (hc : s.cmd = pay ++ rest)
    (hl : s.left = pay.length) {k : Nat} (hk : pay.length ≤ k) : settleFor (moveIllegal w) k s = s.discarded rest := by
  have hsame : settleFor (moveCommand (applyCmd .f32 s.f32.count pay.length)) k s = settleFor (moveIllegal w) k s :=
    settleFor_congr (P := fun u => (u.bank .f32).count ≤ s.f32.count)
      (fun u hu => by rwa [(moveIllegal_unwritten w u).bank]) (fun u hu => moveCommand_applyCmd_eq_moveIllegal hop hu _) k le_rfl
  rw [← hsame]
  exact settleFor_discards (F := .f32) le_rfl hp hc hl hk

/-- A whole illegal packet: its status, and nothing else (spec/60_exceptions.md R172, R177). -/
theorem settle_illegal_whole (hr : s.ready = .always) (hc : s.cmd = pay ++ rest) (hl : pay.length = payloadLen w) :
    settle (moveIllegal w) (startIllegal w s) = s.completed w 0 rest [illegalStatus w] := by
  by_cases hop : opField w = 0x2#4
  · let t := (s.beginCommand w (payloadLen w)).offerBeat (illegalStatus w)
    have hresp : moveIllegal w t = t.acceptResponse := by
      simp only [t, moveIllegal, if_pos hop, State.statusFirst, State.offerBeat_phase]
    have hdiscard := settleFor_illegal_discards (s := t.responseTaken (illegalStatus w) .always) hop rfl hc hl.symm
      (k := 2 * payloadLen w) (by omega)
    have hready : t.ready.accept = some .always := by simp [t, hr]
    rw [startIllegal_offer hop, settle, settleFor_response _ hresp rfl rfl hready, State.offerBeat_left,
      State.beginCommand_left, hdiscard]
    simp [t, State.discarded, State.completed, State.responseTaken, State.offerBeat, State.beginCommand, hr]
  · exact (illegal_statusLast hop).settle_rejected hr hc hl rfl rfl

/-- Settles O13: the step that accepts an illegal header runs the whole packet. -/
theorem illegalPacketRejected : Obligations.IllegalPacketRejected := by
  intro s w pay rest e hrst hp hr hc hd hl
  rw [step_illegal hrst hp hc hd, settle_illegal_whole (s := { s with cmd := pay ++ rest }) hr rfl hl]
  rfl

/-! ### A command that begins sets every register of the sequencer (spec/10_state.md R29) -/

theorem startCommand_beginCommand (i : Instr) (s : State) (w : Beat) (len : Nat) :
    startCommand i (s.beginCommand w len) = startCommand i s := by
  induction i using command_cases with
  | fresh F rows cols => rw [startCommand_freshInit, startCommand_freshInit]; rfl
  | reuse F handle rows cols => rw [startCommand_reuseInit, startCommand_reuseInit]; rfl
  | apply F handle nsamp =>
    have hstatus : applyStatus F handle nsamp (s.beginCommand w len) = applyStatus F handle nsamp s := by
      rw [applyStatus_eq, applyStatus_eq, State.beginCommand_bank]
    rw [startCommand_applyCmd, startCommand_applyCmd, State.beginApply, hstatus]
    rfl

theorem exec_beginCommand (i : Instr) (s : State) (w : Beat) (len : Nat) : exec i (s.beginCommand w len) = exec i s := by
  rw [exec_eq, exec_eq, startCommand_beginCommand]

/-- Settles O14: the illegal packet leaves its mark in the sequencer's registers alone, and the next command sets them. -/
theorem nextCommandUnaffected : Obligations.NextCommandUnaffected := by
  intro s t w w' pay rest e i hrst hp hr hc hd hl hd' hstep
  let out := [statusBeat .illegalCommand (pField w) 0 0 (opField w)]
  obtain rfl : s.completed w 0 (w' :: rest) out = t := by
    simpa [illegalPacketRejected s w pay (w' :: rest) e hrst hp hr hc hd hl] using hstep
  calc step (s.completed w 0 (w' :: rest) out)
      = exec i { s.completed w 0 (w' :: rest) out with cmd := rest } := step_of_header_phase hrst rfl rfl hd'
    _ = exec i (State.beginCommand { s with cmd := rest, rsp := s.rsp ++ out } w 0) := by
      rw [← exec_beginCommand i _ w 0]; rfl
    _ = exec i { s with cmd := rest, rsp := s.rsp ++ out } := exec_beginCommand i _ w 0

end Sys2Proof.Machine

/-! PROOFS. O5: the decoder's rows, taken together by OP, and their negation. -/

namespace Sys2Proof

variable {w : Beat}

theorem handleField_eq_zero_iff (w : Beat) : handleField w = 0 ↔ w.extractLsb' 32 16 = 0#16 :=
  (BitVec.toNat_inj (y := 0#16))

/-- When one row of the decode table is left, a header is rejected unless it hits that row. -/
theorem row_error_iff (hit : Prop) [Decidable hit] (i : Instr) (r : Reject) :
    (∃ e, (if hit then .ok i else .error r : Except Reject Instr) = .error e) ↔ ¬hit := by
  by_cases h : hit <;> simp [h]

/-- A header with OP `0x1` is a fresh INIT's or an INIT.R's, in either bank (spec/30_encoding.md R76, R78). -/
theorem decode_error_iff_of_init (hop : opField w = 0x1#4) : (∃ e, decode w = .error e) ↔
    ¬(z0Field w = 0#2 ∧ z1Field w = 0#8 ∧ (ruField w = 0#1 → handleField w = 0) ∧ z2Field w = 0#16) := by
  rw [handleField_eq_zero_iff, decode_eq]
  rcases BitVec.eq_zero_or_eq_one (ruField w) with hru | hru
  · rcases BitVec.eq_zero_or_eq_one (pField w) with hp | hp <;> simp [hop, hru, hp, row_error_iff]
  · rcases BitVec.eq_zero_or_eq_one (pField w) with hp | hp <;> simp [hop, hru, hp, row_error_iff]

/-- A header with OP `0x2` is an APPLY's, in either bank (spec/30_encoding.md R76, R78). -/
theorem decode_error_iff_of_apply (hop : opField w = 0x2#4) : (∃ e, decode w = .error e) ↔
    ¬(ruField w = 0#1 ∧ z0Field w = 0#2 ∧ z2Field w = 0#16) := by
  rw [decode_eq]
  rcases BitVec.eq_zero_or_eq_one (pField w) with hp | hp <;> simp [hop, hp, row_error_iff]

theorem decode_error_of_op (h1 : opField w ≠ 0x1#4) (h2 : opField w ≠ 0x2#4) : ∃ e, decode w = .error e :=
  ⟨rejectReason w, by simp [decode_eq, h1, h2]⟩

/-- Settles O5, by OP. -/
theorem illegalHeadersExactly : Obligations.IllegalHeadersExactly := by
  intro w
  by_cases h1 : opField w = 0x1#4
  · have h2 : opField w ≠ 0x2#4 := by simp [h1]
    rw [decode_error_iff_of_init h1]
    tauto
  · by_cases h2 : opField w = 0x2#4
    · rw [decode_error_iff_of_apply h2]
      tauto
    · exact iff_of_true (decode_error_of_op h1 h2) (.inl ⟨h1, h2⟩)

end Sys2Proof

/-! PROOFS. O10, O11, O12 and O44: a reset edge leaves what reset does (`State.resetOf`), and the reset state is its own reset
edge. -/

namespace Sys2Proof.Machine

variable {F : Fmt} {s : State}

/-! ### The registers that reset leaves (spec/70_reset_and_hazards.md R200) -/

@[simp] theorem State.resetOf_bank (m : Nat) (F : Fmt) : (State.resetOf m).bank F = Bank.zero F := by cases F <;> rfl

@[simp] theorem State.resetEdge_bank (s : State) (F : Fmt) : s.resetEdge.bank F = Bank.zero F := by cases F <;> rfl

/-- A bank at reset lists no slot, and one not listed reads as the reset slot. -/
theorem State.slot_of_bank_zero (hb : s.bank F = Bank.zero F) (h : Nat) : s.slot F h = Slot.zero F := by
  rw [State.slot, hb]
  rfl

theorem coefAt_slotZero (F : Fmt) (i : Nat) : (Slot.zero F).coefAt i = 0#F.width := by
  by_cases hi : i < 80 <;> simp [Slot.coefAt, Slot.zero, Vector.getD, hi]

/-- At reset nothing is left that a reset edge would change. -/
theorem State.resetEdge_resetOf (m : Nat) : (State.resetOf m).resetEdge = State.resetOf m := rfl

theorem State.resetOf_registered {m : Nat} (hpos : 1 ≤ m) (hle : m ≤ 65536) : (State.resetOf m).Registered :=
  ⟨hpos, hle, .zero .f32 m, .zero .f64 m⟩

theorem State.resetOf_inv {m : Nat} (hpos : 1 ≤ m) (hle : m ≤ 65536) : (State.resetOf m).Inv := by
  rw [← State.resetEdge_resetOf]
  exact (State.resetOf_registered hpos hle).resetEdge

/-- The implementation's capacity is in the range of spec/00_scope.md R4. -/
theorem maxFilters_range : 1 ≤ Config.maxFilters ∧ Config.maxFilters ≤ 65536 :=
  ⟨Nat.le_add_left 1 _, Config.maxFiltersPred.isLt⟩

/-! ### O12, O10, O11 and O44 -/

/-- Settles O12: with `rst` high the step is the reset edge, whatever the phase. -/
theorem resetEdgeAbandonsCommand : Obligations.ResetEdgeAbandonsCommand := by
  intro s hr
  have hready : s.cmdReady = false := by simp [State.cmdReady, hr]
  have hvalid : s.rspValid = false := by simp [State.rspValid, hr]
  refine ⟨hready, hvalid, s.resetEdge, step_of_reset hr, fun F => ⟨?_, fun h => ?_⟩, rfl, rfl, rfl, rfl, rfl, rfl, rfl, rfl,
    rfl, rfl⟩
  · rw [State.resetEdge_bank, Bank.zero]
  · exact State.slot_of_bank_zero (s.resetEdge_bank F) h

/-- Settles O10: at reset the block is between commands, and the host offers no header. -/
theorem resetWaitsForHeader : Obligations.ResetWaitsForHeader :=
  ⟨step_of_no_header rfl rfl rfl, rfl, rfl⟩

/-- Settles O11: both banks are zero, so every slot is the zero slot. -/
theorem resetValues : Obligations.ResetValues := by
  intro F
  have hbank : State.reset.bank F = Bank.zero F := State.resetOf_bank Config.maxFilters F
  refine ⟨by rw [hbank, Bank.zero], fun h => ?_, rfl, rfl, rfl⟩
  rw [State.slot_of_bank_zero hbank h]
  exact ⟨rfl, coefAt_slotZero F, delayAt_of_cleared rfl⟩

/-- Settles O44: the invariant is what a reset edge leaves. -/
theorem resetHasInvariant : Obligations.ResetHasInvariant :=
  ⟨State.resetOf_inv maxFilters_range.1 maxFilters_range.2, fun _ => State.resetOf_inv⟩

end Sys2Proof.Machine

/-! PROOFS. O28, O50 and O52: every step ends blocked, and a packet that lacks payload beats (`State.Short`), to a host that accepts,
is blocked nowhere but where it awaits them. -/

namespace Sys2Proof.Machine

variable {F : Fmt} {s : State} {missing : Nat}

/-! ### Every step ends blocked (spec/70_reset_and_hazards.md R211) -/

/-- Every move of the packet under way is a good move. -/
theorem moveCurrent_good (ht : s.Tidy) (hb : s.blocked = false) : GoodMove s (moveCurrent s) := by
  unfold moveCurrent
  split
  · next i _ => exact moveCommand_good i ht hb
  · exact moveIllegal_good s.hdr ht hb

/-- The first state of every packet keeps the phases. -/
theorem startHeader_tidy (w : Beat) (s : State) : (startHeader w s).Tidy := by
  unfold startHeader
  split
  · next i _ => exact startCommand_tidy i s
  · exact startIllegal_tidy w s

/-- A packet that goes on ends complete or waiting for the host. -/
theorem resumeCurrent_blocked (ht : s.Tidy) : (resumeCurrent s).blocked = true :=
  settle_blocked (P := State.Tidy) (fun _ h => h)
    (fun _ hu hb => ⟨(moveCurrent_good hu hb).tidy, (moveCurrent_good hu hb).transfers_lt⟩) ht

/-- Inside a packet, a step of a blocked block changes nothing. -/
theorem step_of_blocked (hr : s.rst = false) (hp : s.phase ≠ .header) (hb : s.blocked = true) : step s = .next s := by
  rw [step_of_inside hr hp, resumeCurrent, settle_of_blocked hb]

/-- Settles O50, by what the step begins with: a reset edge, a wait, a header, or the packet under way. -/
theorem stepStopsOnlyForHost : Obligations.StepStopsOnlyForHost := by
  intro s hs
  obtain ⟨-, htidy, -⟩ := s.inv_iff.1 hs
  cases hr : s.rst with
  | true => exact ⟨_, step_of_reset hr, State.blocked_of_header rfl⟩
  | false =>
    by_cases hp : s.phase = .header
    · cases hc : s.cmd with
      | nil => exact ⟨_, step_of_no_header hr hp hc, State.blocked_of_header hp⟩
      | cons w rest => exact ⟨_, step_of_header hr hp hc, resumeCurrent_blocked (startHeader_tidy w _)⟩
    · exact ⟨_, step_of_inside hr hp, resumeCurrent_blocked htidy⟩

/-! ### A payload too short (spec/70_reset_and_hazards.md R207) -/

/-- To a host that accepts, the packet wants `missing` payload beats more than the host offers. -/
structure State.Short (s : State) (missing : Nat) : Prop where
  ready : s.ready = .always
  left : s.left = s.cmd.length + missing

theorem State.Short.beginOffer {len : Nat} (hr : s.ready = .always) (hshort : s.cmd.length < len) (w b : Beat) :
    ((s.beginCommand w len).offerBeat b).Short (len - s.cmd.length) :=
  ⟨hr, (Nat.add_sub_cancel' hshort.le).symm⟩

theorem State.Short.acceptResponse (hs : s.Short missing) : s.acceptResponse.Short missing := by
  rcases s.acceptResponse_cases with ⟨b, r, -, hr, he⟩ | ⟨-, he⟩ <;> rw [he]
  · rw [hs.ready, Ready.accept_always, Option.some.injEq] at hr
    exact ⟨hr.symm, hs.left⟩
  · exact hs

/-- A payload beat consumed is one less to come and one less offered. -/
theorem State.Short.dropBeat {b : Beat} {rest : List Beat} (hs : s.Short missing) (hc : s.cmd = b :: rest) :
    s.dropBeat.Short missing := by
  have hl := hs.left
  rw [hc, List.length_cons] at hl
  refine ⟨hs.ready, ?_⟩
  rw [State.dropBeat_left, State.dropBeat_cmd, hc, List.tail_cons]
  omega

theorem State.Short.statusFirst {consume : Beat → State → State} (hs : s.Short missing) (hb : s.blocked = false)
    (hcons : ∀ b (t : State), t.Short missing → (consume b t).Short missing) : (s.statusFirst consume).Short missing := by
  rcases s.not_blocked_iff.1 hb with ⟨hp, b, rest, hc⟩ | ⟨hp, -⟩
  · simp only [State.statusFirst, hp, hc]
    exact hcons b _ (hs.dropBeat hc)
  · simp only [State.statusFirst, hp]
    exact hs.acceptResponse

/-- What lacks payload beats at its start, with its status offered, lacks them all along. -/
theorem State.Short.settle {move : State → State} {consume : Beat → State → State} (hs : s.Short missing)
    (hmove : ∀ u, move u = u.statusFirst consume) (hcons : ∀ b (t : State), t.Short missing → (consume b t).Short missing) :
    (settle move s).Short missing := by
  refine settle_induct (P := fun u => u.Short missing) (fun u hu hb => ?_) s hs
  rw [hmove]
  exact hu.statusFirst hb hcons

theorem State.Short.discardBeat (hs : s.Short missing) : s.discardBeat.Short missing := ⟨hs.ready, hs.left⟩

theorem State.Short.applyConsume (hs : s.Short missing) (handle : Nat) (b : Beat) :
    (applyConsume F handle b s).Short missing := by
  unfold Machine.applyConsume
  split
  · constructor <;> simp [applySample, hs.ready, hs.left]
  · exact hs.discardBeat

/-- The block awaits `missing` payload beats, and neither side offers any beat. -/
structure State.Awaiting (s : State) (missing : Nat) : Prop where
  phase : s.phase = .payload
  cmd : s.cmd = []
  offer : s.offer = none
  left : s.left = missing

theorem State.Awaiting.step (hs : s.Awaiting missing) (hr : s.rst = false) : step s = .next s :=
  step_of_blocked hr (by simp [hs.phase]) (by simp [State.blocked, hs.phase, hs.cmd])

theorem State.Starved.awaiting {out : List Beat} (hs : s.Starved missing out) (hc : s.cmd = []) : s.Awaiting missing :=
  ⟨hs.phase, hc, hs.offer, by rw [hs.left, hc, List.length_nil, Nat.zero_add]⟩

/-- Blocked, a packet that lacks payload beats has consumed all there were. -/
theorem State.Short.awaiting (hs : s.Short missing) (hpos : 0 < missing) (ht : s.Tidy) (hb : s.blocked = true) :
    s.Awaiting missing := by
  have hl := hs.left
  have hp : s.phase = .payload := by
    cases hp : s.phase with
    | header => have := (ht.header hp).1; omega
    | payload => rfl
    | respond =>
      have hnone : s.offer = none := by simpa [State.blocked, hp, hs.ready] using hb
      have hsome := ht.respond hp
      rw [hnone] at hsome
      cases hsome
  have hc : s.cmd = [] := by simpa [State.blocked, hp] using hb
  exact ⟨hp, hc, (ht.payload hp).2, by rw [hl, hc, List.length_nil, Nat.zero_add]⟩

/-- A decoded command that lacks payload beats, run: its status last it has sent nothing (`StatusLast`), its status first it is
`State.Short` all along. -/
theorem settle_command_short {i : Instr} (hr : s.ready = .always) (hshort : s.cmd.length < i.payloadBeats) :
    (settle (moveCommand i) (startCommand i s)).Awaiting (i.payloadBeats - s.cmd.length) := by
  have hpos : 0 < i.payloadBeats - s.cmd.length := Nat.sub_pos_of_lt hshort
  obtain ⟨htidy, hblocked⟩ := exec_blocked (exec_eq i s)
  induction i using command_cases with
  | fresh F rows cols =>
    obtain ⟨hc, hstarved⟩ := (freshInit_statusLast F rows cols).settle_short hshort
    exact hstarved.awaiting hc
  | reuse F handle rows cols =>
    obtain ⟨hc, hstarved⟩ := (reuseInit_statusLast F handle rows cols).settle_short hshort
    exact hstarved.awaiting hc
  | apply F handle nsamp =>
    have hlen : (applyCmd F handle nsamp).payloadBeats = nsamp := by cases F <;> rfl
    rw [hlen] at hshort hpos ⊢
    have hstart : (startCommand (applyCmd F handle nsamp) s).Short (nsamp - s.cmd.length) := by
      rw [startCommand_applyCmd]
      exact .beginOffer hr hshort _ _
    have hrun := hstart.settle (moveCommand_applyCmd F handle nsamp) fun b _ ht => ht.applyConsume handle b
    exact hrun.awaiting hpos htidy hblocked

/-- The same of an illegal packet. -/
theorem settle_illegal_short {w : Beat} (hr : s.ready = .always) (hshort : s.cmd.length < payloadLen w) :
    (settle (moveIllegal w) (startIllegal w s)).Awaiting (payloadLen w - s.cmd.length) := by
  by_cases hop : opField w = 0x2#4
  · obtain ⟨htidy, hblocked⟩ := settle_illegal_blocked w s
    have hstart : (startIllegal w s).Short (payloadLen w - s.cmd.length) := by
      rw [startIllegal_offer hop]
      exact .beginOffer hr hshort _ _
    have hmove (u : State) : moveIllegal w u = u.statusFirst (fun _ t => t.discardBeat) := by rw [moveIllegal, if_pos hop]
    have hrun := hstart.settle hmove fun _ _ ht => ht.discardBeat
    exact hrun.awaiting (Nat.sub_pos_of_lt hshort) htidy hblocked
  · obtain ⟨hc, hstarved⟩ := (illegal_statusLast hop).settle_short hshort
    exact hstarved.awaiting hc

/-- Settles O28: the command runs to where it awaits the missing beats, and a blocked block stays. -/
theorem shortPayloadWaits : Obligations.ShortPayloadWaits := by
  intro i s hr hshort
  have hexec := exec_eq i s
  have hwait := settle_command_short hr hshort
  exact ⟨_, hexec, hwait.phase, hwait.cmd, hwait.offer, hwait.left, fun hrst => hwait.step ((exec_header hexec).2.trans hrst)⟩

/-- Settles O52: as O28 does for a command. -/
theorem illegalShortPayloadWaits : Obligations.IllegalShortPayloadWaits := by
  intro s w pay e hrst hp hr hc hd hshort
  have hwait := settle_illegal_short (s := { s with cmd := pay }) hr hshort
  have hrst' := (settle_illegal_header w { s with cmd := pay }).2.trans hrst
  exact ⟨_, step_illegal hrst hp hc hd, hwait.phase, hwait.cmd, hwait.offer, hwait.left, hwait.step hrst'⟩

end Sys2Proof.Machine

/-! PROOFS. O4: each worked header is the encoding of a well-formed command, so the round trip (`decode_encode`) decodes it. -/

namespace Sys2Proof

theorem decode_eq_of_encode_eq {w : Beat} {i : Instr} (hi : i.wellFormed = true) (hw : encode i = w) : decode w = .ok i :=
  hw ▸ decode_encode hi

/-- Settles O4: the round trip, for each of the six commands. -/
theorem workedHeadersDecode : Obligations.WorkedHeadersDecode := by
  refine ⟨?_, ?_, ?_, ?_, ?_, ?_⟩ <;>
    exact decode_eq_of_encode_eq (by decide) (by decide)

end Sys2Proof
